-- ==== Sys2Proof/Word.lean ====
section
/-! DEFINITION. The word types of DFCF: bytes, logical addresses, byte counts and wire addresses
(00_scope.md R7, R10; 20_memory.md R51). -/

namespace Sys2Proof

/-- A byte, bit 7 the most significant (00_scope.md R10). -/
abbrev Byte := BitVec 8

/-- A logical address: `ADDR_W = 32` bits (20_memory.md R51, decision D3). -/
abbrev Addr := BitVec 32

/-- A byte count: `LEN_W = 32` bits (00_scope.md R7, decision D3). -/
abbrev Len := BitVec 32

/-- A wire address: `WIRE_W = 24` bits (00_scope.md R7, 20_memory.md R61). -/
abbrev Wire := BitVec 24

/-- The chip-erase magic sequence: 32 bits, sent first byte first (30_encoding.md R82). -/
abbrev Magic := BitVec 32

end Sys2Proof
end

