-- ==== Sys2Proof/Syntax.lean ====
section
/-! DEFINITION. The 34 host operations of DFCF (30_encoding.md R100), one constructor per row of
spec/opcode_table.json, with their operands (10_state.md R36): a logical address `a`, a byte count
`n` for reads, a list of bytes `data` for writes. -/

namespace Sys2Proof

/-- An operation request (10_state.md R36, 30_encoding.md R100). -/
inductive Instr
  | readFc0 (a : Addr) (n : Len)
  | readFc1 (a : Addr) (n : Len)
  | readFc2 (a : Addr) (n : Len)
  | readFc3 (a : Addr) (n : Len)
  | pagerd (a : Addr) (n : Len)
  | bufrdLow1 (a : Addr) (n : Len)
  | bufrdLow2 (a : Addr) (n : Len)
  | bufrdHigh1 (a : Addr) (n : Len)
  | bufrdHigh2 (a : Addr) (n : Len)
  | bufwr1 (a : Addr) (data : List Byte)
  | bufwr2 (a : Addr) (data : List Byte)
  | wtbE1 (a : Addr) (data : List Byte)
  | wtbE2 (a : Addr) (data : List Byte)
  | wtbN (a : Addr) (data : List Byte)
  | wrbackE1 (a : Addr)
  | wrbackE2 (a : Addr)
  | wrbackN1 (a : Addr)
  | wrbackN2 (a : Addr)
  | copy1 (a : Addr)
  | copy2 (a : Addr)
  | cmp1 (a : Addr)
  | cmp2 (a : Addr)
  | cmpres
  | erasePage (a : Addr)
  | eraseBlock (a : Addr)
  | eraseSector (a : Addr)
  | eraseChip
  | identify
  | init
  | deinit
  | ready
  | psmRefresh
  | psmCached
  | epe
  deriving DecidableEq, Repr

/-- Why bytes on the host port are no request (30_encoding.md R97; log 1). -/
inductive DecodeError
  /-- no byte at all -/
  | empty
  /-- the first byte is no request code -/
  | unknownCode (b : Byte)
  /-- the byte after a request code that several operations share selects none of them -/
  | unknownSelector (b : Byte)
  /-- the bytes after 0xC7 are not the magic sequence of ERASE.CHIP -/
  | notMagic
  /-- fewer bytes than the operation's operands take -/
  | truncated
  /-- more bytes than the operation's operands take -/
  | trailing
  deriving DecidableEq, Repr

end Sys2Proof
end

