-- ==== Sys2Proof/WellFormed.lean ====
section
/-! DEFINITION. Which operation requests are well formed: a payload's length is a byte count of
`LEN_W` bits (10_state.md R36: "whose length is the count"). Addresses and counts are of their
width by type, and no other check exists (20_memory.md R53, R57). -/

namespace Sys2Proof

/-- The payload of a write, `[]` for every other operation. -/
def Instr.payload : Instr → List Byte
  | .bufwr1 _ d | .bufwr2 _ d | .wtbE1 _ d | .wtbE2 _ d | .wtbN _ d => d
  | .readFc0 _ _ | .readFc1 _ _ | .readFc2 _ _ | .readFc3 _ _ | .pagerd _ _ | .bufrdLow1 _ _
  | .bufrdLow2 _ _ | .bufrdHigh1 _ _ | .bufrdHigh2 _ _ | .wrbackE1 _ | .wrbackE2 _ | .wrbackN1 _
  | .wrbackN2 _ | .copy1 _ | .copy2 _ | .cmp1 _ | .cmp2 _ | .cmpres | .erasePage _
  | .eraseBlock _ | .eraseSector _ | .eraseChip | .identify | .init | .deinit | .ready
  | .psmRefresh | .psmCached | .epe => []

/-- A request is well formed when its payload's length fits a byte count. -/
def Instr.wellFormed (i : Instr) : Bool :=
  decide (i.payload.length < 2 ^ 32)

end Sys2Proof
end

