-- ==== Sys2Proof/Decode.lean ====
section
/-! DEFINITION. The decoder and encoder of operation requests on the host port.

The spec gives operations no binary layout on the host port (decision D2: "a layout can be added
without changing any rule"); what spec/opcode_table.json encodes is the FRAME an operation puts on
the wire. The layout here (DESIGN CHOICE, log 1) is the table's row read as a request: the row's
fixed byte(s), the frame's 24 address bits carrying the LOW 24 bits of the logical address, most
significant byte first (20_memory.md R54), and then the operand bytes the frame has no room for:
address bits 31:24, the count (four bytes, most significant first), the payload. Operations that
share a frame or have none carry one selector byte (DESIGN CHOICE, log 2). A request code is fixed:
the opcode an operation FRAMES is the configuration's (30_encoding.md R92). -/

namespace Sys2Proof

/-- The operands that follow a request code. -/
inductive Form
  /-- address, count -/
  | read (mk : Addr → Len → Instr)
  /-- address, count, payload -/
  | write (mk : Addr → List Byte → Instr)
  /-- address -/
  | addressed (mk : Addr → Instr)
  /-- the other three bytes of the magic sequence (30_encoding.md R82) -/
  | magic
  /-- one selector byte, an index into the list -/
  | select (l : List Instr)

/-- The request codes: the opcode bytes of spec/opcode_table.json, and 0x00 for the two operations
that frame nothing. -/
def formOf (b : Byte) : Option Form :=
  match b.toNat with
  | 0x00 => some (.select [.deinit, .psmCached])
  | 0x01 => some (.read .readFc0)
  | 0x02 => some (.write .wtbN)
  | 0x03 => some (.read .readFc1)
  | 0x0B => some (.read .readFc2)
  | 0x1B => some (.read .readFc3)
  | 0x50 => some (.addressed .eraseBlock)
  | 0x53 => some (.addressed .copy1)
  | 0x55 => some (.addressed .copy2)
  | 0x60 => some (.addressed .cmp1)
  | 0x61 => some (.addressed .cmp2)
  | 0x7C => some (.addressed .eraseSector)
  | 0x81 => some (.addressed .erasePage)
  | 0x82 => some (.write .wtbE1)
  | 0x83 => some (.addressed .wrbackE1)
  | 0x84 => some (.write .bufwr1)
  | 0x85 => some (.write .wtbE2)
  | 0x86 => some (.addressed .wrbackE2)
  | 0x87 => some (.write .bufwr2)
  | 0x88 => some (.addressed .wrbackN1)
  | 0x89 => some (.addressed .wrbackN2)
  | 0x9F => some (.select [.identify, .init])
  | 0xC7 => some .magic
  | 0xD1 => some (.read .bufrdLow1)
  | 0xD2 => some (.read .pagerd)
  | 0xD3 => some (.read .bufrdLow2)
  | 0xD4 => some (.read .bufrdHigh1)
  | 0xD6 => some (.read .bufrdHigh2)
  | 0xD7 => some (.select [.ready, .cmpres, .psmRefresh, .epe])
  | _ => none

/-- Four bytes as one 32-bit number, the first byte most significant. -/
def word32 (b3 b2 b1 b0 : Byte) : BitVec 32 := b3 ++ b2 ++ b1 ++ b0

/-- Reads an address operand: bits 23:16, 15:8, 7:0 as the frame has them, then bits 31:24. -/
def takeAddr : List Byte → Except DecodeError (Addr × List Byte)
  | b2 :: b1 :: b0 :: b3 :: rest => .ok (word32 b3 b2 b1 b0, rest)
  | _ => .error .truncated

/-- Reads a count operand, most significant byte first. -/
def takeLen : List Byte → Except DecodeError (Len × List Byte)
  | b3 :: b2 :: b1 :: b0 :: rest => .ok (word32 b3 b2 b1 b0, rest)
  | _ => .error .truncated

/-- The request is complete: no byte may be left. -/
def finish (i : Instr) : List Byte → Except DecodeError Instr
  | [] => .ok i
  | _ :: _ => .error .trailing

/-- Reads the operands of a form. -/
def decodeForm : Form → List Byte → Except DecodeError Instr
  | .read mk, bs =>
    match takeAddr bs with
    | .error e => .error e
    | .ok (a, bs) =>
      match takeLen bs with
      | .error e => .error e
      | .ok (n, bs) => finish (mk a n) bs
  | .write mk, bs =>
    match takeAddr bs with
    | .error e => .error e
    | .ok (a, bs) =>
      match takeLen bs with
      | .error e => .error e
      | .ok (n, data) =>
        if data.length < n.toNat then .error .truncated
        else if n.toNat < data.length then .error .trailing
        else .ok (mk a data)
  | .addressed mk, bs =>
    match takeAddr bs with
    | .error e => .error e
    | .ok (a, bs) => finish (mk a) bs
  | .magic, b2 :: b1 :: b0 :: bs =>
    if word32 0xC7 b2 b1 b0 = 0xC794809A#32 then finish .eraseChip bs else .error .notMagic
  | .magic, _ => .error .truncated
  | .select l, b :: bs =>
    match l[b.toNat]? with
    | none => .error (.unknownSelector b)
    | some i => finish i bs
  | .select _, [] => .error .truncated

/-- The decoder of the host port: total on any bytes, rejecting by name. -/
def decode : List Byte → Except DecodeError Instr
  | [] => .error .empty
  | b :: bs =>
    match formOf b with
    | none => .error (.unknownCode b)
    | some f => decodeForm f bs

/-- An address operand's four bytes: the frame's order first (20_memory.md R54). -/
def addrBytes (a : Addr) : List Byte :=
  [a.extractLsb' 16 8, a.extractLsb' 8 8, a.extractLsb' 0 8, a.extractLsb' 24 8]

/-- A count operand's four bytes, most significant first. -/
def lenBytes (n : Len) : List Byte :=
  [n.extractLsb' 24 8, n.extractLsb' 16 8, n.extractLsb' 8 8, n.extractLsb' 0 8]

/-- The bytes of a read request. -/
def encodeRead (code : Byte) (a : Addr) (n : Len) : List Byte :=
  code :: (addrBytes a ++ lenBytes n)

/-- The bytes of a write request. -/
def encodeWrite (code : Byte) (a : Addr) (data : List Byte) : List Byte :=
  code :: (addrBytes a ++ lenBytes (BitVec.ofNat 32 data.length) ++ data)

/-- The bytes of a request with an address alone. -/
def encodeAddressed (code : Byte) (a : Addr) : List Byte :=
  code :: addrBytes a

/-- The encoder: the bytes of an operation request, from the rows of spec/opcode_table.json. -/
def encode : Instr → List Byte
  | .readFc0 a n => encodeRead 0x01 a n
  | .readFc1 a n => encodeRead 0x03 a n
  | .readFc2 a n => encodeRead 0x0B a n
  | .readFc3 a n => encodeRead 0x1B a n
  | .pagerd a n => encodeRead 0xD2 a n
  | .bufrdLow1 a n => encodeRead 0xD1 a n
  | .bufrdLow2 a n => encodeRead 0xD3 a n
  | .bufrdHigh1 a n => encodeRead 0xD4 a n
  | .bufrdHigh2 a n => encodeRead 0xD6 a n
  | .bufwr1 a d => encodeWrite 0x84 a d
  | .bufwr2 a d => encodeWrite 0x87 a d
  | .wtbE1 a d => encodeWrite 0x82 a d
  | .wtbE2 a d => encodeWrite 0x85 a d
  | .wtbN a d => encodeWrite 0x02 a d
  | .wrbackE1 a => encodeAddressed 0x83 a
  | .wrbackE2 a => encodeAddressed 0x86 a
  | .wrbackN1 a => encodeAddressed 0x88 a
  | .wrbackN2 a => encodeAddressed 0x89 a
  | .copy1 a => encodeAddressed 0x53 a
  | .copy2 a => encodeAddressed 0x55 a
  | .cmp1 a => encodeAddressed 0x60 a
  | .cmp2 a => encodeAddressed 0x61 a
  | .cmpres => [0xD7, 1]
  | .erasePage a => encodeAddressed 0x81 a
  | .eraseBlock a => encodeAddressed 0x50 a
  | .eraseSector a => encodeAddressed 0x7C a
  | .eraseChip => [0xC7, 0x94, 0x80, 0x9A]
  | .identify => [0x9F, 0]
  | .init => [0x9F, 1]
  | .deinit => [0x00, 0]
  | .ready => [0xD7, 0]
  | .psmRefresh => [0xD7, 2]
  | .psmCached => [0x00, 1]
  | .epe => [0xD7, 3]

/-- The bytes a request takes when its payload is empty, from its first byte. -/
def fixedLength (b : Byte) : Nat :=
  match formOf b with
  | some (.read _) | some (.write _) => 9
  | some (.addressed _) => 5
  | some .magic => 4
  | some (.select _) => 2
  | none => 1

/-- The `k` low bytes of `w`, most significant first: a table word has its bit 31 sent first
(30_encoding.md R81). -/
def tableBytes (k w : Nat) : List Byte :=
  (List.range k).map fun i => BitVec.ofNat 8 (w >>> (8 * (k - 1 - i)))

/-- The request a table word of `nbits` bits stands for: its bytes, then bytes of zero (a row with no
bits is all zeros: request code 0x00). -/
def tableRequest (nbits w : Nat) : List Byte :=
  let bs := tableBytes (nbits / 8) w
  bs ++ List.replicate (max 1 (fixedLength (bs.headD 0)) - bs.length) 0

/-- The operation the decoder reads from a word numbered as spec/opcode_table.json numbers it. -/
def decodeTableWord (nbits w : Nat) : Option Instr :=
  match decode (tableRequest nbits w) with
  | .ok i => some i
  | .error _ => none

end Sys2Proof
end

