-- ==== Sys2Proof/Config.lean ====
section
/-! DEFINITION. The configuration record of DFCF (00_scope.md R7), its constraints (R8), the bus
events (00_scope.md R12), and the one free value of the model: the byte an unconstrained device
answers (40_primitives.md R122). -/

namespace Sys2Proof

/-- The frequency class of a transfer, slowest to fastest (30_encoding.md R103). A tag of the
transfer; no duration is attached (70_reset_and_hazards.md R297). -/
inductive FreqClass
  | fc0
  | fc1
  | fc2
  | fc3
  deriving DecidableEq, Repr

/-- The order `FC0 < FC1 < FC2 < FC3` of 30_encoding.md R103. -/
def FreqClass.rank : FreqClass → Nat
  | .fc0 => 0
  | .fc1 => 1
  | .fc2 => 2
  | .fc3 => 3

/-- A bus event (00_scope.md R12): `SEL(v)` or `XFER(o, fc) -> i`. -/
inductive Event
  /-- `SEL(v)`: the select primitive called with `asserted = v` (40_primitives.md R120). -/
  | sel (v : Bool)
  /-- `XFER(out, fc) -> ans`: one byte out while one byte comes in (40_primitives.md R121). -/
  | xfer (out : Byte) (fc : FreqClass) (ans : Byte)
  deriving DecidableEq, Repr

/-- The capability record `CAP` (10_state.md R35): read-only, reached by no operation. -/
structure Cap where
  /-- every operation whose buffer is 2 requires it -/
  hasSecondBuffer : Bool
  /-- READ.FC3 requires it -/
  hasHighFrequencyRead : Bool
  /-- read by no rule (decision D33) -/
  hasDualIo : Bool
  /-- read by no rule (decision D33) -/
  hasQuadIo : Bool
  /-- only the reading of `sr2[2:0]` (10_state.md R34), which no operation does -/
  hasSuspendResume : Bool
  /-- in Mbit; read by no rule (decision D33) -/
  maxDensity : Byte
  deriving DecidableEq, Repr

/-- The opcode parameters of 30_encoding.md R92. -/
structure Opcodes where
  readFc0 : Byte
  readFc1 : Byte
  readFc2 : Byte
  readFc3 : Byte
  pagerd : Byte
  bufrdLow1 : Byte
  bufrdLow2 : Byte
  bufrdHigh1 : Byte
  bufrdHigh2 : Byte
  bufwr1 : Byte
  bufwr2 : Byte
  wtbE1 : Byte
  wtbE2 : Byte
  wtbN : Byte
  wrbackE1 : Byte
  wrbackE2 : Byte
  wrbackN1 : Byte
  wrbackN2 : Byte
  copy1 : Byte
  copy2 : Byte
  cmp1 : Byte
  cmp2 : Byte
  erasePage : Byte
  eraseBlock : Byte
  eraseSector : Byte
  status : Byte
  jedec : Byte
  /-- `MAGIC_ERASE_CHIP` -/
  magicEraseChip : Magic
  deriving DecidableEq, Repr

/-- The one-byte opcode parameters, in the order of the table of 30_encoding.md R92. -/
def Opcodes.all (o : Opcodes) : List Byte :=
  [o.readFc0, o.readFc1, o.readFc2, o.readFc3, o.pagerd, o.bufrdLow1, o.bufrdLow2, o.bufrdHigh1,
    o.bufrdHigh2, o.bufwr1, o.bufwr2, o.wtbE1, o.wtbE2, o.wtbN, o.wrbackE1, o.wrbackE2,
    o.wrbackN1, o.wrbackN2, o.copy1, o.copy2, o.cmp1, o.cmp2, o.erasePage, o.eraseBlock,
    o.eraseSector, o.status, o.jedec]

/-- The bytes that may open a transaction (30_encoding.md R96): the opcode parameters and the
first byte of the magic sequence. -/
def Opcodes.openers (o : Opcodes) : List Byte :=
  o.all ++ [o.magicEraseChip.extractLsb' 24 8]

/-- `DUMMY(op)`, the number of dummy transfers of each read operation (41_read.md R150). Held in
`LEN_W` bits because the register `cnt` that counts them has that width (10_state.md R31; log 9). -/
structure Dummies where
  readFc0 : Len
  readFc1 : Len
  readFc2 : Len
  readFc3 : Len
  pagerd : Len
  bufrdLow1 : Len
  bufrdLow2 : Len
  bufrdHigh1 : Len
  bufrdHigh2 : Len
  deriving DecidableEq, Repr

/-- The configuration record of 00_scope.md R7. It is constant: no operation writes it. `B_DF`,
`B_P2`, `BLOCK_SHIFT`, `PSIZE_BIT` and the widths, which the source fixes, are constants below. -/
structure Config where
  cap : Cap
  opc : Opcodes
  dummy : Dummies
  /-- `DENSITY_TABLE`: Mbit by density code, 0 = invalid -/
  densityTable : List Byte
  /-- `W_DF(d)`: page-address bits in DataFlash mode, by density -/
  wDf : List (Byte × Nat)
  /-- `W_P2(d)`: page-address bits in power-of-2 mode, by density -/
  wP2 : List (Byte × Nat)
  /-- `S_LOG2(d)`: log2 of the pages per sector, by density -/
  sLog2 : List (Byte × Nat)
  /-- `FC_CMD`: the class of every command that is not a speed-variant read -/
  fcCmd : FreqClass
  rdyBit : Fin 8
  compBit : Fin 8
  protBit : Fin 8
  epeBit : Fin 8
  /-- `FILL`: the byte clocked out when only the answer is wanted -/
  fill : Byte
  deriving DecidableEq, Repr

/-- `B_DF = 10`: offset bits, DataFlash pages (00_scope.md R7, R8). -/
def Config.bDf : Nat := 10

/-- `B_P2 = 9`: offset bits, power-of-2 pages (00_scope.md R7, R8). -/
def Config.bP2 : Nat := 9

/-- `BLOCK_SHIFT = 3`: 8 pages per block (00_scope.md R7). -/
def Config.blockShift : Nat := 3

/-- `PSIZE_BIT = 0`: the page-size bit of status byte 1 (00_scope.md R7). -/
def Config.psizeBit : Nat := 0

/-- The tables of a density the decode can yield meet the bounds of 00_scope.md R8. -/
def Config.densityAdmissible (c : Config) (d : Byte) : Bool :=
  match c.wDf.lookup d, c.wP2.lookup d, c.sLog2.lookup d with
  | some w, some v, some s =>
    decide (8 ≤ w ∧ w ≤ 14 ∧ v ≤ 13 ∧ w + Config.bDf ≤ 24 ∧ v + Config.bP2 ≤ 23 ∧ s ≤ w ∧ s ≤ v)
  | _, _, _ => false

/-- The constraints of 00_scope.md R8 on a configuration. R8 does not say how the 32-bit parameter
`MAGIC_ERASE_CHIP` takes part in "pairwise distinct": the 27 one-byte opcodes are compared with each
other and the magic sequence, its first byte included, with none (DESIGN CHOICE, log 29). -/
def Config.admissible (c : Config) : Bool :=
  c.densityTable.all (fun d => d == 0 || c.densityAdmissible d) &&
    (c.densityTable.take 3 == [0, 0, 0]) && (c.densityTable[6]? == some 16) && decide c.opc.all.Nodup

/-- The default opcodes of 30_encoding.md R92 (PRESUMED by the spec: general knowledge of the
AT45DB family, 93_implementation_defined.md G1; log 6). -/
def Opcodes.default : Opcodes where
  readFc0 := 0x01
  readFc1 := 0x03
  readFc2 := 0x0B
  readFc3 := 0x1B
  pagerd := 0xD2
  bufrdLow1 := 0xD1
  bufrdLow2 := 0xD3
  bufrdHigh1 := 0xD4
  bufrdHigh2 := 0xD6
  bufwr1 := 0x84
  bufwr2 := 0x87
  wtbE1 := 0x82
  wtbE2 := 0x85
  wtbN := 0x02
  wrbackE1 := 0x83
  wrbackE2 := 0x86
  wrbackN1 := 0x88
  wrbackN2 := 0x89
  copy1 := 0x53
  copy2 := 0x55
  cmp1 := 0x60
  cmp2 := 0x61
  erasePage := 0x81
  eraseBlock := 0x50
  eraseSector := 0x7C
  status := 0xD7
  jedec := 0x9F
  magicEraseChip := 0xC794809A

/-- `DUMMY(op) = 0` for every read (decision D8). -/
def Dummies.default : Dummies where
  readFc0 := 0
  readFc1 := 0
  readFc2 := 0
  readFc3 := 0
  pagerd := 0
  bufrdLow1 := 0
  bufrdLow2 := 0
  bufrdHigh1 := 0
  bufrdHigh2 := 0

/-- The defaults of 00_scope.md R7. The capability values are per device model and not in the
spec: all true and 64 Mbit here (DESIGN CHOICE, log 6), as in table V5 of 95_test_vectors.md. -/
def Config.default : Config where
  cap := ⟨true, true, true, true, true, 64⟩
  opc := Opcodes.default
  dummy := Dummies.default
  densityTable := [0, 0, 0, 2, 4, 8, 16, 32, 64]
  wDf := [(1, 8), (2, 9), (4, 10), (8, 11), (16, 12), (32, 13), (64, 14)]
  wP2 := [(1, 8), (2, 9), (4, 10), (8, 11), (16, 12), (32, 13), (64, 13)]
  sLog2 := [(2, 6), (4, 7), (8, 7), (16, 8), (32, 7), (64, 9)]
  fcCmd := .fc2
  rdyBit := 7
  compBit := 6
  protBit := 1
  epeBit := 5
  fill := 0x00

/-- THE FREE VALUE of the model: the byte an unconstrained device answers, as an oracle of the bus
events so far and of the byte and class being transferred (40_primitives.md R122; log 7). It has no
body, so nothing can be proved of the byte it gives. -/
opaque Config.freeAnswer : List Event → Byte → FreqClass → Byte

end Sys2Proof
end

