-- ==== Sys2Proof/Machine/State.lean ====
section
/-! DEFINITION. The state of DFCF (10_state.md R20), of its inputs and outputs, and of the simulated
device E (60_exceptions.md R256) when one is attached; the reasons a step can stop; the state right
after reset (10_state.md R41). Everything is plain data. -/

namespace Sys2Proof.Machine

/-! ## Outcomes -/

/-- The outcome DFCF delivers for a request (60_exceptions.md R240). The bytes of a read stand
beside it in `Delivery`. -/
inductive OpOutcome
  | ok
  | done (n : Len)
  | bit (b : Bool)
  | fail
  | unsupported
  | invalidDensity
  | notInitialised
  deriving DecidableEq, Repr

/-- The outcome codes of 60_exceptions.md R240 (arbitrary numbers, decision D30). -/
def OpOutcome.code : OpOutcome → Nat
  | .ok => 0
  | .done _ => 1
  | .bit _ => 2
  | .fail => 3
  | .unsupported => 4
  | .invalidDensity => 5
  | .notInitialised => 6

/-- What the host receives when an operation ends (10_state.md R37): the outcome and, for a read,
the bytes read. -/
structure Delivery where
  outcome : OpOutcome
  bytes : List Byte
  deriving DecidableEq, Repr

/-! ## The sequencer -/

/-- The readiness state (10_state.md R30). -/
inductive Readiness
  | busy
  | ready
  deriving DecidableEq, Repr

/-- The micro-phases of 40_primitives.md R131. -/
inductive Phase
  | idle
  | selOn
  | hdr (i : Nat)
  | dmy (j : Nat)
  | din (k : Nat)
  | dout (k : Nat)
  | selOff
  | psOn
  | psOpc
  | psB1
  | psB2
  | psOff
  deriving DecidableEq, Repr

/-- What follows the frame in a transaction (30_encoding.md R83). -/
inductive DataPhase
  /-- nothing -/
  | none
  /-- `n` transfers of the filler, the answers captured -/
  | read (n : Len)
  /-- the payload bytes, the answers discarded -/
  | payload (data : List Byte)
  /-- the two status bytes (40_primitives.md R127) -/
  | snapshot
  /-- the three identification bytes (45_ident_init.md R210) -/
  | ident
  deriving DecidableEq, Repr

/-- The status bit a query returns (10_state.md R32, R33). -/
inductive StatusBit
  /-- `sr1[RDY_BIT]` -/
  | rdy
  /-- `sr1[COMP_BIT]` -/
  | comp
  /-- `sr2[EPE_BIT]` -/
  | epe
  deriving DecidableEq, Repr

/-- What happens when the command transaction has closed (the row SEL_OFF of 40_primitives.md
R131). -/
inductive Finish
  /-- deliver this outcome -/
  | deliver (o : OpOutcome)
  /-- write-class: poll until ready, then deliver this outcome or `Fail` (R128) -/
  | poll (o : OpOutcome)
  /-- a status query: deliver one bit of the snapshot (46_status.md R220) -/
  | query (q : StatusBit)
  /-- PSM.REFRESH (46_status.md R222) -/
  | refresh
  /-- IDENTIFY (45_ident_init.md R210) -/
  | identify
  /-- INIT, the identification transaction (45_ident_init.md R212) -/
  | initIdent
  /-- INIT, the status transaction after a valid density (45_ident_init.md R212) -/
  | initStatus
  deriving DecidableEq, Repr

/-- The request being run, as the IDLE row of 40_primitives.md R131 latches it (log 13). The frame,
the count and the class stand in the registers `hdr`, `cnt`, `fc`. -/
structure Job where
  /-- `DUMMY(op)` (41_read.md R150), 0 where the operation has no dummy transfers -/
  dummy : Len
  data : DataPhase
  /-- write-class, COPY.b or CMP.b: `rs <- BUSY` at the frame's `SEL(1)` (10_state.md R30) -/
  marksBusy : Bool
  finish : Finish
  deriving DecidableEq, Repr

/-! ## The simulated device E -/

/-- Bytes by address, in one canonical form (`Memory.wf`, Machine/Memory.lean): addresses strictly
rising, no entry equal to what an unlisted address reads as. -/
abbrev Memory := List Host.Cell

/-- A buffer identifier. -/
inductive Buf
  | one
  | two
  deriving DecidableEq, Repr

/-- The commands E knows, by their opcodes (60_exceptions.md R260 to R265). The status read and the
identification are transactions of their own (`Xact`). -/
inductive DevCmd
  | arrayRead (k : FreqClass)
  | pageRead
  | bufRead (high : Bool) (b : Buf)
  | bufWrite (b : Buf)
  | wtbE (b : Buf)
  | wtbN
  | wrbackE (b : Buf)
  | wrbackN (b : Buf)
  | copy (b : Buf)
  | cmp (b : Buf)
  | erasePage
  | eraseBlock
  | eraseSector
  | eraseChip
  deriving DecidableEq, Repr

/-- E's transaction in progress (60_exceptions.md R257). -/
inductive Xact
  /-- select is not asserted -/
  | deselected
  /-- select was asserted; the next byte is the opcode -/
  | opcode
  /-- an `F_OA` opcode was received, then these address bytes -/
  | addr (cmd : DevCmd) (got : List Byte)
  /-- the frame is complete: page, offset in the page or buffer of the next byte, dummy bytes still
  to discard, buffer positions written so far -/
  | body (cmd : DevCmd) (page off skip : Nat) (written : List Nat)
  /-- the first bytes of the magic sequence were received -/
  | magic (got : List Byte)
  /-- all four bytes of the magic sequence matched -/
  | magicDone
  /-- status read; `second`: the next byte answered is byte 2 -/
  | status (second : Bool)
  /-- identification; `k` bytes were answered -/
  | jedec (k : Nat)
  /-- an opcode E does not know -/
  | unknown
  /-- a command ignored because E is busy; `frame`: its opcode and address bytes still to come -/
  | ignored (frame : Nat)
  deriving DecidableEq, Repr

/-- The simulated device E (60_exceptions.md R256): its parameters, then its state. -/
structure Device where
  /-- density in Mbit -/
  density : Byte
  /-- `Wd = W_DF(d)`: main memory has `2^Wd` pages -/
  pageBits : Nat
  /-- `Wd' = W(d, E.psize)`: the page-index width of a wire address (R257) -/
  addrBits : Nat
  /-- `S_LOG2(d)` -/
  sectorLog : Nat
  /-- `code(d)`, the density field of status byte 1 (R258) -/
  statusCode : BitVec 4
  mfr : Byte
  id0 : Byte
  id1 : Byte
  /-- 0 = DataFlash pages, 1 = power-of-2 pages -/
  psize : Bool
  /-- `BUSY_POLLS(c)`: snapshots that answer busy after command `c`; 0 where not listed -/
  busyPolls : List (DevCmd × Nat)
  /-- main memory; byte `i` of page `p` at `p * PAGE_BYTES + i` -/
  main : Memory
  buf1 : Memory
  buf2 : Memory
  busy : Nat
  comp : Bool
  epe : Bool
  xact : Xact
  deriving DecidableEq, Repr

/-- Who answers the transfers (40_primitives.md R122). -/
inductive Link
  /-- nothing is known of the device: these answers come first, then the free value
  `Config.freeAnswer` (log 7) -/
  | openLink (answers : List Byte)
  /-- the simulated device E is attached (log 16) -/
  | device (e : Device)
  deriving DecidableEq, Repr

/-! ## The state -/

/-- The state of the machine. The first group are the registers of 10_state.md R20, the second the
model's inputs, outputs and bookkeeping (INVENTORY.md, "State"). -/
structure State where
  /-- the configuration record, constant (00_scope.md R7) -/
  cfg : Config
  /-- `MFR` (10_state.md R21) -/
  mfr : Byte
  /-- `DID0` (R22) -/
  did0 : Byte
  /-- `DID1` (R22) -/
  did1 : Byte
  /-- `DENS`, Mbit (R23) -/
  dens : Byte
  /-- `PSM`: false = DataFlash pages, true = power-of-2 pages (R24) -/
  psm : Bool
  /-- `VALID` (R25) -/
  valid : Bool
  /-- `phase` (R28) -/
  phase : Phase
  /-- `sel`, true = asserted (R29) -/
  sel : Bool
  /-- `rs` (R30) -/
  rs : Readiness
  /-- `hdr`: the frame bytes still to send (R31) -/
  hdr : List Byte
  /-- `cnt`: dummy, payload or read-back bytes still to transfer (R31) -/
  cnt : Len
  /-- `fc`: the frequency class of the operation (R31) -/
  fc : FreqClass
  /-- the first byte of the latest snapshot (R31, R32) -/
  sr1 : Byte
  /-- the second byte of the latest snapshot (R31, R33) -/
  sr2 : Byte
  /-- requests offered and not yet accepted, in order, each as its bytes (R36; log 1) -/
  requests : List (List Byte)
  /-- the host asks for a reset (70_reset_and_hazards.md R281; log 14) -/
  resetReq : Bool
  /-- the request being run, present only while one is (R36; log 13) -/
  job : Option Job
  /-- the bytes the running operation has captured (R131 `out[k]`; log 13) -/
  out : List Byte
  /-- who answers the transfers (R122) -/
  link : Link
  /-- the bus events performed, oldest first (00_scope.md R12; log 15) -/
  trace : List Event
  /-- the outcomes delivered, oldest first (R37; log 15) -/
  delivered : List Delivery
  deriving DecidableEq, Repr

/-- The reasons a step stops with a fault. Both are SAFE (the model stops; no run from reset with an
admissible configuration meets either). -/
inductive Fault
  /-- Raised by an addressed operation when `VALID = 1` and `DENS` has no entry in the width (or
  sector) table: a configuration outside 00_scope.md R8, for which the spec gives no wire address
  (10_state.md R25: "else addressing is undefined"). Safe. Log 10. -/
  | addressingUndefined
  /-- Raised by the sequencer in a combination of `phase`, `hdr`, `cnt`, `out` and running request
  that the table of 40_primitives.md R131 does not have. Safe. Log 11. -/
  | phaseOutsideTable
  deriving DecidableEq, Repr

/-- The reasons a step is refused. -/
inductive Refusal
  /-- Raised by a refused arm of `exec` only: an operation with no meaning yet. Safe. -/
  | notModelled (mnemonic : String)
  /-- Raised by `step` in `IDLE` when no request is offered: DFCF has no step (40_primitives.md
  R132). Safe. Log 12. -/
  | noRequest
  /-- Raised by `step` when the bytes offered are none of the 34 operations (30_encoding.md R97,
  60_exceptions.md R246). Safe. -/
  | unknownRequest (why : DecodeError)
  deriving DecidableEq, Repr

/-- The outcome of a step. -/
abbrev Result := Host.Outcome State Fault Refusal

/-- What reset leaves (10_state.md R41, 70_reset_and_hazards.md R280), given the configuration,
which reset keeps, and what reset does not touch. The zeros of `mfr`, `did0`, `did1`, `dens`, `psm`
(log 4) and of the scratch registers (log 5) are DESIGN CHOICE: the spec gives them no value. The
`SEL(0)` of reset is the last event of `trace`. -/
def State.resetWith (cfg : Config) (requests : List (List Byte)) (link : Link)
    (trace : List Event) (delivered : List Delivery) : State where
  cfg := cfg
  mfr := 0
  did0 := 0
  did1 := 0
  dens := 0
  psm := false
  valid := false
  phase := .idle
  sel := false
  rs := .ready
  hdr := []
  cnt := 0
  fc := .fc0
  sr1 := 0
  sr2 := 0
  requests := requests
  resetReq := false
  job := none
  out := []
  link := link
  trace := trace ++ [.sel false]
  delivered := delivered

/-- The machine right after reset: the default configuration (log 6), nothing offered, an open
link with no listed answer (log 7). -/
def State.reset : State :=
  State.resetWith Config.default [] (.openLink []) [] []

end Sys2Proof.Machine
end

