-- ==== Sys2Proof/Machine/Memory.lean ====
section
/-! DEFINITION. Operations on the byte arrays of the simulated device E (60_exceptions.md R256,
R260 to R265). DFCF itself holds no memory (00_scope.md R11). -/

namespace Sys2Proof.Machine

/-- What an unlisted address reads as: `FF`, the erased value (60_exceptions.md R265). The spec
gives E's arrays no other initial contents (DESIGN CHOICE, log 17). -/
def Memory.unlisted : Byte := 0xFF

/-- The canonical form: addresses strictly rising, no entry that equals the unlisted value. -/
abbrev Memory.wf (m : Memory) : Prop :=
  m.Pairwise (fun c d => c.1 < d.1) ∧ ∀ c ∈ m, c.2 ≠ Memory.unlisted

/-- The byte at an address. -/
def Memory.read : Memory → Nat → Byte
  | [], _ => Memory.unlisted
  | (b, v) :: m, a => if b = a then v else Memory.read m a

/-- Stores a byte, keeping the canonical form. -/
def Memory.write : Memory → Nat → Byte → Memory
  | [], a, v => if v = Memory.unlisted then [] else [(a, v)]
  | (b, w) :: m, a, v =>
    if a < b then (if v = Memory.unlisted then (b, w) :: m else (a, v) :: (b, w) :: m)
    else if a = b then (if v = Memory.unlisted then m else (a, v) :: m)
    else (b, w) :: Memory.write m a v

/-- Erases the addresses `lo` to `lo + len - 1`: they read `FF` (60_exceptions.md R265). -/
def Memory.erase (m : Memory) (lo len : Nat) : Memory :=
  m.filter fun c => decide (c.1 < lo ∨ lo + len ≤ c.1)

/-- Stores `f i` at `lo + i` for every `i` of the list, in order. -/
def Memory.writeEach (m : Memory) (lo : Nat) (f : Nat → Byte) (is : List Nat) : Memory :=
  is.foldl (fun m i => Memory.write m (lo + i) (f i)) m

end Sys2Proof.Machine
end

