-- ==== Sys2Proof/Machine/Operands.lean ====
section
/-! DEFINITION. The Address Codec (30_encoding.md R84 to R91, 20_memory.md R51 to R62): every form
of address operand. All arithmetic is on unsigned numbers (00_scope.md R10). -/

namespace Sys2Proof.Machine

/-- `mask(n) = 2^n - 1` (00_scope.md R10). -/
def mask (n : Nat) : Nat := 2 ^ n - 1

/-- Byte `i` of a wire address, `w[8i+7 : 8i]`. -/
def wireByte (w : Wire) (i : Nat) : Byte := w.extractLsb' (8 * i) 8

/-- Byte `i` of a magic sequence, `m[8i+7 : 8i]`. -/
def magicByte (m : Magic) (i : Nat) : Byte := m.extractLsb' (8 * i) 8

/-- The offset width `B(m)` (30_encoding.md R84). -/
def offsetBits (psm : Bool) : Nat := if psm then Config.bP2 else Config.bDf

/-- The page-address width `W(d, m)` (30_encoding.md R85), where the tables give one. -/
def pageBits (c : Config) (dens : Byte) (psm : Bool) : Option Nat :=
  if psm then c.wP2.lookup dens else c.wDf.lookup dens

/-- `(a >> B) & mask(W)` (30_encoding.md R86). -/
def pageIndex (B W : Nat) (a : Addr) : Nat := (a.toNat >>> B) &&& mask W

/-- `a & mask(B)` (30_encoding.md R86). -/
def offsetOf (B : Nat) (a : Addr) : Nat := a.toNat &&& mask B

/-- `encode(a)` (30_encoding.md R86). -/
def wireFull (B W : Nat) (a : Addr) : Wire :=
  BitVec.ofNat 24 ((pageIndex B W a <<< B) ||| offsetOf B a)

/-- `encode_page(a)` (30_encoding.md R88). -/
def wirePage (B W : Nat) (a : Addr) : Wire :=
  BitVec.ofNat 24 (pageIndex B W a <<< B)

/-- `encode_block(a)` (30_encoding.md R89). -/
def wireBlock (B W : Nat) (a : Addr) : Wire :=
  BitVec.ofNat 24 ((pageIndex B W a >>> Config.blockShift) <<< (B + Config.blockShift))

/-- `encode_sector(a)` (30_encoding.md R90), `S` the log2 of the pages per sector. -/
def wireSector (B W S : Nat) (a : Addr) : Wire :=
  BitVec.ofNat 24 ((pageIndex B W a >>> S) <<< (B + S))

/-- `encode_buf(a)` (30_encoding.md R91). -/
def wireBuf (B : Nat) (a : Addr) : Wire :=
  BitVec.ofNat 24 (offsetOf B a)

/-- `decode(w)` (30_encoding.md R87), used by no operation. -/
def wireDecode (B : Nat) (w : Wire) : Addr :=
  BitVec.ofNat 32 (((w.toNat >>> B) <<< B) ||| (w.toNat &&& mask B))

/-- `B(x[PSM])` (30_encoding.md R84). -/
def State.offsetBits (s : State) : Nat := Machine.offsetBits s.psm

/-- `W(x[DENS], x[PSM])` (30_encoding.md R85). -/
def State.pageBits (s : State) : Option Nat := Machine.pageBits s.cfg s.dens s.psm

/-- `S_LOG2(x[DENS])` (30_encoding.md R90). -/
def State.sectorLog (s : State) : Option Nat := s.cfg.sLog2.lookup s.dens

/-- The wire address of a byte-granular main-memory operation (R86). -/
def State.fullWire (s : State) (a : Addr) : Option Wire :=
  s.pageBits.map fun W => wireFull s.offsetBits W a

/-- The wire address of a page-granular operation (R88). -/
def State.pageWire (s : State) (a : Addr) : Option Wire :=
  s.pageBits.map fun W => wirePage s.offsetBits W a

/-- The wire address of ERASE.BLOCK (R89). -/
def State.blockWire (s : State) (a : Addr) : Option Wire :=
  s.pageBits.map fun W => wireBlock s.offsetBits W a

/-- The wire address of ERASE.SECTOR (R90). -/
def State.sectorWire (s : State) (a : Addr) : Option Wire :=
  match s.pageBits, s.sectorLog with
  | some W, some S => some (wireSector s.offsetBits W S a)
  | _, _ => none

/-- The wire address of a buffer operation (R91); it needs no table. -/
def State.bufWire (s : State) (a : Addr) : Option Wire :=
  some (wireBuf s.offsetBits a)

/-- The address operand `PG(p, o)` (30_encoding.md R101), with the `B` of the `PSM` in force. -/
def State.pg (s : State) (p o : Nat) : Addr :=
  BitVec.ofNat 32 ((p <<< s.offsetBits) ||| o)

/-- The bytes of a frame of format `F_OA`, first byte first (30_encoding.md R80, R81). -/
def frameOA (opc : Byte) (w : Wire) : List Byte :=
  [opc, wireByte w 2, wireByte w 1, wireByte w 0]

/-- The bytes of a frame of format `F_M4` (30_encoding.md R82). -/
def frameM4 (m : Magic) : List Byte :=
  [magicByte m 3, magicByte m 2, magicByte m 1, magicByte m 0]

/-- The byte of a frame of format `F_O` (30_encoding.md R80). -/
def frameO (opc : Byte) : List Byte := [opc]

end Sys2Proof.Machine
end

