-- ==== Sys2Proof/Machine/Device.lean ====
section
/-! DEFINITION. The simulated device E (60_exceptions.md R256 to R268) and the link that answers
transfers (40_primitives.md R122). E is an environment, not a part of DFCF: it acts only through
the two bus primitives, and no statement about DFCF alone assumes it (R255, decision D37; log 16). -/

namespace Sys2Proof.Machine

/-- `PAGE_BYTES`, which is also `BUF_BYTES` (60_exceptions.md R256). -/
def Device.pageBytes (e : Device) : Nat := if e.psize then 512 else 528

/-- Buffer `b`. -/
def Device.buf (e : Device) : Buf → Memory
  | .one => e.buf1
  | .two => e.buf2

/-- Replaces buffer `b`. -/
def Device.setBuf (e : Device) (b : Buf) (m : Memory) : Device :=
  match b with
  | .one => { e with buf1 := m }
  | .two => { e with buf2 := m }

/-- `main[p][i]` (60_exceptions.md R256). -/
def Device.mainByte (e : Device) (p i : Nat) : Byte := Memory.read e.main (p * e.pageBytes + i)

/-- `buf[b][i]` (60_exceptions.md R256). -/
def Device.bufByte (e : Device) (b : Buf) (i : Nat) : Byte := Memory.read (e.buf b) i

/-- E's parameters fit the configuration's tables (60_exceptions.md R256, R257), and its density code
is the one the spec gives, for the two densities it gives one (R258). -/
def Device.matches (e : Device) (c : Config) : Bool :=
  c.wDf.lookup e.density == some e.pageBits &&
    Machine.pageBits c e.density e.psize == some e.addrBits &&
    c.sLog2.lookup e.density == some e.sectorLog &&
    (e.density != 16 || e.statusCode == 0xB) && (e.density != 32 || e.statusCode == 0xD)

/-! ## Commands -/

/-- The opcodes E knows as commands (60_exceptions.md R257, R260 to R265): those of buffer 2 and of
the fastest array read only where the device model has them (R256, 41_read.md R154; log 20). -/
def devCommands (c : Config) : List (Byte × DevCmd) :=
  [(c.opc.readFc0, .arrayRead .fc0), (c.opc.readFc1, .arrayRead .fc1),
    (c.opc.readFc2, .arrayRead .fc2), (c.opc.pagerd, .pageRead),
    (c.opc.bufrdLow1, .bufRead false .one), (c.opc.bufrdHigh1, .bufRead true .one),
    (c.opc.bufwr1, .bufWrite .one), (c.opc.wtbE1, .wtbE .one), (c.opc.wtbN, .wtbN),
    (c.opc.wrbackE1, .wrbackE .one), (c.opc.wrbackN1, .wrbackN .one), (c.opc.copy1, .copy .one),
    (c.opc.cmp1, .cmp .one), (c.opc.erasePage, .erasePage), (c.opc.eraseBlock, .eraseBlock),
    (c.opc.eraseSector, .eraseSector)] ++
  (if c.cap.hasHighFrequencyRead then [(c.opc.readFc3, DevCmd.arrayRead .fc3)] else []) ++
  (if c.cap.hasSecondBuffer then
    [(c.opc.bufrdLow2, DevCmd.bufRead false .two), (c.opc.bufrdHigh2, .bufRead true .two),
      (c.opc.bufwr2, .bufWrite .two), (c.opc.wtbE2, .wtbE .two), (c.opc.wrbackE2, .wrbackE .two),
      (c.opc.wrbackN2, .wrbackN .two), (c.opc.copy2, .copy .two), (c.opc.cmp2, .cmp .two)]
  else [])

/-- `DUMMY` of the command, the function DFCF is configured with (60_exceptions.md R256). -/
def devDummy (c : Config) : DevCmd → Nat
  | .arrayRead .fc0 => c.dummy.readFc0.toNat
  | .arrayRead .fc1 => c.dummy.readFc1.toNat
  | .arrayRead .fc2 => c.dummy.readFc2.toNat
  | .arrayRead .fc3 => c.dummy.readFc3.toNat
  | .pageRead => c.dummy.pagerd.toNat
  | .bufRead false .one => c.dummy.bufrdLow1.toNat
  | .bufRead false .two => c.dummy.bufrdLow2.toNat
  | .bufRead true .one => c.dummy.bufrdHigh1.toNat
  | .bufRead true .two => c.dummy.bufrdHigh2.toNat
  | .bufWrite _ | .wtbE _ | .wtbN | .wrbackE _ | .wrbackN _ | .copy _ | .cmp _ | .erasePage
  | .eraseBlock | .eraseSector | .eraseChip => 0

/-- `BUSY_POLLS(c)` (60_exceptions.md R256), 0 where not listed. -/
def Device.polls (e : Device) (cmd : DevCmd) : Nat := (e.busyPolls.lookup cmd).getD 0

/-! ## Status bytes -/

/-- E's status byte 1 (60_exceptions.md R258): ready, compare, density code, 0, page size. -/
def Device.status1 (e : Device) : Byte :=
  BitVec.ofBool (e.busy == 0) ++ BitVec.ofBool e.comp ++ e.statusCode ++ 0#1 ++
    BitVec.ofBool e.psize

/-- E's status byte 2 (60_exceptions.md R258): ready in bit 7, the error bit in bit 5, `0x08`. -/
def Device.status2 (e : Device) : Byte :=
  BitVec.ofBool (e.busy == 0) ++ 0#1 ++ BitVec.ofBool e.epe ++ 0x08#5

/-! ## The work of a command, done at the `SEL(0)` that ends its transaction -/

/-- Every position of a page (60_exceptions.md R256). -/
def Device.positions (e : Device) : List Nat := List.range e.pageBytes

/-- `main[p][i] <- buf[b][i]` for every `i` (60_exceptions.md R262, R263). -/
def Device.program (e : Device) (p : Nat) (b : Buf) : Device :=
  { e with main := Memory.writeEach e.main (p * e.pageBytes) (e.bufByte b) e.positions }

/-- `main[p][i] <- main[p][i] AND buf[b][i]` for every `i` of the list (60_exceptions.md R262,
R263). -/
def Device.programAnd (e : Device) (p : Nat) (b : Buf) (is : List Nat) : Device :=
  { e with main :=
      Memory.writeEach e.main (p * e.pageBytes) (fun i => e.mainByte p i &&& e.bufByte b i) is }

/-- `buf[b][i] <- main[p][i]` for every `i` (60_exceptions.md R264). -/
def Device.copyPage (e : Device) (p : Nat) (b : Buf) : Device :=
  e.setBuf b (Memory.writeEach (e.buf b) 0 (e.mainByte p) e.positions)

/-- `main[p][i] != buf[b][i]` for some `i` (60_exceptions.md R264). -/
def Device.differs (e : Device) (p : Nat) (b : Buf) : Bool :=
  e.positions.any fun i => e.mainByte p i != e.bufByte b i

/-- Erases `k` pages from page `p` on (60_exceptions.md R265). -/
def Device.erasePages (e : Device) (p k : Nat) : Device :=
  { e with main := Memory.erase e.main (p * e.pageBytes) (k * e.pageBytes) }

/-- `E.epe <- 0` and `E.busy <- BUSY_POLLS(c)` of a program or erase command. -/
def Device.startCycle (e : Device) (cmd : DevCmd) : Device :=
  { e with epe := false, busy := e.polls cmd }

/-- The work of a complete command (60_exceptions.md R260 to R265). -/
def Device.work (e : Device) (cmd : DevCmd) (p : Nat) (written : List Nat) : Device :=
  match cmd with
  | .arrayRead _ | .pageRead | .bufRead _ _ | .bufWrite _ => e
  | .wtbE b | .wrbackE b => (e.program p b).startCycle cmd
  | .wtbN => (e.programAnd p .one written).startCycle cmd
  | .wrbackN b => (e.programAnd p b e.positions).startCycle cmd
  | .copy b => { e.copyPage p b with busy := e.polls cmd }
  | .cmp b => { e with comp := e.differs p b, busy := e.polls cmd }
  | .erasePage => (e.erasePages p 1).startCycle cmd
  | .eraseBlock => (e.erasePages (p - p % 8) 8).startCycle cmd
  | .eraseSector => (e.erasePages ((p >>> e.sectorLog) <<< e.sectorLog) (2 ^ e.sectorLog)).startCycle cmd
  | .eraseChip => (e.erasePages 0 (2 ^ e.pageBits)).startCycle cmd

/-! ## The two bus events, as E sees them -/

/-- `SEL(v)` (60_exceptions.md R257, R258). -/
def Device.onSel (e : Device) (v : Bool) : Device :=
  if v then { e with xact := .opcode }
  else
    match e.xact with
    | .body cmd p _ _ written => { e.work cmd p written with xact := .deselected }
    | .magicDone => { e.work .eraseChip 0 [] with xact := .deselected }
    | .status _ => { e with busy := e.busy - 1, xact := .deselected }
    | .deselected | .opcode | .addr _ _ | .magic _ | .jedec _ | .unknown | .ignored _ =>
      { e with xact := .deselected }

/-- A command begins; while E is busy it is ignored (60_exceptions.md R257), its `frame` further
opcode and address bytes too. -/
def Device.begin (e : Device) (frame : Nat) (x : Xact) : Device :=
  { e with xact := if 0 < e.busy then .ignored frame else x }

/-- What the opcode byte starts (60_exceptions.md R257 to R259). -/
def Device.onOpcode (e : Device) (c : Config) (o : Byte) : Device :=
  if o = c.opc.status then { e with xact := .status false }
  else if o = c.opc.jedec then e.begin 0 (.jedec 0)
  else
    match (devCommands c).lookup o with
    | some cmd => e.begin 3 (.addr cmd [])
    | none =>
      if o = magicByte c.opc.magicEraseChip 3 then e.begin 3 (.magic [o])
      else { e with xact := .unknown }

/-- The frame is complete: `p` and `o` of the wire address (60_exceptions.md R257); an offset at or
beyond the page is reduced modulo `PAGE_BYTES` (R266). -/
def Device.onAddress (e : Device) (c : Config) (cmd : DevCmd) (w : Wire) : Device :=
  let B := offsetBits e.psize
  let p := (w.toNat >>> B) &&& mask e.addrBits
  let o := (w.toNat &&& mask B) % e.pageBytes
  { e with xact := .body cmd p o (devDummy c cmd) [] }

/-- The next position of the continuous read (60_exceptions.md R260): the next byte of the page,
then byte 0 of the next page, after the last page byte 0 of page 0. -/
def Device.nextArray (e : Device) (p o : Nat) : Nat × Nat :=
  if o + 1 < e.pageBytes then (p, o + 1) else ((p + 1) % 2 ^ e.pageBits, 0)

/-- The next position inside a page or buffer, wrapping (60_exceptions.md R260, R261). -/
def Device.nextWrap (e : Device) (o : Nat) : Nat := (o + 1) % e.pageBytes

/-- A payload byte goes into buffer `b` (60_exceptions.md R261, R262). -/
def Device.onPayload (e : Device) (cmd : DevCmd) (b : Buf) (p o : Nat) (written : List Nat)
    (v : Byte) : Device :=
  { e.setBuf b (Memory.write (e.buf b) o v) with
    xact := .body cmd p (e.nextWrap o) 0 (written ++ [o]) }

/-- A byte after the frame: E's answer and E afterwards (60_exceptions.md R260 to R262, R266).
`free` is the answer where E's rules give none (log 18). -/
def Device.onBody (e : Device) (cmd : DevCmd) (p o skip : Nat) (written : List Nat) (v free : Byte) :
    Byte × Device :=
  match cmd with
  | .arrayRead _ =>
    if 0 < skip then (0xFF, { e with xact := .body cmd p o (skip - 1) written })
    else (e.mainByte p o,
      { e with xact := .body cmd (e.nextArray p o).1 (e.nextArray p o).2 0 written })
  | .pageRead =>
    if 0 < skip then (0xFF, { e with xact := .body cmd p o (skip - 1) written })
    else (e.mainByte p o, { e with xact := .body cmd p (e.nextWrap o) 0 written })
  | .bufRead _ b =>
    if 0 < skip then (0xFF, { e with xact := .body cmd p o (skip - 1) written })
    else (e.bufByte b o, { e with xact := .body cmd p (e.nextWrap o) 0 written })
  | .bufWrite b | .wtbE b => (free, e.onPayload cmd b p o written v)
  | .wtbN => (free, e.onPayload cmd .one p o written v)
  | .wrbackE _ | .wrbackN _ | .copy _ | .cmp _ | .erasePage | .eraseBlock | .eraseSector
  | .eraseChip => (free, e)

/-- A byte of the magic sequence (60_exceptions.md R265: all four must match, otherwise ignored). -/
def Device.onMagic (e : Device) (c : Config) (got : List Byte) (v : Byte) : Device :=
  let got := got ++ [v]
  if got.length < 4 then { e with xact := .magic got }
  else if got = frameM4 c.opc.magicEraseChip then { e with xact := .magicDone }
  else { e with xact := .unknown }

/-- One transfer: E's answer and E afterwards (60_exceptions.md R257 to R266). -/
def Device.onXfer (e : Device) (c : Config) (v free : Byte) : Byte × Device :=
  match e.xact with
  | .deselected => (free, e)
  | .opcode => (0xFF, e.onOpcode c v)
  | .addr cmd [b2, b1] => (0xFF, e.onAddress c cmd (b2 ++ b1 ++ v))
  | .addr cmd got => (0xFF, { e with xact := .addr cmd (got ++ [v]) })
  | .body cmd p o skip written => e.onBody cmd p o skip written v free
  | .magic got => (0xFF, e.onMagic c got v)
  | .magicDone => (free, e)
  | .status false => (e.status1, { e with xact := .status true })
  | .status true => (e.status2, { e with xact := .status false })
  | .jedec 0 => (e.mfr, { e with xact := .jedec 1 })
  | .jedec 1 => (e.id0, { e with xact := .jedec 2 })
  | .jedec 2 => (e.id1, { e with xact := .jedec 3 })
  | .jedec k => (0x00, { e with xact := .jedec k })
  | .unknown => (0xFF, e)
  | .ignored 0 => (free, e)
  | .ignored (k + 1) => (0xFF, { e with xact := .ignored k })

/-! ## The link -/

/-- The byte the other side answers to a transfer (40_primitives.md R122). -/
def Link.answer (l : Link) (c : Config) (v free : Byte) : Byte :=
  match l with
  | .openLink [] => free
  | .openLink (b :: _) => b
  | .device e => (e.onXfer c v free).1

/-- The link after a transfer. -/
def Link.onXfer (l : Link) (c : Config) (v free : Byte) : Link :=
  match l with
  | .openLink answers => .openLink answers.tail
  | .device e => .device (e.onXfer c v free).2

/-- The link after `SEL(v)`. -/
def Link.onSel (l : Link) (v : Bool) : Link :=
  match l with
  | .openLink answers => .openLink answers
  | .device e => .device (e.onSel v)

/-- The link after a reset of DFCF in mid-operation: nothing is known of the device any more
(70_reset_and_hazards.md R281; log 14). -/
def Link.unconstrained : Link := .openLink []

end Sys2Proof.Machine
end

