-- ==== Sys2Proof/Machine/Flags.lean ====
section
/-! DEFINITION. The flag-like values of DFCF (10_state.md R40): the fields of a status snapshot
(R32, R33), the readiness state (R30), and the density decode (45_ident_init.md R211). DFCF has no
arithmetic flags. -/

namespace Sys2Proof.Machine

/-- `sr1[RDY_BIT]` (10_state.md R32). -/
def readyBit (c : Config) (sr1 : Byte) : Bool := sr1.getLsbD c.rdyBit.val

/-- `sr1[COMP_BIT]` (10_state.md R32): true = the compared buffer and page differ. -/
def compareBit (c : Config) (sr1 : Byte) : Bool := sr1.getLsbD c.compBit.val

/-- `sr1[PROT_BIT]` (10_state.md R32): read by no operation (20_memory.md R63). -/
def protectBit (c : Config) (sr1 : Byte) : Bool := sr1.getLsbD c.protBit.val

/-- `sr1[PSIZE_BIT]`, bit 0 (10_state.md R32): true = power-of-2 pages. -/
def pageSizeBit (sr1 : Byte) : Bool := sr1.getLsbD Config.psizeBit

/-- `sr2[EPE_BIT]` (10_state.md R33): true = the previous program or erase cycle failed. -/
def errorBit (c : Config) (sr2 : Byte) : Bool := sr2.getLsbD c.epeBit.val

/-- What a snapshot shows of readiness (40_primitives.md R127). -/
def readinessOf (c : Config) (sr1 : Byte) : Readiness :=
  if readyBit c sr1 then .ready else .busy

/-- The bit a status query returns. -/
def queryBit (c : Config) (q : StatusBit) (sr1 sr2 : Byte) : Bool :=
  match q with
  | .rdy => readyBit c sr1
  | .comp => compareBit c sr1
  | .epe => errorBit c sr2

/-- `density_decode(d0)` (45_ident_init.md R211): the entry of `DENSITY_TABLE` at `d0[4:0]`;
`none` = invalid. -/
def densityDecode (c : Config) (d0 : Byte) : Option Byte :=
  match c.densityTable[(d0.extractLsb' 0 5).toNat]? with
  | some d => if d = 0 then none else some d
  | none => none

end Sys2Proof.Machine
end

