-- ==== Sys2Proof/Machine/Ops.lean ====
section
/-! DEFINITION. The shared operations (40_primitives.md): the two bus events, the entry checks,
starting an operation, delivering an outcome (which is also how an error is raised: 60_exceptions.md
R249), and the bodies the instruction rules share. -/

namespace Sys2Proof.Machine

/-! ## Bus events -/

/-- `SEL(v)` (40_primitives.md R120). -/
def State.select (s : State) (v : Bool) : State :=
  { s with sel := v, trace := s.trace ++ [.sel v], link := s.link.onSel v }

/-- The free byte of the next transfer (log 7). -/
def State.freeByte (s : State) (o : Byte) (fc : FreqClass) : Byte :=
  Config.freeAnswer s.trace o fc

/-- The byte `XFER(o, fc)` yields (40_primitives.md R121, R122). -/
def State.answer (s : State) (o : Byte) (fc : FreqClass) : Byte :=
  s.link.answer s.cfg o (s.freeByte o fc)

/-- The state after `XFER(o, fc)` (40_primitives.md R121). -/
def State.xfer (s : State) (o : Byte) (fc : FreqClass) : State :=
  { s with
    trace := s.trace ++ [.xfer o fc (s.answer o fc)]
    link := s.link.onXfer s.cfg o (s.freeByte o fc) }

/-! ## Outcomes -/

/-- Delivers an outcome to the host without touching the sequencer: how `raise` and the operations
with no bus event end, which stay in `IDLE` (00_scope.md R13, 40_primitives.md R131). -/
def State.report (s : State) (o : OpOutcome) : State :=
  { s with delivered := s.delivered ++ [⟨o, []⟩] }

/-- The end of an operation: back to `IDLE`, the outcome and the bytes read delivered, the request
gone (40_primitives.md R133, 60_exceptions.md R249). -/
def State.conclude (s : State) (o : OpOutcome) (bytes : List Byte) : State :=
  { s with phase := .idle, job := none, delivered := s.delivered ++ [⟨o, bytes⟩] }

/-! ## Entry checks -/

/-- `GATE(c)` (40_primitives.md R129). -/
def gate (c : Bool) (s : State) (k : Result) : Result :=
  if c then k else .next (s.report .unsupported)

/-- `NEED_INIT()` (40_primitives.md R130). -/
def needInit (s : State) (k : Result) : Result :=
  if s.valid then k else .next (s.report .notInitialised)

/-- An operation on a wire address; the codec has none when the density is outside the tables
(log 10). -/
def withWire (w : Option Wire) (k : Wire → Result) : Result :=
  match w with
  | some w => k w
  | none => .fault .addressingUndefined

/-! ## Starting an operation -/

/-- The number of transfers of a data phase (30_encoding.md R99). -/
def DataPhase.count : DataPhase → Len
  | .none => 0
  | .read n => n
  | .payload data => BitVec.ofNat 32 data.length
  | .snapshot => 2
  | .ident => 3

/-- What `cnt` holds when the frame has been sent: the dummy transfers first, then the data. -/
def Job.firstCount (j : Job) : Len := if j.dummy = 0 then j.data.count else j.dummy

/-- Loads `hdr`, `cnt`, `fc` and goes to `SEL_ON` (40_primitives.md R131, rows IDLE and SEL_OFF). -/
def State.load (s : State) (frame : List Byte) (fc : FreqClass) (j : Job) : State :=
  { s with phase := .selOn, hdr := frame, cnt := j.firstCount, fc := fc, job := some j, out := [] }

/-- A request passed its checks: the operation starts (40_primitives.md R131, row IDLE). -/
def start (s : State) (frame : List Byte) (fc : FreqClass) (j : Job) : Result :=
  .next (s.load frame fc j)

/-! ## Shared bodies -/

/-- `READ_COMMON(opc, w, fc, dmy, n)` (41_read.md R150). -/
def readCommon (s : State) (opc : Byte) (w : Wire) (fc : FreqClass) (dmy : Len) (n : Len) : Result :=
  start s (frameOA opc w) fc
    { dummy := dmy, data := .read n, marksBusy := false, finish := .deliver (.done n) }

/-- `PAYLOAD(opc, w, data); return Done(n)` of a buffer write (42_write.md R170, R171). -/
def bufferWrite (s : State) (opc : Byte) (w : Wire) (data : List Byte) : Result :=
  start s (frameOA opc w) s.cfg.fcCmd
    { dummy := 0, data := .payload data, marksBusy := false,
      finish := .deliver (.done (BitVec.ofNat 32 data.length)) }

/-- `PAYLOAD(opc, w, data); FINISH_WRITE(Done(n))` of a page program (42_write.md R170, R173). -/
def programThrough (s : State) (opc : Byte) (w : Wire) (data : List Byte) : Result :=
  start s (frameOA opc w) s.cfg.fcCmd
    { dummy := 0, data := .payload data, marksBusy := true,
      finish := .poll (.done (BitVec.ofNat 32 data.length)) }

/-- `PAYLOAD(opc, w, []); FINISH_WRITE(Ok)` of a writeback or an addressed erase (42_write.md R170,
44_erase.md R200). -/
def command (s : State) (opc : Byte) (w : Wire) : Result :=
  start s (frameOA opc w) s.cfg.fcCmd
    { dummy := 0, data := .none, marksBusy := true, finish := .poll .ok }

/-- `ISSUE(opc, w)` of COPY.b and CMP.b (43_copy_compare.md R190). -/
def issue (s : State) (opc : Byte) (w : Wire) : Result :=
  start s (frameOA opc w) s.cfg.fcCmd
    { dummy := 0, data := .none, marksBusy := true, finish := .deliver .ok }

/-- The transaction of a snapshot (40_primitives.md R127, R131), ended by `f`. -/
def snapshotJob (f : Finish) : Job :=
  { dummy := 0, data := .snapshot, marksBusy := false, finish := f }

/-- `SNAPSHOT()` as an operation of its own (46_status.md R220). -/
def snapshot (s : State) (f : Finish) : Result :=
  start s (frameO s.cfg.opc.status) s.cfg.fcCmd (snapshotJob f)

/-- The identification transaction (45_ident_init.md R210), ended by `f`. -/
def identification (s : State) (f : Finish) : Result :=
  start s (frameO s.cfg.opc.jedec) s.cfg.fcCmd
    { dummy := 0, data := .ident, marksBusy := false, finish := f }

end Sys2Proof.Machine
end

