-- ==== Sys2Proof/Machine/CopyCompare.lean ====
section
/-! DEFINITION. Copy, compare and the compare result (43_copy_compare.md R190 to R195). -/

namespace Sys2Proof.Machine

/-- `COPY.1 a` (43_copy_compare.md R191). -/
def execCopy1 (a : Addr) (s : State) : Result :=
  needInit s <| withWire (s.pageWire a) fun w => issue s s.cfg.opc.copy1 w

/-- `COPY.2 a` (43_copy_compare.md R192), gated by `CAP.has_second_buffer`. -/
def execCopy2 (a : Addr) (s : State) : Result :=
  gate s.cfg.cap.hasSecondBuffer s <| needInit s <| withWire (s.pageWire a) fun w =>
    issue s s.cfg.opc.copy2 w

/-- `CMP.1 a` (43_copy_compare.md R193). -/
def execCmp1 (a : Addr) (s : State) : Result :=
  needInit s <| withWire (s.pageWire a) fun w => issue s s.cfg.opc.cmp1 w

/-- `CMP.2 a` (43_copy_compare.md R194), gated by `CAP.has_second_buffer`. -/
def execCmp2 (a : Addr) (s : State) : Result :=
  gate s.cfg.cap.hasSecondBuffer s <| needInit s <| withWire (s.pageWire a) fun w =>
    issue s s.cfg.opc.cmp2 w

/-- `CMPRES` (43_copy_compare.md R195): no gate, no `NEED_INIT`, no wait. -/
def execCmpres (s : State) : Result := snapshot s (.query .comp)

end Sys2Proof.Machine
end

