-- ==== Sys2Proof/Machine/Erase.lean ====
section
/-! DEFINITION. The erase family (44_erase.md R200 to R204). -/

namespace Sys2Proof.Machine

/-- `ERASE.PAGE a` (44_erase.md R201). -/
def execErasePage (a : Addr) (s : State) : Result :=
  needInit s <| withWire (s.pageWire a) fun w => command s s.cfg.opc.erasePage w

/-- `ERASE.BLOCK a` (44_erase.md R202). -/
def execEraseBlock (a : Addr) (s : State) : Result :=
  needInit s <| withWire (s.blockWire a) fun w => command s s.cfg.opc.eraseBlock w

/-- `ERASE.SECTOR a` (44_erase.md R203). -/
def execEraseSector (a : Addr) (s : State) : Result :=
  needInit s <| withWire (s.sectorWire a) fun w => command s s.cfg.opc.eraseSector w

/-- `ERASE.CHIP` (44_erase.md R204): the magic sequence, no address, no `NEED_INIT`. -/
def execEraseChip (s : State) : Result :=
  start s (frameM4 s.cfg.opc.magicEraseChip) s.cfg.fcCmd
    { dummy := 0, data := .none, marksBusy := true, finish := .poll .ok }

end Sys2Proof.Machine
end

