-- ==== Sys2Proof/Machine/IdentInit.lean ====
section
/-! DEFINITION. Identification, initialisation, teardown (45_ident_init.md R210 to R213). What
follows the transactions is in Machine/Sequencer.lean. -/

namespace Sys2Proof.Machine

/-- `IDENTIFY` (45_ident_init.md R210). -/
def execIdentify (s : State) : Result := identification s .identify

/-- `INIT` (45_ident_init.md R212): `VALID <- 0`, then the identification transaction. -/
def execInit (s : State) : Result := identification { s with valid := false } .initIdent

/-- `DEINIT` (45_ident_init.md R213): no bus event, `VALID <- 0`, outcome `Ok`. -/
def execDeinit (s : State) : Result := .next ({ s with valid := false }.report .ok)

end Sys2Proof.Machine
end

