-- ==== Sys2Proof/Machine/Read.lean ====
section
/-! DEFINITION. The read family (41_read.md R150 to R159). -/

namespace Sys2Proof.Machine

/-- `READ.FC0 a, n` (41_read.md R151). -/
def execReadFc0 (a : Addr) (n : Len) (s : State) : Result :=
  needInit s <| withWire (s.fullWire a) fun w =>
    readCommon s s.cfg.opc.readFc0 w .fc0 s.cfg.dummy.readFc0 n

/-- `READ.FC1 a, n` (41_read.md R152). -/
def execReadFc1 (a : Addr) (n : Len) (s : State) : Result :=
  needInit s <| withWire (s.fullWire a) fun w =>
    readCommon s s.cfg.opc.readFc1 w .fc1 s.cfg.dummy.readFc1 n

/-- `READ.FC2 a, n` (41_read.md R153). -/
def execReadFc2 (a : Addr) (n : Len) (s : State) : Result :=
  needInit s <| withWire (s.fullWire a) fun w =>
    readCommon s s.cfg.opc.readFc2 w .fc2 s.cfg.dummy.readFc2 n

/-- `READ.FC3 a, n` (41_read.md R154), gated by `CAP.has_high_frequency_read`. -/
def execReadFc3 (a : Addr) (n : Len) (s : State) : Result :=
  gate s.cfg.cap.hasHighFrequencyRead s <| needInit s <| withWire (s.fullWire a) fun w =>
    readCommon s s.cfg.opc.readFc3 w .fc3 s.cfg.dummy.readFc3 n

/-- `PAGERD a, n` (41_read.md R155). -/
def execPagerd (a : Addr) (n : Len) (s : State) : Result :=
  needInit s <| withWire (s.fullWire a) fun w =>
    readCommon s s.cfg.opc.pagerd w s.cfg.fcCmd s.cfg.dummy.pagerd n

/-- `BUFRD.LOW.1 a, n` (41_read.md R156). -/
def execBufrdLow1 (a : Addr) (n : Len) (s : State) : Result :=
  needInit s <| withWire (s.bufWire a) fun w =>
    readCommon s s.cfg.opc.bufrdLow1 w .fc1 s.cfg.dummy.bufrdLow1 n

/-- `BUFRD.LOW.2 a, n` (41_read.md R157), gated by `CAP.has_second_buffer`. -/
def execBufrdLow2 (a : Addr) (n : Len) (s : State) : Result :=
  gate s.cfg.cap.hasSecondBuffer s <| needInit s <| withWire (s.bufWire a) fun w =>
    readCommon s s.cfg.opc.bufrdLow2 w .fc1 s.cfg.dummy.bufrdLow2 n

/-- `BUFRD.HIGH.1 a, n` (41_read.md R158). -/
def execBufrdHigh1 (a : Addr) (n : Len) (s : State) : Result :=
  needInit s <| withWire (s.bufWire a) fun w =>
    readCommon s s.cfg.opc.bufrdHigh1 w .fc2 s.cfg.dummy.bufrdHigh1 n

/-- `BUFRD.HIGH.2 a, n` (41_read.md R159), gated by `CAP.has_second_buffer`. -/
def execBufrdHigh2 (a : Addr) (n : Len) (s : State) : Result :=
  gate s.cfg.cap.hasSecondBuffer s <| needInit s <| withWire (s.bufWire a) fun w =>
    readCommon s s.cfg.opc.bufrdHigh2 w .fc2 s.cfg.dummy.bufrdHigh2 n

end Sys2Proof.Machine
end

