-- ==== Sys2Proof/Machine/Status.lean ====
section
/-! DEFINITION. Status queries (46_status.md R220 to R224). What follows the snapshot is in
Machine/Sequencer.lean. -/

namespace Sys2Proof.Machine

/-- `READY` (46_status.md R221). -/
def execReady (s : State) : Result := snapshot s (.query .rdy)

/-- `PSM.REFRESH` (46_status.md R222). -/
def execPsmRefresh (s : State) : Result := snapshot s .refresh

/-- `PSM.CACHED` (46_status.md R223): no bus event. -/
def execPsmCached (s : State) : Result := needInit s (.next (s.report (.bit s.psm)))

/-- `EPE` (46_status.md R224). -/
def execEpe (s : State) : Result := snapshot s (.query .epe)

end Sys2Proof.Machine
end

