-- ==== Sys2Proof/Machine/Write.lean ====
section
/-! DEFINITION. The write family (42_write.md R170 to R179). -/

namespace Sys2Proof.Machine

/-- `BUFWR.1 a, data` (42_write.md R171). -/
def execBufwr1 (a : Addr) (data : List Byte) (s : State) : Result :=
  needInit s <| withWire (s.bufWire a) fun w => bufferWrite s s.cfg.opc.bufwr1 w data

/-- `BUFWR.2 a, data` (42_write.md R172), gated by `CAP.has_second_buffer`. -/
def execBufwr2 (a : Addr) (data : List Byte) (s : State) : Result :=
  gate s.cfg.cap.hasSecondBuffer s <| needInit s <| withWire (s.bufWire a) fun w =>
    bufferWrite s s.cfg.opc.bufwr2 w data

/-- `WTB.E.1 a, data` (42_write.md R173). -/
def execWtbE1 (a : Addr) (data : List Byte) (s : State) : Result :=
  needInit s <| withWire (s.fullWire a) fun w => programThrough s s.cfg.opc.wtbE1 w data

/-- `WTB.E.2 a, data` (42_write.md R174), gated by `CAP.has_second_buffer`. -/
def execWtbE2 (a : Addr) (data : List Byte) (s : State) : Result :=
  gate s.cfg.cap.hasSecondBuffer s <| needInit s <| withWire (s.fullWire a) fun w =>
    programThrough s s.cfg.opc.wtbE2 w data

/-- `WTB.N a, data` (42_write.md R175). -/
def execWtbN (a : Addr) (data : List Byte) (s : State) : Result :=
  needInit s <| withWire (s.fullWire a) fun w => programThrough s s.cfg.opc.wtbN w data

/-- `WRBACK.E.1 a` (42_write.md R176). -/
def execWrbackE1 (a : Addr) (s : State) : Result :=
  needInit s <| withWire (s.pageWire a) fun w => command s s.cfg.opc.wrbackE1 w

/-- `WRBACK.E.2 a` (42_write.md R177), gated by `CAP.has_second_buffer`. -/
def execWrbackE2 (a : Addr) (s : State) : Result :=
  gate s.cfg.cap.hasSecondBuffer s <| needInit s <| withWire (s.pageWire a) fun w =>
    command s s.cfg.opc.wrbackE2 w

/-- `WRBACK.N.1 a` (42_write.md R178). -/
def execWrbackN1 (a : Addr) (s : State) : Result :=
  needInit s <| withWire (s.pageWire a) fun w => command s s.cfg.opc.wrbackN1 w

/-- `WRBACK.N.2 a` (42_write.md R179), with an opcode of its own (30_encoding.md R95), gated by
`CAP.has_second_buffer`. -/
def execWrbackN2 (a : Addr) (s : State) : Result :=
  gate s.cfg.cap.hasSecondBuffer s <| needInit s <| withWire (s.pageWire a) fun w =>
    command s s.cfg.opc.wrbackN2 w

end Sys2Proof.Machine
end

