-- ==== Sys2Proof/Machine/Dispatch.lean ====
section
/-! DEFINITION. One arm per operation. -/

namespace Sys2Proof.Machine

/-- The IDLE row of 40_primitives.md R131: a request is accepted. -/
def exec (i : Instr) (s : State) : Host.Outcome State Fault Refusal :=
  match i with
  | .readFc0 a n => Sys2Proof.Machine.execReadFc0 a n s
  | .readFc1 a n => Sys2Proof.Machine.execReadFc1 a n s
  | .readFc2 a n => Sys2Proof.Machine.execReadFc2 a n s
  | .readFc3 a n => Sys2Proof.Machine.execReadFc3 a n s
  | .pagerd a n => Sys2Proof.Machine.execPagerd a n s
  | .bufrdLow1 a n => Sys2Proof.Machine.execBufrdLow1 a n s
  | .bufrdLow2 a n => Sys2Proof.Machine.execBufrdLow2 a n s
  | .bufrdHigh1 a n => Sys2Proof.Machine.execBufrdHigh1 a n s
  | .bufrdHigh2 a n => Sys2Proof.Machine.execBufrdHigh2 a n s
  | .bufwr1 a data => Sys2Proof.Machine.execBufwr1 a data s
  | .bufwr2 a data => Sys2Proof.Machine.execBufwr2 a data s
  | .wtbE1 a data => Sys2Proof.Machine.execWtbE1 a data s
  | .wtbE2 a data => Sys2Proof.Machine.execWtbE2 a data s
  | .wtbN a data => Sys2Proof.Machine.execWtbN a data s
  | .wrbackE1 a => Sys2Proof.Machine.execWrbackE1 a s
  | .wrbackE2 a => Sys2Proof.Machine.execWrbackE2 a s
  | .wrbackN1 a => Sys2Proof.Machine.execWrbackN1 a s
  | .wrbackN2 a => Sys2Proof.Machine.execWrbackN2 a s
  | .copy1 a => Sys2Proof.Machine.execCopy1 a s
  | .copy2 a => Sys2Proof.Machine.execCopy2 a s
  | .cmp1 a => Sys2Proof.Machine.execCmp1 a s
  | .cmp2 a => Sys2Proof.Machine.execCmp2 a s
  | .cmpres => Sys2Proof.Machine.execCmpres s
  | .erasePage a => Sys2Proof.Machine.execErasePage a s
  | .eraseBlock a => Sys2Proof.Machine.execEraseBlock a s
  | .eraseSector a => Sys2Proof.Machine.execEraseSector a s
  | .eraseChip => Sys2Proof.Machine.execEraseChip s
  | .identify => Sys2Proof.Machine.execIdentify s
  | .init => Sys2Proof.Machine.execInit s
  | .deinit => Sys2Proof.Machine.execDeinit s
  | .ready => Sys2Proof.Machine.execReady s
  | .psmRefresh => Sys2Proof.Machine.execPsmRefresh s
  | .psmCached => Sys2Proof.Machine.execPsmCached s
  | .epe => Sys2Proof.Machine.execEpe s

end Sys2Proof.Machine
end

