-- ==== Sys2Proof/Machine/Sequencer.lean ====
section
/-! DEFINITION. The sequencer: the rows of the micro-phase table of 40_primitives.md R131 after
IDLE, one bus event per micro-step, and reset (70_reset_and_hazards.md R280, R281). -/

namespace Sys2Proof.Machine

/-- The first phase of a data phase: `DIN(0)` or `DOUT(0)` when it has a transfer, else `SEL_OFF`. -/
def DataPhase.firstPhase (d : DataPhase) : Phase :=
  if d.count = 0 then .selOff
  else
    match d with
    | .payload _ => .dout 0
    | .read _ | .snapshot | .ident => .din 0
    | .none => .selOff

/-- The phase after the last header byte. -/
def Job.afterHeader (j : Job) : Phase := if j.dummy = 0 then j.data.firstPhase else .dmy 0

/-- Row `SEL_ON`: `SEL(1)`; `rs <- BUSY` for write-class, COPY.b and CMP.b (10_state.md R30). -/
def stepSelOn (j : Job) (s : State) : Result :=
  .next { s.select true with rs := if j.marksBusy then .busy else s.rs, phase := .hdr 0 }

/-- Row `HDR(i)`: one frame byte, answer discarded. -/
def stepHdr (j : Job) (i : Nat) (s : State) : Result :=
  match s.hdr with
  | [] => .fault .phaseOutsideTable
  | b :: rest =>
    .next { s.xfer b s.fc with
      hdr := rest, phase := if rest = [] then j.afterHeader else .hdr (i + 1) }

/-- Row `DMY(j)`: one filler byte, answer discarded. After the last one `cnt` takes the count of the
data phase. -/
def stepDmy (j : Job) (k : Nat) (s : State) : Result :=
  if s.cnt - 1 = 0 then
    .next { s.xfer s.cfg.fill s.fc with cnt := j.data.count, phase := j.data.firstPhase }
  else .next { s.xfer s.cfg.fill s.fc with cnt := s.cnt - 1, phase := .dmy (k + 1) }

/-- Where the answer of `DIN(k)` goes: `out[k]`, or `sr1`, `sr2` of a snapshot (R131). -/
def State.capture (s : State) (d : DataPhase) (k : Nat) (i : Byte) : State :=
  match d with
  | .snapshot => if k = 0 then { s with sr1 := i } else { s with sr2 := i }
  | .read _ | .ident => { s with out := s.out ++ [i] }
  | .none | .payload _ => s

/-- Row `DIN(k)`: one filler byte, answer captured. -/
def stepDin (j : Job) (k : Nat) (s : State) : Result :=
  .next { (s.xfer s.cfg.fill s.fc).capture j.data k (s.answer s.cfg.fill s.fc) with
    cnt := s.cnt - 1, phase := if s.cnt - 1 = 0 then .selOff else .din (k + 1) }

/-- Row `DOUT(k)`: the payload byte `data[k]`, answer discarded. -/
def stepDout (j : Job) (k : Nat) (s : State) : Result :=
  match j.data with
  | .payload data =>
    match data[k]? with
    | some b =>
      .next { s.xfer b s.fc with
        cnt := s.cnt - 1, phase := if s.cnt - 1 = 0 then .selOff else .dout (k + 1) }
    | none => .fault .phaseOutsideTable
  | .none | .read _ | .snapshot | .ident => .fault .phaseOutsideTable

/-- `rs` follows the snapshot just closed (40_primitives.md R127). -/
def State.observe (s : State) : State := { s with rs := readinessOf s.cfg s.sr1 }

/-- `x[PSM] <- sr1[PSIZE_BIT]` (46_status.md R222). -/
def State.refreshPsm (s : State) : State := { s with psm := pageSizeBit s.sr1 }

/-- `x[MFR] <- m; x[DID0] <- d0; x[DID1] <- d1` (45_ident_init.md R210). -/
def State.storeId (s : State) (m d0 d1 : Byte) : State :=
  { s with mfr := m, did0 := d0, did1 := d1 }

/-- IDENTIFY after its `SEL(0)` (45_ident_init.md R210). -/
def closeIdentify (s : State) : Result :=
  match s.out with
  | [m, d0, d1] =>
    match densityDecode s.cfg d0 with
    | none => .next ({ s.storeId m d0 d1 with valid := false }.conclude .invalidDensity [])
    | some d => .next ({ s.storeId m d0 d1 with dens := d }.conclude .ok [])
  | _ => .fault .phaseOutsideTable

/-- INIT after the identification transaction (45_ident_init.md R212): with a valid density the
snapshot follows. -/
def closeInitIdent (s : State) : Result :=
  match s.out with
  | [m, d0, d1] =>
    match densityDecode s.cfg d0 with
    | none => .next ({ s.storeId m d0 d1 with valid := false }.conclude .invalidDensity [])
    | some d =>
      .next ({ s.storeId m d0 d1 with dens := d }.load (frameO s.cfg.opc.status) s.cfg.fcCmd
        (snapshotJob .initStatus))
  | _ => .fault .phaseOutsideTable

/-- INIT after its status transaction (45_ident_init.md R212). -/
def closeInitStatus (s : State) : Result :=
  .next ({ s.observe.refreshPsm with valid := true }.conclude .ok [])

/-- PSM.REFRESH after its `SEL(0)` (46_status.md R222). -/
def closeRefresh (s : State) : Result :=
  .next (s.observe.refreshPsm.conclude (.bit (pageSizeBit s.sr1)) [])

/-- A status query after its `SEL(0)` (46_status.md R221, R224; 43_copy_compare.md R195). -/
def closeQuery (q : StatusBit) (s : State) : Result :=
  .next (s.observe.conclude (.bit (queryBit s.cfg q s.sr1 s.sr2)) [])

/-- Row `SEL_OFF`: `SEL(0)`, then the end of the operation, the poll loop, or INIT's second
transaction. -/
def stepSelOff (j : Job) (s : State) : Result :=
  match j.finish with
  | .deliver o => .next ((s.select false).conclude o s.out)
  | .poll _ => .next { s.select false with phase := .psOn }
  | .query q => closeQuery q (s.select false)
  | .refresh => closeRefresh (s.select false)
  | .identify => closeIdentify (s.select false)
  | .initIdent => closeInitIdent (s.select false)
  | .initStatus => closeInitStatus (s.select false)

/-- Row `PS_ON`. -/
def stepPsOn (s : State) : Result := .next { s.select true with phase := .psOpc }

/-- Row `PS_OPC`. -/
def stepPsOpc (s : State) : Result :=
  .next { s.xfer s.cfg.opc.status s.cfg.fcCmd with phase := .psB1 }

/-- Row `PS_B1`. -/
def stepPsB1 (s : State) : Result :=
  .next { s.xfer s.cfg.fill s.cfg.fcCmd with
    sr1 := s.answer s.cfg.fill s.cfg.fcCmd, phase := .psB2 }

/-- Row `PS_B2`. -/
def stepPsB2 (s : State) : Result :=
  .next { s.xfer s.cfg.fill s.cfg.fcCmd with
    sr2 := s.answer s.cfg.fill s.cfg.fcCmd, phase := .psOff }

/-- Row `PS_OFF`: `SEL(0)`; while busy the loop goes on (40_primitives.md R128, no bound: 60_exceptions.md
R245), once ready the error bit of the same snapshot decides (decision D23). -/
def stepPsOff (j : Job) (s : State) : Result :=
  match j.finish with
  | .poll o =>
    if readyBit s.cfg s.sr1 then
      .next ((s.select false).observe.conclude (if errorBit s.cfg s.sr2 then .fail else o) [])
    else .next { (s.select false).observe with phase := .psOn }
  | .deliver _ | .query _ | .refresh | .identify | .initIdent | .initStatus =>
    .fault .phaseOutsideTable

/-- One micro-step of the request being run (40_primitives.md R131). -/
def runJob (j : Job) (s : State) : Result :=
  match s.phase with
  | .idle => .fault .phaseOutsideTable
  | .selOn => stepSelOn j s
  | .hdr i => stepHdr j i s
  | .dmy k => stepDmy j k s
  | .din k => stepDin j k s
  | .dout k => stepDout j k s
  | .selOff => stepSelOff j s
  | .psOn => stepPsOn s
  | .psOpc => stepPsOpc s
  | .psB1 => stepPsB1 s
  | .psB2 => stepPsB2 s
  | .psOff => stepPsOff j s

/-- One micro-step outside `IDLE`. -/
def microStep (s : State) : Result :=
  match s.job with
  | some j => runJob j s
  | none => .fault .phaseOutsideTable

/-- Reset of DFCF (70_reset_and_hazards.md R280 to R282): an operation in progress is abandoned with
no outcome; the configuration, the host's offered requests, what was delivered and the trace so far
stay; the device is not reset, but after a reset in mid-operation nothing is known of it (log 14). -/
def State.applyReset (s : State) : State :=
  State.resetWith s.cfg s.requests
    (if s.phase = .idle then s.link.onSel false else Link.unconstrained) s.trace s.delivered

end Sys2Proof.Machine
end

