-- ==== Sys2Proof/Machine/Step.lean ====
section
/-! DEFINITION. The step of DFCF (40_primitives.md R131, R132): a reset, if the host asks for one;
else a micro-step of the operation in progress; else, in `IDLE`, the next offered request. -/

namespace Sys2Proof.Machine

/-- The request at the head of the host port is taken, decoded and accepted (40_primitives.md R131,
row IDLE; R132). -/
def fetch (s : State) : Result :=
  match s.requests with
  | [] => .refused .noRequest
  | r :: rest =>
    match decode r with
    | .error e => .refused (.unknownRequest e)
    | .ok i => exec i { s with requests := rest }

/-- One step of the machine. -/
def step (s : State) : Host.Outcome State Fault Refusal :=
  if s.resetReq then .next s.applyReset
  else if s.phase = .idle then fetch s
  else microStep s

/-- The host offers the request a table word stands for, so that the very next step runs it: first
on the port, the sequencer in `IDLE` (where alone a request is accepted) and no reset asked for. -/
def State.withFetchWord (s : State) (nbits w : Nat) : State :=
  { s with requests := tableRequest nbits w :: s.requests, phase := .idle, resetReq := false }

/-- The host offers a program: operations, run in order (30_encoding.md R101). -/
def State.offer (s : State) (is : List Instr) : State :=
  { s with requests := s.requests ++ is.map encode }

end Sys2Proof.Machine
end

