-- ==== Sys2Proof/Safety.lean ====
section
/-! DEFINITION. The terms statements are written in: runs of steps, what the bus carried, what an
operation needs, how an operation ends, the invariant of the machine, and clean runs. -/

namespace Sys2Proof.Machine

/-! ## Runs -/

/-- `k` steps, stopping at the first fault or refusal. -/
def stepN : Nat → State → Result
  | 0, s => .next s
  | k + 1, s =>
    match step s with
    | .next t => stepN k t
    | .fault r => .fault r
    | .refused r => .refused r

/-! ## What the bus carried -/

/-- A bus event without its answer: what DFCF sent. -/
inductive Sent
  | sel (v : Bool)
  | xfer (out : Byte) (fc : FreqClass)
  deriving DecidableEq, Repr

/-- The event without its answer. -/
def sentOf (es : List Event) : List Sent :=
  es.map fun e =>
    match e with
    | .sel v => .sel v
    | .xfer o fc _ => .xfer o fc

/-- The answered bytes of the transfers, in order. -/
def answersOf (es : List Event) : List Byte :=
  es.filterMap fun e =>
    match e with
    | .sel _ => none
    | .xfer _ _ i => some i

/-- A transaction (00_scope.md R14): `SEL(1)`, these bytes at this class, `SEL(0)`. -/
def transaction (fc : FreqClass) (bytes : List Byte) : List Sent :=
  .sel true :: (bytes.map fun b => .xfer b fc) ++ [.sel false]

/-- One snapshot (40_primitives.md R127). -/
def snapshotSent (c : Config) : List Sent :=
  transaction c.fcCmd [c.opc.status, c.fill, c.fill]

/-! ## What an operation needs -/

/-- The request is for a capability the configuration lacks (30_encoding.md R98, 60_exceptions.md
R241). -/
def missingCapability (c : Config) : Instr → Bool
  | .bufrdLow2 _ _ | .bufrdHigh2 _ _ | .bufwr2 _ _ | .wtbE2 _ _ | .wrbackE2 _ | .wrbackN2 _
  | .copy2 _ | .cmp2 _ => !c.cap.hasSecondBuffer
  | .readFc3 _ _ => !c.cap.hasHighFrequencyRead
  | .readFc0 _ _ | .readFc1 _ _ | .readFc2 _ _ | .pagerd _ _ | .bufrdLow1 _ _ | .bufrdHigh1 _ _
  | .bufwr1 _ _ | .wtbE1 _ _ | .wtbN _ _ | .wrbackE1 _ | .wrbackN1 _ | .copy1 _ | .cmp1 _
  | .cmpres | .erasePage _ | .eraseBlock _ | .eraseSector _ | .eraseChip | .identify | .init
  | .deinit | .ready | .psmRefresh | .psmCached | .epe => false

/-- The operations that raise `NotInitialised` when `VALID = 0` (60_exceptions.md R244). -/
def needsValid : Instr → Bool
  | .readFc0 _ _ | .readFc1 _ _ | .readFc2 _ _ | .readFc3 _ _ | .pagerd _ _ | .bufrdLow1 _ _
  | .bufrdLow2 _ _ | .bufrdHigh1 _ _ | .bufrdHigh2 _ _ | .bufwr1 _ _ | .bufwr2 _ _ | .wtbE1 _ _
  | .wtbE2 _ _ | .wtbN _ _ | .wrbackE1 _ | .wrbackE2 _ | .wrbackN1 _ | .wrbackN2 _ | .copy1 _
  | .copy2 _ | .cmp1 _ | .cmp2 _ | .erasePage _ | .eraseBlock _ | .eraseSector _
  | .psmCached => true
  | .cmpres | .eraseChip | .identify | .init | .deinit | .ready | .psmRefresh | .epe => false

/-! ## How an operation ends -/

/-- The Device registers (10_state.md R21 to R25) are the same in both states. -/
def SameDevice (s u : State) : Prop :=
  u.mfr = s.mfr ∧ u.did0 = s.did0 ∧ u.did1 = s.did1 ∧ u.dens = s.dens ∧ u.psm = s.psm ∧
    u.valid = s.valid

/-- `exec` accepts the request and the operation then runs to its end, one step per bus event: it
performs the events `new`, delivers one outcome with these bytes, and leaves `IDLE`, `sel = 0`, the
configuration and the host port as they were (40_primitives.md R133, 60_exceptions.md R249). -/
def Completes (i : Instr) (s : State) (new : List Event) (o : OpOutcome) (bytes : List Byte)
    (u : State) : Prop :=
  ∃ t, exec i s = .next t ∧ t.trace = s.trace ∧ stepN new.length t = .next u ∧
    u.trace = s.trace ++ new ∧ u.delivered = s.delivered ++ [⟨o, bytes⟩] ∧ u.phase = .idle ∧
    u.sel = false ∧ u.job = none ∧ u.cfg = s.cfg ∧ u.requests = s.requests ∧
    u.resetReq = s.resetReq

/-! ## The invariant -/

/-- `d` is a density the decode can yield (10_state.md R23). -/
def decodable (c : Config) (d : Byte) : Bool := decide (d ∈ c.densityTable) && decide (d ≠ 0)

/-- The request being run is one of those the IDLE row of 40_primitives.md R131 can latch. -/
def Job.ok (j : Job) : Bool :=
  match j.finish, j.data with
  | .deliver o, .read n => decide (o = .done n) && !j.marksBusy
  | .deliver o, .payload d =>
    decide (j.dummy = 0 ∧ d.length < 2 ^ 32 ∧ o = .done (BitVec.ofNat 32 d.length)) && !j.marksBusy
  | .deliver o, .none => decide (j.dummy = 0 ∧ o = .ok) && j.marksBusy
  | .poll o, .payload d =>
    decide (j.dummy = 0 ∧ d.length < 2 ^ 32 ∧ o = .done (BitVec.ofNat 32 d.length)) && j.marksBusy
  | .poll o, .none => decide (j.dummy = 0 ∧ o = .ok) && j.marksBusy
  | .query _, .snapshot | .refresh, .snapshot | .initStatus, .snapshot =>
    decide (j.dummy = 0) && !j.marksBusy
  | .identify, .ident | .initIdent, .ident => decide (j.dummy = 0) && !j.marksBusy
  | _, _ => false

/-- The operation polls (00_scope.md R14, write-class). -/
def Job.polls (j : Job) : Bool :=
  match j.finish with
  | .poll _ => true
  | .deliver _ | .query _ | .refresh | .identify | .initIdent | .initStatus => false

/-- The data phase has read-back transfers. -/
def DataPhase.readsBack : DataPhase → Bool
  | .read _ | .snapshot | .ident => true
  | .none | .payload _ => false

/-- What `out` holds after `k` transfers of the data phase. -/
def DataPhase.outLength (d : DataPhase) (k : Nat) : Nat :=
  match d with
  | .read _ | .ident => k
  | .none | .payload _ | .snapshot => 0

/-- A frame of 30_encoding.md R80 whose first byte may open a transaction (R96). -/
def frameOk (c : Config) (f : List Byte) : Bool :=
  match f with
  | [b] => decide (b ∈ c.opc.openers)
  | [b, _, _, _] => decide (b ∈ c.opc.openers)
  | _ => false

/-- `phase`, `sel`, `hdr`, `cnt`, `out` and the running request fit together as the table of
40_primitives.md R131 has them; in particular `sel = 0` in `IDLE` (10_state.md R29). -/
def seqOk (s : State) : Bool :=
  match s.phase, s.job with
  | .idle, none => !s.sel
  | .selOn, some j =>
    j.ok && !s.sel && frameOk s.cfg s.hdr && decide (s.cnt = j.firstCount) && decide (s.out = [])
  | .hdr 0, some j =>
    j.ok && s.sel && frameOk s.cfg s.hdr && decide (s.cnt = j.firstCount) && decide (s.out = [])
  | .hdr (i + 1), some j =>
    j.ok && s.sel && decide (s.hdr ≠ [] ∧ s.hdr.length + (i + 1) ≤ 4) &&
      decide (s.cnt = j.firstCount) && decide (s.out = [])
  | .dmy k, some j =>
    j.ok && s.sel && decide (s.cnt ≠ 0 ∧ k + s.cnt.toNat = j.dummy.toNat) && decide (s.out = [])
  | .din k, some j =>
    j.ok && s.sel && decide (s.cnt ≠ 0 ∧ k + s.cnt.toNat = j.data.count.toNat) &&
      j.data.readsBack && decide (s.out.length = j.data.outLength k)
  | .dout k, some j =>
    j.ok && s.sel && decide (s.cnt ≠ 0 ∧ k + s.cnt.toNat = j.data.count.toNat) &&
      !j.data.readsBack && decide (s.out = [])
  | .selOff, some j =>
    j.ok && s.sel && decide (s.out.length = j.data.outLength j.data.count.toNat)
  | .psOn, some j => j.ok && j.polls && !s.sel
  | .psOpc, some j | .psB1, some j | .psB2, some j | .psOff, some j => j.ok && j.polls && s.sel
  | _, _ => false

/-- INIT has decoded a valid density before its status transaction (45_ident_init.md R212). -/
def initOk (s : State) : Bool :=
  match s.job with
  | some j => if j.finish = .initStatus then decodable s.cfg s.dens else true
  | none => true

/-- E's arrays, if E is attached, are in canonical form. -/
def Link.ok (l : Link) : Prop :=
  match l with
  | .openLink _ => True
  | .device e => Memory.wf e.main ∧ Memory.wf e.buf1 ∧ Memory.wf e.buf2

/-- The invariant of the machine: an admissible configuration (00_scope.md R8), a decodable density
whenever `VALID = 1` (10_state.md R23), a sequencer state of the table (40_primitives.md R131), and
E's arrays in canonical form. -/
structure MachineInv (s : State) : Prop where
  admissible : s.cfg.admissible = true
  density : s.valid = true → decodable s.cfg s.dens = true
  sequencer : seqOk s = true
  initialising : initOk s = true
  link : Link.ok s.link

/-! ## Clean runs -/

/-- No operation met `NotInitialised` so far: a state reached through it refutes a claim that needs
a clean run (60_exceptions.md R244), and it is never cleared. -/
def Clean (s : State) : Prop := ∀ d ∈ s.delivered, d.outcome ≠ .notInitialised

end Sys2Proof.Machine
end

