-- ==== Sys2Proof/Certificates/Slice0/Obligations.lean ====
section
/-! DEFINITION. The statements for the provers. The tables at the top restate, from the rules of
41_read.md to 46_status.md, which frame, class, data and outcome each operation has; the statements
hold the model against them. -/

open Sys2Proof Sys2Proof.Machine

namespace Sys2Proof.Claims

/-! ## The operations by shape -/

/-- An operation with a data phase: its frame (none where the codec has no wire address), the class
of its command transaction, its dummy transfers, the payload it sends, and its success outcome. -/
structure Form where
  op : Instr
  frame : Option (List Byte)
  fc : FreqClass
  dummy : Nat
  payload : List Byte
  success : OpOutcome

/-- The nine reads (41_read.md R151 to R159; classes: 30_encoding.md R103). -/
def readForms (s : State) (a : Addr) (n : Len) : List Form :=
  let o := s.cfg.opc
  let d := s.cfg.dummy
  [⟨.readFc0 a n, (s.fullWire a).map (frameOA o.readFc0), .fc0, d.readFc0.toNat, [], .done n⟩,
    ⟨.readFc1 a n, (s.fullWire a).map (frameOA o.readFc1), .fc1, d.readFc1.toNat, [], .done n⟩,
    ⟨.readFc2 a n, (s.fullWire a).map (frameOA o.readFc2), .fc2, d.readFc2.toNat, [], .done n⟩,
    ⟨.readFc3 a n, (s.fullWire a).map (frameOA o.readFc3), .fc3, d.readFc3.toNat, [], .done n⟩,
    ⟨.pagerd a n, (s.fullWire a).map (frameOA o.pagerd), s.cfg.fcCmd, d.pagerd.toNat, [], .done n⟩,
    ⟨.bufrdLow1 a n, (s.bufWire a).map (frameOA o.bufrdLow1), .fc1, d.bufrdLow1.toNat, [], .done n⟩,
    ⟨.bufrdLow2 a n, (s.bufWire a).map (frameOA o.bufrdLow2), .fc1, d.bufrdLow2.toNat, [], .done n⟩,
    ⟨.bufrdHigh1 a n, (s.bufWire a).map (frameOA o.bufrdHigh1), .fc2, d.bufrdHigh1.toNat, [],
      .done n⟩,
    ⟨.bufrdHigh2 a n, (s.bufWire a).map (frameOA o.bufrdHigh2), .fc2, d.bufrdHigh2.toNat, [],
      .done n⟩]

/-- The two buffer writes (42_write.md R171, R172). -/
def bufferWriteForms (s : State) (a : Addr) (data : List Byte) : List Form :=
  let o := s.cfg.opc
  let n := BitVec.ofNat 32 data.length
  [⟨.bufwr1 a data, (s.bufWire a).map (frameOA o.bufwr1), s.cfg.fcCmd, 0, data, .done n⟩,
    ⟨.bufwr2 a data, (s.bufWire a).map (frameOA o.bufwr2), s.cfg.fcCmd, 0, data, .done n⟩]

/-- The eleven write-class operations (00_scope.md R14; 42_write.md R173 to R179, 44_erase.md R201
to R204). -/
def writeClassForms (s : State) (a : Addr) (data : List Byte) : List Form :=
  let o := s.cfg.opc
  let n := BitVec.ofNat 32 data.length
  [⟨.wtbE1 a data, (s.fullWire a).map (frameOA o.wtbE1), s.cfg.fcCmd, 0, data, .done n⟩,
    ⟨.wtbE2 a data, (s.fullWire a).map (frameOA o.wtbE2), s.cfg.fcCmd, 0, data, .done n⟩,
    ⟨.wtbN a data, (s.fullWire a).map (frameOA o.wtbN), s.cfg.fcCmd, 0, data, .done n⟩,
    ⟨.wrbackE1 a, (s.pageWire a).map (frameOA o.wrbackE1), s.cfg.fcCmd, 0, [], .ok⟩,
    ⟨.wrbackE2 a, (s.pageWire a).map (frameOA o.wrbackE2), s.cfg.fcCmd, 0, [], .ok⟩,
    ⟨.wrbackN1 a, (s.pageWire a).map (frameOA o.wrbackN1), s.cfg.fcCmd, 0, [], .ok⟩,
    ⟨.wrbackN2 a, (s.pageWire a).map (frameOA o.wrbackN2), s.cfg.fcCmd, 0, [], .ok⟩,
    ⟨.erasePage a, (s.pageWire a).map (frameOA o.erasePage), s.cfg.fcCmd, 0, [], .ok⟩,
    ⟨.eraseBlock a, (s.blockWire a).map (frameOA o.eraseBlock), s.cfg.fcCmd, 0, [], .ok⟩,
    ⟨.eraseSector a, (s.sectorWire a).map (frameOA o.eraseSector), s.cfg.fcCmd, 0, [], .ok⟩,
    ⟨.eraseChip, some (frameM4 o.magicEraseChip), s.cfg.fcCmd, 0, [], .ok⟩]

/-- Copy and compare (43_copy_compare.md R191 to R194). -/
def issueForms (s : State) (a : Addr) : List Form :=
  let o := s.cfg.opc
  [⟨.copy1 a, (s.pageWire a).map (frameOA o.copy1), s.cfg.fcCmd, 0, [], .ok⟩,
    ⟨.copy2 a, (s.pageWire a).map (frameOA o.copy2), s.cfg.fcCmd, 0, [], .ok⟩,
    ⟨.cmp1 a, (s.pageWire a).map (frameOA o.cmp1), s.cfg.fcCmd, 0, [], .ok⟩,
    ⟨.cmp2 a, (s.pageWire a).map (frameOA o.cmp2), s.cfg.fcCmd, 0, [], .ok⟩]

/-- The operation may run: its capability is present, and `VALID = 1` if it needs it (60_exceptions.md
R247). No reset is asked for while it runs. -/
def MayRun (s : State) (i : Instr) : Prop :=
  missingCapability s.cfg i = false ∧ (needsValid i = true → s.valid = true) ∧ s.resetReq = false

/-- One snapshot's answers: to the opcode, byte 1, byte 2. -/
abbrev Poll := Byte × Byte × Byte

/-- The answers of several snapshots in a row. -/
def pollAnswers (ps : List Poll) : List Byte := ps.flatMap fun p => [p.1, p.2.1, p.2.2]

/-- From `s` the sequencer sends exactly these events, one a step, and then stands behind the frame
with select asserted; every answer is discarded. -/
def Frames (s : State) (j : Job) (sent : List Sent) : Prop :=
  ∃ new u, stepN sent.length s = .next u ∧ u.trace = s.trace ++ new ∧ sentOf new = sent ∧
    u.sel = true ∧ u.phase = j.afterHeader ∧ u.out = s.out ∧ u.sr1 = s.sr1 ∧ u.sr2 = s.sr2 ∧
    u.delivered = s.delivered ∧ SameDevice s u

/-- The registers and records a micro-step of an operation in progress never writes. -/
def SameInputs (s t : State) : Prop :=
  t.cfg = s.cfg ∧ t.requests = s.requests ∧ t.resetReq = s.resetReq

/-- The state with other values in the registers that reset leaves without one (10_state.md R41). -/
def withDevice (s : State) (mfr did0 did1 dens : Byte) (psm : Bool) : State :=
  { s with mfr := mfr, did0 := did0, did1 := did1, dens := dens, psm := psm }

/-- What of a state depends on no register that reset leaves without a value: all of it once
`VALID = 1`. -/
def hideUnset (s : State) : State := if s.valid then s else withDevice s 0 0 0 0 false

/-- The state with other values of the capability fields that no rule reads, and another position of
the protection bit (10_state.md R32, R35). -/
def withUnread (s : State) (dual quad suspend : Bool) (density : Byte) (prot : Fin 8) : State :=
  { s with cfg := { s.cfg with
      cap := { s.cfg.cap with
        hasDualIo := dual, hasQuadIo := quad, hasSuspendResume := suspend, maxDensity := density }
      protBit := prot } }

/-- The state with other values in the scratch registers (10_state.md R31; `out` holds the captured
bytes of the running operation: log 13). -/
def withScratch (s : State) (hdr : List Byte) (cnt : Len) (fc : FreqClass) (sr1 sr2 : Byte)
    (out : List Byte) : State :=
  { s with hdr := hdr, cnt := cnt, fc := fc, sr1 := sr1, sr2 := sr2, out := out }

/-- The result with its next state changed. -/
def mapNext (f : State → State) : Result → Result
  | .next s => .next (f s)
  | .fault r => .fault r
  | .refused r => .refused r

/-! ## The simulated device E -/

/-- E after these bytes were clocked to it. -/
def feed (c : Config) (free : Byte) (e : Device) (bytes : List Byte) : Device :=
  bytes.foldl (fun e b => (e.onXfer c b free).2) e

/-- E's answers to these bytes. -/
def replies (c : Config) (free : Byte) : Device → List Byte → List Byte
  | _, [] => []
  | e, b :: bs => (e.onXfer c b free).1 :: replies c free (e.onXfer c b free).2 bs

/-- E after a whole transaction. -/
def exchange (c : Config) (free : Byte) (e : Device) (bytes : List Byte) : Device :=
  (feed c free (e.onSel true) bytes).onSel false

/-- E after `k` snapshots. -/
def polled (c : Config) (free : Byte) (e : Device) : Nat → Device
  | 0 => e
  | k + 1 => polled c free (exchange c free e [c.opc.status, c.fill, c.fill]) k

/-- E stands behind this DFCF: its parameters are those of the configuration's tables, the density
and page size are the ones DFCF holds, it is not selected and not busy, its arrays are in canonical
form. -/
def Attached (s : State) (e : Device) : Prop :=
  s.link = .device e ∧ e.matches s.cfg = true ∧ e.density = s.dens ∧ e.psize = s.psm ∧
    e.xact = .deselected ∧ e.busy = 0 ∧ Link.ok s.link

/-- Which command E takes from each frame, with the page and the position in the page or buffer of
the first byte (60_exceptions.md R257, R260 to R265). -/
def frameCommands (s : State) (e : Device) (B W S : Nat) (a : Addr) :
    List (Instr × List Byte × DevCmd × Nat × Nat) :=
  let o := s.cfg.opc
  let p := pageIndex B W a
  let i := offsetOf B a % e.pageBytes
  [(.readFc0 a 0, frameOA o.readFc0 (wireFull B W a), .arrayRead .fc0, p, i),
    (.readFc1 a 0, frameOA o.readFc1 (wireFull B W a), .arrayRead .fc1, p, i),
    (.readFc2 a 0, frameOA o.readFc2 (wireFull B W a), .arrayRead .fc2, p, i),
    (.readFc3 a 0, frameOA o.readFc3 (wireFull B W a), .arrayRead .fc3, p, i),
    (.pagerd a 0, frameOA o.pagerd (wireFull B W a), .pageRead, p, i),
    (.bufrdLow1 a 0, frameOA o.bufrdLow1 (wireBuf B a), .bufRead false .one, 0, i),
    (.bufrdLow2 a 0, frameOA o.bufrdLow2 (wireBuf B a), .bufRead false .two, 0, i),
    (.bufrdHigh1 a 0, frameOA o.bufrdHigh1 (wireBuf B a), .bufRead true .one, 0, i),
    (.bufrdHigh2 a 0, frameOA o.bufrdHigh2 (wireBuf B a), .bufRead true .two, 0, i),
    (.bufwr1 a [], frameOA o.bufwr1 (wireBuf B a), .bufWrite .one, 0, i),
    (.bufwr2 a [], frameOA o.bufwr2 (wireBuf B a), .bufWrite .two, 0, i),
    (.wtbE1 a [], frameOA o.wtbE1 (wireFull B W a), .wtbE .one, p, i),
    (.wtbE2 a [], frameOA o.wtbE2 (wireFull B W a), .wtbE .two, p, i),
    (.wtbN a [], frameOA o.wtbN (wireFull B W a), .wtbN, p, i),
    (.wrbackE1 a, frameOA o.wrbackE1 (wirePage B W a), .wrbackE .one, p, 0),
    (.wrbackE2 a, frameOA o.wrbackE2 (wirePage B W a), .wrbackE .two, p, 0),
    (.wrbackN1 a, frameOA o.wrbackN1 (wirePage B W a), .wrbackN .one, p, 0),
    (.wrbackN2 a, frameOA o.wrbackN2 (wirePage B W a), .wrbackN .two, p, 0),
    (.copy1 a, frameOA o.copy1 (wirePage B W a), .copy .one, p, 0),
    (.copy2 a, frameOA o.copy2 (wirePage B W a), .copy .two, p, 0),
    (.cmp1 a, frameOA o.cmp1 (wirePage B W a), .cmp .one, p, 0),
    (.cmp2 a, frameOA o.cmp2 (wirePage B W a), .cmp .two, p, 0),
    (.erasePage a, frameOA o.erasePage (wirePage B W a), .erasePage, p, 0),
    (.eraseBlock a, frameOA o.eraseBlock (wireBlock B W a), .eraseBlock, p / 8 * 8, 0),
    (.eraseSector a, frameOA o.eraseSector (wireSector B W S a), .eraseSector,
      p / 2 ^ S * 2 ^ S, 0)]

/-- The byte at position `i` of page `q` after the work of a command on page `p`, from the bytes
before it (60_exceptions.md R262 to R265). -/
def mainAfter (e : Device) (cmd : DevCmd) (p : Nat) (written : List Nat) (q i : Nat) : Byte :=
  let old := e.mainByte q i
  match cmd with
  | .arrayRead _ | .pageRead | .bufRead _ _ | .bufWrite _ | .copy _ | .cmp _ => old
  | .wtbE b | .wrbackE b => if q = p then e.bufByte b i else old
  | .wtbN => if q = p ∧ i ∈ written then old &&& e.bufByte .one i else old
  | .wrbackN b => if q = p then old &&& e.bufByte b i else old
  | .erasePage => if q = p then 0xFF else old
  | .eraseBlock => if q / 8 = p / 8 then 0xFF else old
  | .eraseSector => if q / 2 ^ e.sectorLog = p / 2 ^ e.sectorLog then 0xFF else old
  | .eraseChip => if q < 2 ^ e.pageBits then 0xFF else old

/-- The work of the command stores to main memory. -/
def storesMain : DevCmd → Bool
  | .arrayRead _ | .pageRead | .bufRead _ _ | .bufWrite _ | .copy _ | .cmp _ => false
  | .wtbE _ | .wtbN | .wrbackE _ | .wrbackN _ | .erasePage | .eraseBlock | .eraseSector
  | .eraseChip => true

/-- The work of the command starts a program or erase cycle, which clears the error bit. -/
def startsCycle (cmd : DevCmd) : Bool := storesMain cmd

/-- The command answers the bytes it reads. -/
def isRead : DevCmd → Bool
  | .arrayRead _ | .pageRead | .bufRead _ _ => true
  | .bufWrite _ | .wtbE _ | .wtbN | .wrbackE _ | .wrbackN _ | .copy _ | .cmp _ | .erasePage
  | .eraseBlock | .eraseSector | .eraseChip => false

/-- The payload of the command goes into this buffer. -/
def payloadBuf : DevCmd → Option Buf
  | .bufWrite b | .wtbE b => some b
  | .wtbN => some .one
  | .arrayRead _ | .pageRead | .bufRead _ _ | .wrbackE _ | .wrbackN _ | .copy _ | .cmp _
  | .erasePage | .eraseBlock | .eraseSector | .eraseChip => none

end Sys2Proof.Claims

open Sys2Proof.Claims

/-! ## Reset, fetch, decode -/

/-- 10_state.md R41, 70_reset_and_hazards.md R280, R282 (decision D29): what reset leaves, whatever was
in progress, and that the configuration stays; in `IDLE` the other side sees the `SEL(0)` and nothing
else, so a device that is not selected is as it was. The model's own choices: the next step takes the
reset (log 14), the offered requests stay offered (log 26), and after a reset in mid-operation the link
is open with no listed answer (log 14). -/
def Obligations.ResetStep : Prop :=
  ∀ s, s.resetReq = true → ∃ t, step s = .next t ∧ t.valid = false ∧ t.phase = .idle ∧
    t.sel = false ∧ t.rs = .ready ∧ t.job = none ∧ t.trace = s.trace ++ [.sel false] ∧
    t.delivered = s.delivered ∧ t.cfg = s.cfg ∧ t.requests = s.requests ∧ t.resetReq = false ∧
    (s.phase ≠ .idle → t.link = .openLink []) ∧
    (s.phase = .idle → t.link = s.link.onSel false ∧
      ∀ e, s.link = .device e → e.xact = .deselected → t.link = .device e)

/-- 10_state.md R41: `VALID`, `phase`, `sel`, `rs` of the state after reset, and its one event. -/
def Obligations.StateAfterReset : Prop :=
  State.reset.valid = false ∧ State.reset.phase = .idle ∧ State.reset.sel = false ∧
    State.reset.rs = .ready ∧ State.reset.trace = [.sel false] ∧ State.reset.delivered = [] ∧
    State.reset.cfg.admissible = true

/-- 40_primitives.md R131, R132: in `IDLE` the request at the head of the port is taken off it and
run by `exec`. -/
def Obligations.StepRunsTheOfferedRequest : Prop :=
  ∀ s r rest i, s.resetReq = false → s.phase = .idle → s.requests = r :: rest → decode r = .ok i →
    step s = exec i { s with requests := rest }

/-- 30_encoding.md R97, 60_exceptions.md R246, 40_primitives.md R132: bytes that are none of the 34
operations are refused, and with no request offered DFCF has no step. -/
def Obligations.NoStepWithoutARequest : Prop :=
  ∀ s, s.resetReq = false → s.phase = .idle →
    (s.requests = [] → step s = .refused .noRequest) ∧
    (∀ r rest e, s.requests = r :: rest → decode r = .error e →
      step s = .refused (.unknownRequest e))

/-- Table words of spec/opcode_table.json, written out: opcode bits 31:24, address bits 23:0 for
`F_OA`; 32 magic bits for `F_M4`; 8 opcode bits for `F_O`. The operand bytes beyond the table's bits
are the model's layout (log 1); that D7 reads as READY and 9F as IDENTIFY, of the operations that share
these frames, is the model's choice (log 2). -/
def Obligations.TableWordsDecode : Prop :=
  decodeTableWord 32 0x01000C05 = some (.readFc0 0xC05 0) ∧
    decodeTableWord 32 0xD2123456 = some (.pagerd 0x123456 0) ∧
    decodeTableWord 32 0x87000000 = some (.bufwr2 0 []) ∧
    decodeTableWord 32 0x89FFFFFF = some (.wrbackN2 0xFFFFFF) ∧
    decodeTableWord 32 0x61000001 = some (.cmp2 1) ∧
    decodeTableWord 32 0x7C080000 = some (.eraseSector 0x80000) ∧
    decodeTableWord 32 0xC794809A = some .eraseChip ∧
    decodeTableWord 8 0xD7 = some .ready ∧ decodeTableWord 8 0x9F = some .identify ∧
    decodeTableWord 32 0xC7948099 = none ∧ decodeTableWord 32 0x58000000 = none

/-- Every well-formed request is decoded back from its bytes, with every operand at every value (the
byte layout is the model's: log 1). -/
def Obligations.DecodeOfEncode : Prop :=
  ∀ i : Instr, i.wellFormed = true → decode (encode i) = .ok i

/-- Every byte string the decoder accepts is the encoding of a well-formed request: no two requests
share bytes and no bit is ignored. -/
def Obligations.EncodeOfDecode : Prop :=
  ∀ bs i, decode bs = .ok i → i.wellFormed = true ∧ encode i = bs

/-! ## The address codec -/

/-- 30_encoding.md R87: `decode(w) = w`, and the round trip of the codec for every density and both
page-size modes. -/
def Obligations.CodecRoundTrip : Prop :=
  ∀ (c : Config) (d : Byte) (m : Bool) (W : Nat), c.admissible = true → decodable c d = true →
    pageBits c d m = some W → ∀ B, B = offsetBits m →
    (∀ w : Wire, (wireDecode B w).toNat = w.toNat) ∧
    ∀ a : Addr, (wireDecode B (wireFull B W a)).toNat = a.toNat % (2 ^ W * 2 ^ B)

/-- 20_memory.md R61: the three fields of a wire address by mode, and the bits that are always 0. -/
def Obligations.WireAddressFields : Prop :=
  ∀ (c : Config) (d : Byte) (m : Bool) (W : Nat) (a : Addr), c.admissible = true →
    decodable c d = true → pageBits c d m = some W → ∀ B, B = offsetBits m →
    (m = false → B = 10 ∧ W ≤ 14) ∧ (m = true → B = 9 ∧ W ≤ 13) ∧
    (wireFull B W a).toNat / 2 ^ (W + B) = 0 ∧
    (wireFull B W a).toNat / 2 ^ B = a.toNat / 2 ^ B % 2 ^ W ∧
    (wireFull B W a).toNat % 2 ^ B = a.toNat % 2 ^ B ∧
    (m = true → (wireFull B W a).getLsbD 23 = false ∧ (wireFull B W a).getLsbD 22 = false)

/-- 30_encoding.md R88 to R91, 20_memory.md R57: the granular wire addresses are the full one rounded
down to a page, a block of 8 pages, a sector; a buffer's is the offset alone (decisions D13 to D16). -/
def Obligations.GranularWireAddresses : Prop :=
  ∀ (c : Config) (d : Byte) (m : Bool) (W S : Nat) (a : Addr), c.admissible = true →
    decodable c d = true → pageBits c d m = some W → c.sLog2.lookup d = some S →
    ∀ B, B = offsetBits m → ∀ x, x = a.toNat % 2 ^ (W + B) →
    (wireFull B W a).toNat = x ∧
    (wirePage B W a).toNat = x / 2 ^ B * 2 ^ B ∧
    (wireBlock B W a).toNat = x / 2 ^ (B + 3) * 2 ^ (B + 3) ∧
    (wireSector B W S a).toNat = x / 2 ^ (B + S) * 2 ^ (B + S) ∧
    (wireBuf B a).toNat = a.toNat % 2 ^ B

/-- 00_scope.md R8, 30_encoding.md R85, R90: with an admissible configuration and a density the
decode can yield, every operation on an address has a wire address, so the fault for a missing table
entry (log 10) does not arise. -/
def Obligations.WireAddressDefined : Prop :=
  ∀ (s : State) (a : Addr), s.cfg.admissible = true → decodable s.cfg s.dens = true →
    ∃ f p b k u, s.fullWire a = some f ∧ s.pageWire a = some p ∧ s.blockWire a = some b ∧
      s.sectorWire a = some k ∧ s.bufWire a = some u

/-! ## Bus events and framing -/

/-- 40_primitives.md R123, R124, R125 (and 20_memory.md R54): the three framing steps, as runs of the
sequencer from `SEL_ON`, one event a step (R131, decision D31). -/
def Obligations.FramingSteps : Prop :=
  ∀ (s : State) (j : Job), s.phase = .selOn → s.job = some j → s.resetReq = false →
    (∀ opc (w : Wire), s.hdr = frameOA opc w → Frames s j
      [.sel true, .xfer opc s.fc, .xfer (w.extractLsb 23 16) s.fc, .xfer (w.extractLsb 15 8) s.fc,
        .xfer (w.extractLsb 7 0) s.fc]) ∧
    (∀ m : Magic, s.hdr = frameM4 m → Frames s j
      [.sel true, .xfer (m.extractLsb 31 24) s.fc, .xfer (m.extractLsb 23 16) s.fc,
        .xfer (m.extractLsb 15 8) s.fc, .xfer (m.extractLsb 7 0) s.fc]) ∧
    (∀ opc, s.hdr = frameO opc → Frames s j [.sel true, .xfer opc s.fc])

/-- 40_primitives.md R131 (decision D31), R121, R122: a micro-step outside `IDLE` performs exactly
one bus event, the answer of a transfer is the link's, and a step in `IDLE` performs none; an outcome
is delivered by at most one step at a time. -/
def Obligations.OneEventPerMicroStep : Prop :=
  ∀ s t, step s = .next t → s.resetReq = false →
    (s.phase = .idle → t.trace = s.trace) ∧
    (s.phase ≠ .idle → ∃ e, t.trace = s.trace ++ [e] ∧
      (∀ o fc i, e = .xfer o fc i → i = s.answer o fc ∧
        t.link = s.link.onXfer s.cfg o (s.freeByte o fc)) ∧
      (∀ v, e = .sel v → t.sel = v ∧ t.link = s.link.onSel v)) ∧
    (t.delivered = s.delivered ∨ ∃ d, t.delivered = s.delivered ++ [d])

/-- 40_primitives.md R120, R121: `SEL(1)` only at `sel = 0`, `SEL(0)` only at `sel = 1` (but for
reset), transfers only at `sel = 1`, and nothing but `SEL` changes `sel`. -/
def Obligations.BusDiscipline : Prop :=
  ∀ s t, MachineInv s → step s = .next t → s.resetReq = false →
    (∀ e, t.trace = s.trace ++ [e] →
      (e = .sel true → s.sel = false) ∧ (e = .sel false → s.sel = true) ∧
      (∀ o fc i, e = .xfer o fc i → s.sel = true ∧ t.sel = true)) ∧
    (t.trace = s.trace → t.sel = s.sel)

/-- 30_encoding.md R96: the first byte of every transaction is an opcode of the configuration or the
first byte of the magic sequence. -/
def Obligations.TransactionsOpenWithAKnownOpcode : Prop :=
  ∀ s t e, MachineInv s → step s = .next t → s.resetReq = false → t.trace = s.trace ++ [e] →
    (s.phase = .hdr 0 ∨ s.phase = .psOpc) →
    ∃ o fc i, e = .xfer o fc i ∧ o ∈ s.cfg.opc.openers

/-! ## Entry checks and errors -/

/-- 60_exceptions.md R241, 30_encoding.md R98 (decision D5): `Unsupported` exactly for the nine gated
operations whose capability is unset, with no bus event and no change of state but the delivery; no
other step delivers it; and no step changes which operations those are. -/
def Obligations.UnsupportedExactly : Prop :=
  (∀ i s, missingCapability s.cfg i = true →
    exec i s = .next { s with delivered := s.delivered ++ [⟨.unsupported, []⟩] }) ∧
  (∀ s t d, MachineInv s → step s = .next t → t.delivered = s.delivered ++ [d] →
    d.outcome = .unsupported →
    ∃ r rest i, s.requests = r :: rest ∧ decode r = .ok i ∧ missingCapability s.cfg i = true) ∧
  (∀ s t i, step s = .next t → missingCapability t.cfg i = missingCapability s.cfg i)

/-- 60_exceptions.md R244, R247, 40_primitives.md R130 (decisions D18, D41): `NotInitialised` exactly
for an operation that needs `VALID`, its gate passed, at `VALID = 0`; no bus event, no change of
state but the delivery; no other step delivers it. -/
def Obligations.NotInitialisedExactly : Prop :=
  (∀ i s, missingCapability s.cfg i = false → needsValid i = true → s.valid = false →
    exec i s = .next { s with delivered := s.delivered ++ [⟨.notInitialised, []⟩] }) ∧
  (∀ s t d, MachineInv s → step s = .next t → t.delivered = s.delivered ++ [d] →
    d.outcome = .notInitialised →
    ∃ r rest i, s.requests = r :: rest ∧ decode r = .ok i ∧
      missingCapability s.cfg i = false ∧ needsValid i = true ∧ s.valid = false)

/-- 60_exceptions.md R242, 45_ident_init.md R210, R212 (decisions D19, D20, D40): `InvalidDensity`.
IDENTIFY and INIT whose answered first device-ID byte decodes to no density end after six events with
the three bytes stored, `DENS` unchanged and `VALID = 0`; no other step delivers it. -/
def Obligations.InvalidDensityExactly : Prop :=
  (∀ (s : State) (i : Instr), i = .identify ∨ i = .init → s.resetReq = false →
    ∃ t new u x m d0 d1, exec i s = .next t ∧ stepN 6 t = .next u ∧ u.trace = s.trace ++ new ∧
      answersOf new = [x, m, d0, d1] ∧
      sentOf new =
        transaction s.cfg.fcCmd [s.cfg.opc.jedec, s.cfg.fill, s.cfg.fill, s.cfg.fill] ∧
      u.mfr = m ∧ u.did0 = d0 ∧ u.did1 = d1 ∧
      (densityDecode s.cfg d0 = none →
        Completes i s new .invalidDensity [] u ∧ u.dens = s.dens ∧ u.valid = false ∧
          u.psm = s.psm ∧ u.rs = s.rs ∧ u.sr1 = s.sr1 ∧ u.sr2 = s.sr2)) ∧
  (∀ s t d, MachineInv s → step s = .next t → t.delivered = s.delivered ++ [d] →
    d.outcome = .invalidDensity →
    densityDecode s.cfg t.did0 = none ∧
      ∃ j, s.job = some j ∧ (j.finish = .identify ∨ j.finish = .initIdent))

/-- 60_exceptions.md R243: `Fail` exactly when the snapshot that ended the poll of a write-class
operation shows the error bit; nothing is recorded and nothing is retried. -/
def Obligations.FailExactly : Prop :=
  ∀ s t d, MachineInv s → step s = .next t → t.delivered = s.delivered ++ [d] →
    (d.outcome = .fail ↔
      s.phase = .psOff ∧ s.resetReq = false ∧ readyBit s.cfg s.sr1 = true ∧
        errorBit s.cfg s.sr2 = true) ∧
    (d.outcome = .fail → t.rs = .ready ∧ t.phase = .idle ∧ SameDevice s t)

/-- 10_state.md R25 ("else addressing is undefined"), the model's reading (log 10): an addressed
operation that may run, at a density the tables do not have, stops with the fault of that name. -/
def Obligations.UndefinedAddressingFaults : Prop :=
  ∀ (s : State) (a : Addr) (n : Len) (data : List Byte),
    ∀ f ∈ readForms s a n ++ bufferWriteForms s a data ++ writeClassForms s a data ++
      issueForms s a,
    MayRun s f.op → f.frame = none → exec f.op s = .fault .addressingUndefined

/-- 45_ident_init.md R211, 00_scope.md R8: the density decode of an admissible configuration: a density
exactly where the table has a nonzero entry at the low five bits of the byte. -/
def Obligations.DensityDecode : Prop :=
  ∀ (c : Config) (d0 : Byte), c.admissible = true →
    (d0.toNat % 32 ≤ 2 → densityDecode c d0 = none) ∧
    (d0.toNat % 32 = 6 → densityDecode c d0 = some 16) ∧
    (c.densityTable.length ≤ d0.toNat % 32 → densityDecode c d0 = none) ∧
    (∀ d, densityDecode c d0 = some d →
      c.densityTable[d0.toNat % 32]? = some d ∧ decodable c d = true) ∧
    (∀ d, c.densityTable[d0.toNat % 32]? = some d → d ≠ 0 → densityDecode c d0 = some d)

/-! ## Completion, result and frame of each operation -/

/-- 41_read.md R150 to R159: each of the nine reads runs to its end, sends its frame, its dummy
transfers and one filler byte per wanted byte in one transaction of its class, delivers `Done(n)`
with the answered bytes, and writes no Device register and not `rs`. -/
def Obligations.ReadsComplete : Prop :=
  ∀ (s : State) (a : Addr) (n : Len), ∀ f ∈ readForms s a n, MayRun s f.op →
    ∀ frame, f.frame = some frame →
    ∃ new u, Completes f.op s new (.done n) ((answersOf new).drop (4 + f.dummy)) u ∧
      sentOf new =
        transaction f.fc (frame ++ List.replicate (f.dummy + n.toNat) s.cfg.fill) ∧
      SameDevice s u ∧ u.rs = s.rs ∧ u.sr1 = s.sr1 ∧ u.sr2 = s.sr2

/-- 42_write.md R170 to R172: a buffer write sends its frame and payload in one transaction,
delivers `Done(n)`, and writes no Device register and not `rs`. -/
def Obligations.BufferWritesComplete : Prop :=
  ∀ (s : State) (a : Addr) (data : List Byte), ∀ f ∈ bufferWriteForms s a data,
    f.op.wellFormed = true → MayRun s f.op → ∀ frame, f.frame = some frame →
    ∃ new u, Completes f.op s new f.success [] u ∧
      sentOf new = transaction s.cfg.fcCmd (frame ++ data) ∧ SameDevice s u ∧ u.rs = s.rs ∧
      u.sr1 = s.sr1 ∧ u.sr2 = s.sr2

/-- 42_write.md R170, R173 to R179, 44_erase.md R200 to R204, 40_primitives.md R128: every write-class
operation, against a device that answers busy to any number of snapshots and then ready, sends its
command transaction and one snapshot per poll, and delivers `Fail` or its success outcome by the
error bit of the snapshot that showed ready; `rs = READY`, the Device registers unchanged. -/
def Obligations.WriteClassCompletes : Prop :=
  ∀ (s : State) (a : Addr) (data : List Byte), ∀ f ∈ writeClassForms s a data,
    f.op.wellFormed = true → MayRun s f.op → ∀ frame, f.frame = some frame →
    ∀ (first : List Byte) (busy : List Poll) (last : Poll) (rest : List Byte),
    first.length = frame.length + f.payload.length →
    (∀ p ∈ busy, readyBit s.cfg p.2.1 = false) → readyBit s.cfg last.2.1 = true →
    s.link = .openLink (first ++ pollAnswers (busy ++ [last]) ++ rest) →
    ∃ new u,
      Completes f.op s new (if errorBit s.cfg last.2.2 then .fail else f.success) [] u ∧
      sentOf new = transaction s.cfg.fcCmd (frame ++ f.payload) ++
        (List.replicate (busy.length + 1) (snapshotSent s.cfg)).flatten ∧
      SameDevice s u ∧ u.rs = .ready ∧ u.sr1 = last.2.1 ∧ u.sr2 = last.2.2 ∧
      u.link = .openLink rest

/-- 42_write.md R170, 10_state.md R30: with ANY device, a write-class operation is accepted, sends its
command transaction, and stands before its first poll with `rs = BUSY` and nothing delivered. -/
def Obligations.WriteClassCommandTransaction : Prop :=
  ∀ (s : State) (a : Addr) (data : List Byte), ∀ f ∈ writeClassForms s a data,
    f.op.wellFormed = true → MayRun s f.op → ∀ frame, f.frame = some frame →
    ∃ t new u, exec f.op s = .next t ∧ stepN new.length t = .next u ∧
      u.trace = s.trace ++ new ∧ sentOf new = transaction s.cfg.fcCmd (frame ++ f.payload) ∧
      u.phase = .psOn ∧ u.rs = .busy ∧ u.sel = false ∧ u.delivered = s.delivered ∧
      SameDevice s u ∧ SameInputs s u

/-- 43_copy_compare.md R190 to R194: copy and compare send their frame alone, deliver `Ok` after six
events without polling, and leave `rs = BUSY`. -/
def Obligations.CopyCompareIssue : Prop :=
  ∀ (s : State) (a : Addr), ∀ f ∈ issueForms s a, MayRun s f.op → ∀ frame, f.frame = some frame →
    ∃ new u, Completes f.op s new .ok [] u ∧ new.length = 6 ∧
      sentOf new = transaction s.cfg.fcCmd frame ∧ SameDevice s u ∧ u.rs = .busy ∧
      u.sr1 = s.sr1 ∧ u.sr2 = s.sr2

/-- 46_status.md R220, R221, R224, 43_copy_compare.md R195: READY, CMPRES and EPE take one snapshot,
return one bit of it, set `rs` from its ready bit, and write nothing else; none of them looks at
another bit or needs `VALID`. -/
def Obligations.StatusQueriesComplete : Prop :=
  ∀ s : State, s.resetReq = false →
    ∀ q ∈ [(Instr.ready, StatusBit.rdy), (.cmpres, .comp), (.epe, .epe)],
    ∃ new u x sr1 sr2, answersOf new = [x, sr1, sr2] ∧ sentOf new = snapshotSent s.cfg ∧
      Completes q.1 s new
        (.bit (match q.2 with
          | .rdy => sr1.getLsbD s.cfg.rdyBit
          | .comp => sr1.getLsbD s.cfg.compBit
          | .epe => sr2.getLsbD s.cfg.epeBit)) [] u ∧
      u.rs = (if sr1.getLsbD s.cfg.rdyBit then .ready else .busy) ∧ u.sr1 = sr1 ∧ u.sr2 = sr2 ∧
      SameDevice s u

/-- 46_status.md R222: PSM.REFRESH takes one snapshot, sets `PSM` from bit 0 of its first byte and
returns it; `VALID` and the other Device registers stay. -/
def Obligations.PsmRefreshCompletes : Prop :=
  ∀ s : State, s.resetReq = false →
    ∃ new u x sr1 sr2, answersOf new = [x, sr1, sr2] ∧ sentOf new = snapshotSent s.cfg ∧
      Completes .psmRefresh s new (.bit (sr1.getLsbD 0)) [] u ∧ u.psm = sr1.getLsbD 0 ∧
      u.rs = (if sr1.getLsbD s.cfg.rdyBit then .ready else .busy) ∧ u.sr1 = sr1 ∧ u.sr2 = sr2 ∧
      u.mfr = s.mfr ∧ u.did0 = s.did0 ∧ u.did1 = s.did1 ∧ u.dens = s.dens ∧ u.valid = s.valid

/-- 46_status.md R223, 45_ident_init.md R213: PSM.CACHED at `VALID = 1` returns the cached bit and
DEINIT clears `VALID`, both with no bus event and no other change. -/
def Obligations.NoBusOperationsComplete : Prop :=
  ∀ s : State,
    (s.valid = true → exec .psmCached s =
      .next { s with delivered := s.delivered ++ [⟨.bit s.psm, []⟩] }) ∧
    exec .deinit s =
      .next { s with valid := false, delivered := s.delivered ++ [⟨.ok, []⟩] }

/-- 45_ident_init.md R210: IDENTIFY sends one transaction of four bytes, stores the three answered
bytes and the decoded density (or clears `VALID`), and writes nothing else. -/
def Obligations.IdentifyCompletes : Prop :=
  ∀ s : State, s.resetReq = false →
    ∃ new u x m d0 d1, answersOf new = [x, m, d0, d1] ∧
      sentOf new =
        transaction s.cfg.fcCmd [s.cfg.opc.jedec, s.cfg.fill, s.cfg.fill, s.cfg.fill] ∧
      u.mfr = m ∧ u.did0 = d0 ∧ u.did1 = d1 ∧ u.psm = s.psm ∧ u.rs = s.rs ∧ u.sr1 = s.sr1 ∧
      u.sr2 = s.sr2 ∧
      match densityDecode s.cfg d0 with
      | some d => Completes .identify s new .ok [] u ∧ u.dens = d ∧ u.valid = s.valid
      | none => Completes .identify s new .invalidDensity [] u ∧ u.dens = s.dens ∧ u.valid = false

/-- 45_ident_init.md R212 (decision D19): INIT. With a valid density it is the identification
transaction and one snapshot, eleven events, and establishes the Device; with an invalid one it ends
after the identification transaction. -/
def Obligations.InitCompletes : Prop :=
  ∀ s : State, s.resetReq = false →
    ∃ new u x m d0 d1 more, answersOf new = x :: m :: d0 :: d1 :: more ∧
      u.mfr = m ∧ u.did0 = d0 ∧ u.did1 = d1 ∧
      match densityDecode s.cfg d0 with
      | some d => ∃ y sr1 sr2, more = [y, sr1, sr2] ∧ Completes .init s new .ok [] u ∧
          sentOf new =
            transaction s.cfg.fcCmd [s.cfg.opc.jedec, s.cfg.fill, s.cfg.fill, s.cfg.fill] ++
              snapshotSent s.cfg ∧
          u.dens = d ∧ u.psm = sr1.getLsbD 0 ∧ u.valid = true ∧
          u.rs = (if sr1.getLsbD s.cfg.rdyBit then .ready else .busy) ∧ u.sr1 = sr1 ∧ u.sr2 = sr2
      | none => more = [] ∧ Completes .init s new .invalidDensity [] u ∧
          sentOf new =
            transaction s.cfg.fcCmd [s.cfg.opc.jedec, s.cfg.fill, s.cfg.fill, s.cfg.fill] ∧
          u.dens = s.dens ∧ u.psm = s.psm ∧ u.valid = false ∧ u.rs = s.rs ∧ u.sr1 = s.sr1 ∧
          u.sr2 = s.sr2

/-! ## The poll loop -/

/-- 40_primitives.md R128: one turn of the loop, with any device. It sends one snapshot; while the
ready bit is 0 it stands where it stood with nothing delivered; once it is 1 the error bit of the
same snapshot decides the outcome (decisions D22, D23). -/
def Obligations.PollLoopTurn : Prop :=
  ∀ (s : State) (j : Job) (o : OpOutcome), s.phase = .psOn → s.job = some j →
    j.finish = .poll o → s.resetReq = false →
    ∃ new u x sr1 sr2, stepN 5 s = .next u ∧ u.trace = s.trace ++ new ∧
      sentOf new = snapshotSent s.cfg ∧ answersOf new = [x, sr1, sr2] ∧ u.sel = false ∧
      SameDevice s u ∧ SameInputs s u ∧
      if sr1.getLsbD s.cfg.rdyBit then
        u.phase = .idle ∧ u.rs = .ready ∧
          u.delivered =
            s.delivered ++ [⟨if sr2.getLsbD s.cfg.epeBit then .fail else o, []⟩]
      else u.phase = .psOn ∧ u.job = some j ∧ u.rs = .busy ∧ u.delivered = s.delivered

/-- 60_exceptions.md R245, 70_reset_and_hazards.md R298: however many busy answers the device gives,
the operation goes on: through all of them it is not in `IDLE` and has delivered nothing. -/
def Obligations.BusyDeviceKeepsTheLoop : Prop :=
  ∀ (s : State) (j : Job) (o : OpOutcome) (busy : List Poll) (rest : List Byte),
    s.phase = .psOn → s.job = some j → j.finish = .poll o → s.resetReq = false →
    (∀ p ∈ busy, readyBit s.cfg p.2.1 = false) →
    s.link = .openLink (pollAnswers busy ++ rest) →
    ∀ k ≤ 5 * busy.length, ∃ u, stepN k s = .next u ∧ u.phase ≠ .idle ∧
      u.delivered = s.delivered ∧ (k = 5 * busy.length → u.phase = .psOn ∧ u.job = some j)

/-! ## Whole-machine rules -/

/-- The invariant holds after reset. -/
def Obligations.ResetMeetsInvariant : Prop := MachineInv State.reset

/-- Every step keeps the invariant (`MachineInv` of Safety.lean: 00_scope.md R8, 10_state.md R23, R29,
40_primitives.md R131, E's arrays in canonical form). -/
def Obligations.StepKeepsInvariant : Prop :=
  ∀ s t, MachineInv s → step s = .next t → MachineInv t

/-- 40_primitives.md R132: DFCF has a step exactly when an operation is in progress or a request is
offered (bytes that are no request are refused); it never faults. That a reset asked for always gives
a step is the model's choice (log 14). -/
def Obligations.StepExistsExactly : Prop :=
  ∀ s, MachineInv s →
    ((∃ t, step s = .next t) ↔
      (s.resetReq = true ∨ s.phase ≠ .idle ∨
        ∃ r rest i, s.requests = r :: rest ∧ decode r = .ok i)) ∧
    ∀ r, step s ≠ .fault r

/-- 00_scope.md R7: no operation and no reset writes the configuration; only the acceptance of a
request takes one off the port (10_state.md R36). That the reset request is a bit which only reset
clears, and which no step sets, is the model's choice (log 14). -/
def Obligations.ConfigurationIsConstant : Prop :=
  ∀ s t, step s = .next t → t.cfg = s.cfg ∧
    (s.resetReq = false → t.resetReq = false ∧
      (s.phase ≠ .idle → t.requests = s.requests) ∧
      (s.phase = .idle → ∃ r, s.requests = r :: t.requests))

/-- 10_state.md R26, R24, R25, 20_memory.md R68: which step writes which Device register. The ID bytes
and `DENS` change only when IDENTIFY or the identification of INIT closes, `PSM` only when PSM.REFRESH
or the status probe of INIT closes; `VALID` is set only by the latter. -/
def Obligations.DeviceRegisterWriters : Prop :=
  ∀ s t, step s = .next t → s.resetReq = false →
    (¬ (s.phase = .selOff ∧ ∃ j, s.job = some j ∧
        (j.finish = .identify ∨ j.finish = .initIdent)) →
      t.mfr = s.mfr ∧ t.did0 = s.did0 ∧ t.did1 = s.did1 ∧ t.dens = s.dens) ∧
    (¬ (s.phase = .selOff ∧ ∃ j, s.job = some j ∧
        (j.finish = .refresh ∨ j.finish = .initStatus)) → t.psm = s.psm) ∧
    (s.valid = false → t.valid = true →
      s.phase = .selOff ∧ ∃ j, s.job = some j ∧ j.finish = .initStatus) ∧
    (s.valid = true → t.valid = false →
      (s.phase = .idle ∧ ∃ r, s.requests = r :: t.requests ∧
        (decode r = .ok .init ∨ decode r = .ok .deinit)) ∨
      (s.phase = .selOff ∧ ∃ j, s.job = some j ∧
        (j.finish = .identify ∨ j.finish = .initIdent) ∧ densityDecode s.cfg t.did0 = none))

/-- 10_state.md R30 (decision D28): `rs` becomes BUSY at the `SEL(1)` of a write-class, copy or
compare frame, follows the ready bit when a snapshot closes, and changes at no other step, the
acceptance of a request in `IDLE` included. -/
def Obligations.ReadinessRegister : Prop :=
  ∀ s t, MachineInv s → step s = .next t → s.resetReq = false →
    (s.phase = .idle → t.rs = s.rs) ∧
    ∀ j, s.job = some j →
      (s.phase = .selOn → t.rs = if j.marksBusy then .busy else s.rs) ∧
      (s.phase = .selOff ∧ j.data = .snapshot ∨ s.phase = .psOff →
        t.rs = if s.sr1.getLsbD s.cfg.rdyBit then .ready else .busy) ∧
      (s.phase ≠ .selOn → ¬ (s.phase = .selOff ∧ j.data = .snapshot) → s.phase ≠ .psOff →
        t.rs = s.rs)

/-- 60_exceptions.md R249, 40_primitives.md R133: an outcome leaves `phase = IDLE`, `sel = 0` and no
request in progress; and the step that returns `phase` to `IDLE` delivers exactly one. -/
def Obligations.OutcomeEndsTheOperation : Prop :=
  ∀ s t, MachineInv s → step s = .next t → s.resetReq = false →
    (t.delivered ≠ s.delivered → t.phase = .idle ∧ t.sel = false ∧ t.job = none) ∧
    (t.phase = .idle → ∃ d, t.delivered = s.delivered ++ [d])

/-- 10_state.md R41, 93_implementation_defined.md U14: while `VALID = 0` no step, the acceptance of an
operation or a micro-step of one, reads the registers that reset leaves without a value (the model's
values for them: log 4). The acceptance leaves them as they are; over any step each of them is written
with the same value whatever it held, or not written. -/
def Obligations.UnsetRegistersAreNotRead : Prop :=
  ∀ (s : State) (mfr did0 did1 dens : Byte) (psm : Bool), s.valid = false →
    (∀ i, exec i (withDevice s mfr did0 did1 dens psm) =
      mapNext (fun t => withDevice t mfr did0 did1 dens psm) (exec i s)) ∧
    mapNext (fun t => withDevice t 0 0 0 0 false) (step (withDevice s mfr did0 did1 dens psm)) =
      mapNext (fun t => withDevice t 0 0 0 0 false) (step s) ∧
    ∀ t u, step s = .next t → step (withDevice s mfr did0 did1 dens psm) = .next u →
      (u.mfr = t.mfr ∨ t.mfr = s.mfr ∧ u.mfr = mfr) ∧
      (u.did0 = t.did0 ∨ t.did0 = s.did0 ∧ u.did0 = did0) ∧
      (u.did1 = t.did1 ∨ t.did1 = s.did1 ∧ u.did1 = did1) ∧
      (u.dens = t.dens ∨ t.dens = s.dens ∧ u.dens = dens) ∧
      (u.psm = t.psm ∨ t.psm = s.psm ∧ u.psm = psm)

/-- 10_state.md R31: the scratch registers hold nothing a later operation may read. Two runs of any
length from an `IDLE` state that differs in them alone perform the same events, deliver the same
outcomes, and end alike in everything but the scratch registers. -/
def Obligations.ScratchIsNotCarriedOver : Prop :=
  ∀ (s : State) (hdr : List Byte) (cnt : Len) (fc : FreqClass) (sr1 sr2 : Byte)
    (out : List Byte) (k : Nat), MachineInv s → s.phase = .idle →
    mapNext (fun t => withScratch t [] 0 .fc0 0 0 [])
        (stepN k (withScratch s hdr cnt fc sr1 sr2 out)) =
      mapNext (fun t => withScratch t [] 0 .fc0 0 0 []) (stepN k s)

/-- 10_state.md R32, R35, 95_test_vectors.md V6 (decision D33): the dual-I/O, quad-I/O and suspend
capabilities, the maximum density and the position of the protection bit change no step. -/
def Obligations.UnreadConfigurationFields : Prop :=
  ∀ (s : State) (dual quad suspend : Bool) (density : Byte) (prot : Fin 8),
    step (withUnread s dual quad suspend density prot) =
      mapNext (fun t => withUnread t dual quad suspend density prot) (step s)

/-! ## The simulated device E (60_exceptions.md R256 to R268; decision D37) -/

/-- 60_exceptions.md R257, R260 to R266: E takes from every `F_OA` frame DFCF sends the command of the
operation that sent it, at the page and position its logical address names; from the magic sequence,
when its first byte is no other opcode, the chip erase; and from the two `F_O` frames the
identification and, busy or not, the status read. -/
def Obligations.DeviceTakesEveryFrame : Prop :=
  ∀ (s : State) (e : Device) (free : Byte) (W S : Nat) (a : Addr), s.cfg.admissible = true →
    decodable s.cfg s.dens = true → Attached s e → s.pageBits = some W → s.sectorLog = some S →
    (∀ f ∈ frameCommands s e s.offsetBits W S a, missingCapability s.cfg f.1 = false →
      feed s.cfg free (e.onSel true) f.2.1 =
        { e with xact := .body f.2.2.1 f.2.2.2.1 f.2.2.2.2 (devDummy s.cfg f.2.2.1) [] }) ∧
    (magicByte s.cfg.opc.magicEraseChip 3 ∉ s.cfg.opc.all →
      feed s.cfg free (e.onSel true) (frameM4 s.cfg.opc.magicEraseChip) =
        { e with xact := .magicDone }) ∧
    feed s.cfg free (e.onSel true) (frameO s.cfg.opc.jedec) = { e with xact := .jedec 0 } ∧
    ∀ busy, feed s.cfg free ({ e with busy := busy }.onSel true) (frameO s.cfg.opc.status) =
      { e with busy := busy, xact := .status false }

/-- 60_exceptions.md R262 to R265: the byte at every position of every page after the work of a
command; in particular every byte outside the page, block, sector or positions it names is as
before. -/
def Obligations.DeviceWorkOnMainMemory : Prop :=
  ∀ (e : Device) (cmd : DevCmd) (p : Nat) (written : List Nat) (q i : Nat),
    Link.ok (.device e) → i < e.pageBytes → (∀ k ∈ written, k < e.pageBytes) →
    (e.work cmd p written).mainByte q i = mainAfter e cmd p written q i

/-- 60_exceptions.md R262 to R265: the work of a command on the buffers and on E's flags. Only COPY.b
writes a buffer, and only buffer `b`; only CMP.b writes the compare bit; every program and erase
clears the error bit; the busy count is the command's. -/
def Obligations.DeviceWorkOnBuffersAndFlags : Prop :=
  ∀ (e : Device) (cmd : DevCmd) (p : Nat) (written : List Nat) (b : Buf) (i : Nat),
    Link.ok (.device e) →
    ((e.work cmd p written).bufByte b i =
      if cmd = .copy b ∧ i < e.pageBytes then e.mainByte p i else e.bufByte b i) ∧
    ((∀ x, cmd ≠ .cmp x) → (e.work cmd p written).comp = e.comp) ∧
    (∀ x, cmd = .cmp x → ((e.work cmd p written).comp = true ↔
      ∃ k < e.pageBytes, e.mainByte p k ≠ e.bufByte x k)) ∧
    ((e.work cmd p written).epe = if startsCycle cmd then false else e.epe) ∧
    ((e.work cmd p written).busy =
      match cmd with
      | .arrayRead _ | .pageRead | .bufRead _ _ | .bufWrite _ => e.busy
      | _ => e.polls cmd)

/-- 60_exceptions.md R260, R261, R262: one byte after the frame. A read answers the addressed byte (a
dummy byte `FF` first) and stores nothing; a payload byte goes to the position and every other byte of
both buffers and of main memory is as before; and where E stands afterwards: a dummy byte fewer, the
next position of the continuous read, the next position of the page or buffer, the position written
noted. A byte the command does not define changes nothing (R266). -/
def Obligations.DeviceDataByte : Prop :=
  ∀ (c : Config) (e : Device) (cmd : DevCmd) (p o skip : Nat) (written : List Nat) (v free : Byte),
    Link.ok (.device e) → e.xact = .body cmd p o skip written →
    (∀ q i, (e.onXfer c v free).2.mainByte q i = e.mainByte q i) ∧
    (∀ b i, (e.onXfer c v free).2.bufByte b i =
      if payloadBuf cmd = some b ∧ i = o then v else e.bufByte b i) ∧
    (0 < skip → isRead cmd = true → (e.onXfer c v free).1 = 0xFF ∧
      (e.onXfer c v free).2 = { e with xact := .body cmd p o (skip - 1) written }) ∧
    (skip = 0 → ((∃ k, cmd = .arrayRead k) ∨ cmd = .pageRead →
      (e.onXfer c v free).1 = e.mainByte p o) ∧
      (∀ h b, cmd = .bufRead h b → (e.onXfer c v free).1 = e.bufByte b o)) ∧
    (skip = 0 → o < e.pageBytes → isRead cmd = true → ∃ p' o',
      (e.onXfer c v free).2 = { e with xact := .body cmd p' o' 0 written } ∧
      (o + 1 < e.pageBytes → p' = p ∧ o' = o + 1) ∧
      (o + 1 = e.pageBytes → o' = 0 ∧
        ((∃ k, cmd = .arrayRead k) → (p + 1 < 2 ^ e.pageBits → p' = p + 1) ∧
          (p + 1 = 2 ^ e.pageBits → p' = 0)) ∧
        ((∀ k, cmd ≠ .arrayRead k) → p' = p))) ∧
    ((payloadBuf cmd).isSome → o < e.pageBytes →
      (e.onXfer c v free).2.xact =
        .body cmd p (if o + 1 = e.pageBytes then 0 else o + 1) 0 (written ++ [o])) ∧
    (isRead cmd = false → payloadBuf cmd = none → (e.onXfer c v free).2 = e)

/-- The frame of E's arrays over one step of the machine: main memory changes only at the `SEL(0)`
that ends a program or erase command, a buffer only at a payload byte for it or at the `SEL(0)` that
ends a copy into it (60_exceptions.md R257, R260 to R266). -/
def Obligations.DeviceArraysFrame : Prop :=
  ∀ (s t : State) (e e' : Device), step s = .next t → s.link = .device e → t.link = .device e' →
    (e'.main ≠ e.main → t.trace = s.trace ++ [.sel false] ∧
      (e.xact = .magicDone ∨
        ∃ cmd p o k w, e.xact = .body cmd p o k w ∧ storesMain cmd = true)) ∧
    ∀ b, e'.buf b ≠ e.buf b → ∃ cmd p o k w, e.xact = .body cmd p o k w ∧
      ((t.trace = s.trace ++ [.sel false] ∧ cmd = .copy b) ∨
        ((∃ x fc y, t.trace = s.trace ++ [.xfer x fc y]) ∧ payloadBuf cmd = some b))

/-- 60_exceptions.md R258: the bits of E's two status bytes. -/
def Obligations.DeviceStatusBytes : Prop :=
  ∀ e : Device, e.status1.getLsbD 7 = (e.busy == 0) ∧ e.status1.getLsbD 6 = e.comp ∧
    e.status1.extractLsb' 2 4 = e.statusCode ∧ e.status1.getLsbD 1 = false ∧
    e.status1.getLsbD 0 = e.psize ∧ e.status2.getLsbD 7 = (e.busy == 0) ∧
    e.status2.getLsbD 5 = e.epe ∧ e.status2 &&& 0x5F#8 = 0x08#8

/-- 60_exceptions.md R267, of DFCF with E: a poll loop that stands before a snapshot ends after
`busy + 1` snapshots, with `Fail` or the operation's success by E's error bit. `RDY_BIT` and `EPE_BIT`
are where E has them (R258). -/
def Obligations.DeviceEndsThePoll : Prop :=
  ∀ (s : State) (e : Device) (j : Job) (o : OpOutcome), s.phase = .psOn → s.job = some j →
    j.finish = .poll o → s.resetReq = false → s.link = .device e → e.xact = .deselected →
    s.cfg.rdyBit = 7 → s.cfg.epeBit = 5 →
    ∃ u, stepN (5 * (e.busy + 1)) s = .next u ∧ u.phase = .idle ∧
      u.delivered = s.delivered ++ [⟨if e.epe then .fail else o, []⟩] ∧
      u.link = .device { e with busy := 0 }

/-- 60_exceptions.md R268, 95_test_vectors.md S5, at E alone: a buffer write of up to one page from
offset 0, a writeback with erase to a page, snapshots until ready, and a page read give back the bytes
written. -/
def Obligations.DeviceRoundTrip : Prop :=
  ∀ (c : Config) (e : Device) (free : Byte) (p : Nat) (data : List Byte) (B : Nat),
    c.admissible = true → e.matches c = true → decodable c e.density = true →
    Link.ok (.device e) → e.xact = .deselected → e.busy = 0 → B = offsetBits e.psize →
    p < 2 ^ e.addrBits → data.length ≤ e.pageBytes →
    ∀ w : Wire, w = BitVec.ofNat 24 (p <<< B) →
    let e1 := exchange c free e (frameOA c.opc.bufwr1 0 ++ data)
    let e2 := exchange c free e1 (frameOA c.opc.wrbackE1 w)
    let e3 := polled c free e2 e2.busy
    (replies c free (e3.onSel true) (frameOA c.opc.pagerd w ++
      List.replicate (c.dummy.pagerd.toNat + data.length) c.fill)).drop
        (4 + c.dummy.pagerd.toNat) = data

/-- 60_exceptions.md R268, 95_test_vectors.md S5, of DFCF with E: from `IDLE` with E attached, the host
offers a buffer write of up to one page from offset 0, a writeback with erase to the page of `a`, and
a page read of that page; the run ends in `IDLE` with `Done`, `Ok`, and `Done` with the bytes
written. `RDY_BIT` and `EPE_BIT` are where E has them (R258). -/
def Obligations.WriteThenReadReturnsTheBytes : Prop :=
  ∀ (s : State) (e : Device) (a : Addr) (data : List Byte) (rest : List (List Byte)),
    MachineInv s → s.phase = .idle → s.resetReq = false → s.valid = true → Attached s e →
    s.cfg.rdyBit = 7 → s.cfg.epeBit = 5 →
    data.length ≤ e.pageBytes → a.toNat % 2 ^ s.offsetBits = 0 →
    ∀ n, n = BitVec.ofNat 32 data.length →
    s.requests = encode (.bufwr1 0 data) :: encode (.wrbackE1 a) :: encode (.pagerd a n) :: rest →
    ∃ k u, stepN k s = .next u ∧ u.phase = .idle ∧ u.requests = rest ∧
      u.delivered = s.delivered ++ [⟨.done n, []⟩, ⟨.ok, []⟩, ⟨.done n, data⟩]

/-! ## Statements added after the first review -/

/-- 10_state.md R41, R25, 93_implementation_defined.md U14: two runs of any length from an `IDLE` state
at `VALID = 0` that differ in the registers reset leaves without a value perform the same events,
deliver the same outcomes and end alike, those registers too once `VALID = 1`. -/
def Obligations.UnsetRegistersNeverShow : Prop :=
  ∀ (s : State) (mfr did0 did1 dens : Byte) (psm : Bool) (k : Nat), MachineInv s →
    s.phase = .idle → s.valid = false →
    mapNext hideUnset (stepN k (withDevice s mfr did0 did1 dens psm)) =
      mapNext hideUnset (stepN k s)

/-- 60_exceptions.md R257: E answers `FF` to the opcode byte of every transaction, to the three bytes
after any opcode but the status read and the identification (address or magic bytes), busy or not, and
to every byte after an opcode it does not know; and while it is busy it ignores every command but the
status read. -/
def Obligations.DeviceTransactionDecode : Prop :=
  ∀ (c : Config) (e : Device) (free o : Byte),
    replies c free (e.onSel true) [o] = [0xFF] ∧
    (o ≠ c.opc.status → o ≠ c.opc.jedec → ∀ b2 b1 b0 : Byte,
      replies c free (e.onSel true) [o, b2, b1, b0] = List.replicate 4 0xFF) ∧
    (o ≠ c.opc.status → o ≠ c.opc.jedec → o ∉ (devCommands c).map Prod.fst →
      o ≠ magicByte c.opc.magicEraseChip 3 → ∀ rest : List Byte,
      replies c free (e.onSel true) (o :: rest) = List.replicate (rest.length + 1) 0xFF ∧
        exchange c free e (o :: rest) = { e with xact := .deselected }) ∧
    (0 < e.busy → o ≠ c.opc.status → ∀ rest : List Byte,
      exchange c free e (o :: rest) = { e with xact := .deselected })

/-- 60_exceptions.md R260: a read of E answers `FF` to its dummy bytes and then, however many bytes are
clocked, the bytes from the addressed one on: the continuous read through the pages and from the last
page to page 0, the page read and the buffer read round their page and buffer. -/
def Obligations.DeviceReadsRunOn : Prop :=
  ∀ (c : Config) (e : Device) (free : Byte) (cmd : DevCmd) (p o skip : Nat) (written : List Nat)
    (bytes : List Byte), e.xact = .body cmd p o skip written → o < e.pageBytes →
    p < 2 ^ e.pageBits → isRead cmd = true →
    (∀ k < skip, k < bytes.length → (replies c free e bytes)[k]? = some 0xFF) ∧
    ∀ k, skip + k < bytes.length →
      ((∃ f, cmd = .arrayRead f) → (replies c free e bytes)[skip + k]? =
        some (e.mainByte ((p + (o + k) / e.pageBytes) % 2 ^ e.pageBits) ((o + k) % e.pageBytes))) ∧
      (cmd = .pageRead → (replies c free e bytes)[skip + k]? =
        some (e.mainByte p ((o + k) % e.pageBytes))) ∧
      (∀ h b, cmd = .bufRead h b → (replies c free e bytes)[skip + k]? =
        some (e.bufByte b ((o + k) % e.pageBytes)))

/-- 60_exceptions.md R261, R262, R268: a payload of any length goes round its buffer: a position holds
the last byte that fell on it, or what it held before; the other buffer and main memory are as before;
and E has noted the positions written, in order. -/
def Obligations.DevicePayloadWraps : Prop :=
  ∀ (c : Config) (e : Device) (free : Byte) (cmd : DevCmd) (b : Buf) (p o skip : Nat)
    (written : List Nat) (data : List Byte), Link.ok (.device e) →
    e.xact = .body cmd p o skip written → payloadBuf cmd = some b → o < e.pageBytes →
    ∀ f, f = feed c free e data →
    (∀ k v, data[k]? = some v →
      (∀ j < data.length, k < j → (o + j) % e.pageBytes ≠ (o + k) % e.pageBytes) →
      f.bufByte b ((o + k) % e.pageBytes) = v) ∧
    (∀ i, (∀ k < data.length, (o + k) % e.pageBytes ≠ i) → f.bufByte b i = e.bufByte b i) ∧
    (∀ x i, x ≠ b → f.bufByte x i = e.bufByte x i) ∧
    (∀ q i, f.mainByte q i = e.mainByte q i) ∧
    ∃ left, f.xact = .body cmd p ((o + data.length) % e.pageBytes) left
      (written ++ (List.range data.length).map fun k => (o + k) % e.pageBytes)

/-- 30_encoding.md R84: the offset width by page-size mode, and that every wire address an operation
frames, and the operand `PG(p, o)` (R101), is made with the one of the `PSM` in force. -/
def Obligations.OffsetWidthFollowsPsm : Prop :=
  offsetBits false = 10 ∧ offsetBits true = 9 ∧
    ∀ (s : State) (a : Addr) (B : Nat), B = (if s.psm then 9 else 10) →
      (∀ w, s.fullWire a = some w → ∃ W, s.pageBits = some W ∧ w = wireFull B W a) ∧
      (∀ w, s.pageWire a = some w → ∃ W, s.pageBits = some W ∧ w = wirePage B W a) ∧
      (∀ w, s.blockWire a = some w → ∃ W, s.pageBits = some W ∧ w = wireBlock B W a) ∧
      (∀ w, s.sectorWire a = some w → ∃ W S, s.pageBits = some W ∧ s.sectorLog = some S ∧
        w = wireSector B W S a) ∧
      s.bufWire a = some (wireBuf B a) ∧
      ∀ p o, (p <<< B) ||| o < 2 ^ 32 → (s.pg p o).toNat = (p <<< B) ||| o

/-- 60_exceptions.md R258: E's status read. However many bytes are clocked after the opcode, busy or
not, they are answered with byte 1 and byte 2 in turn; the `SEL(0)` that ends the transaction lowers a
positive busy count by one, and nothing else of E changes. -/
def Obligations.DeviceStatusRead : Prop :=
  ∀ (c : Config) (e : Device) (free : Byte) (rest : List Byte),
    replies c free (e.onSel true) (c.opc.status :: rest) =
      0xFF :: (List.range rest.length).map (fun k => if k % 2 = 0 then e.status1 else e.status2) ∧
    exchange c free e (c.opc.status :: rest) =
      { e with busy := if 0 < e.busy then e.busy - 1 else 0, xact := .deselected }

/-- 60_exceptions.md R259: E's identification. The bytes clocked after the opcode are answered with the
manufacturer byte, the two ID bytes, then `00`; and nothing of E changes. Of an E that is not busy
(R257). -/
def Obligations.DeviceIdentification : Prop :=
  ∀ (c : Config) (e : Device) (free : Byte) (rest : List Byte), c.admissible = true → e.busy = 0 →
    replies c free (e.onSel true) (c.opc.jedec :: rest) =
      0xFF :: (List.range rest.length).map (fun k =>
        if k = 0 then e.mfr else if k = 1 then e.id0 else if k = 2 then e.id1 else 0x00) ∧
    exchange c free e (c.opc.jedec :: rest) = { e with xact := .deselected }
end

