-- ==== Sys2Proof/Laws/Codec.lean ====
section
/-! SUPPORT. Laws of the address codec (30_encoding.md R84 to R91) as arithmetic on naturals, and
what an admissible configuration gives its tables (00_scope.md R8). -/

namespace Sys2Proof.Machine

theorem pageIndex_eq (B W : Nat) (a : Addr) : pageIndex B W a = a.toNat / 2 ^ B % 2 ^ W := by
  simp [pageIndex, mask, Nat.shiftRight_eq_div_pow, Nat.and_two_pow_sub_one_eq_mod]

theorem offsetOf_eq (B : Nat) (a : Addr) : offsetOf B a = a.toNat % 2 ^ B := by
  simp [offsetOf, mask, Nat.and_two_pow_sub_one_eq_mod]

theorem pageIndex_lt (B W : Nat) (a : Addr) : pageIndex B W a < 2 ^ W := by
  rw [pageIndex_eq]
  exact Nat.mod_lt _ (Nat.two_pow_pos _)

theorem offsetOf_lt (B : Nat) (a : Addr) : offsetOf B a < 2 ^ B := by
  rw [offsetOf_eq]
  exact Nat.mod_lt _ (Nat.two_pow_pos _)

/-- The two fields side by side are the low `W + B` bits of the address. -/
theorem fields_eq (B W : Nat) (a : Addr) :
    pageIndex B W a * 2 ^ B + offsetOf B a = a.toNat % (2 ^ W * 2 ^ B) := by
  rw [pageIndex_eq, offsetOf_eq, Nat.mul_comm (2 ^ W), Nat.mod_mul]
  ring

theorem fields_lt (B W : Nat) (a : Addr) :
    pageIndex B W a * 2 ^ B + offsetOf B a < 2 ^ (W + B) := by
  rw [fields_eq, Nat.pow_add]
  exact Nat.mod_lt _ (by positivity)

theorem toNat_wire {x n : Nat} (h : x < 2 ^ n) (hn : n ≤ 24) : (BitVec.ofNat 24 x).toNat = x := by
  rw [BitVec.toNat_ofNat, Nat.mod_eq_of_lt (h.trans_le (Nat.pow_le_pow_right (by omega) hn))]

/-- `encode(a)` as a number (30_encoding.md R86). -/
theorem wireFull_toNat {B W : Nat} (h : W + B ≤ 24) (a : Addr) :
    (wireFull B W a).toNat = pageIndex B W a * 2 ^ B + offsetOf B a := by
  rw [wireFull, ← Nat.shiftLeft_add_eq_or_of_lt (offsetOf_lt B a), Nat.shiftLeft_eq]
  exact toNat_wire (fields_lt B W a) h

/-- `encode_page(a)` as a number (30_encoding.md R88). -/
theorem wirePage_toNat {B W : Nat} (h : W + B ≤ 24) (a : Addr) :
    (wirePage B W a).toNat = pageIndex B W a * 2 ^ B := by
  rw [wirePage, Nat.shiftLeft_eq]
  exact toNat_wire ((Nat.le_add_right _ _).trans_lt (fields_lt B W a)) h

theorem round_lt {B W k : Nat} (a : Addr) :
    pageIndex B W a / 2 ^ k * 2 ^ (B + k) < 2 ^ (W + B) := by
  have h : pageIndex B W a / 2 ^ k * 2 ^ k ≤ pageIndex B W a := Nat.div_mul_le_self _ _
  have := Nat.mul_le_mul_right (2 ^ B) h
  have := fields_lt B W a
  have : pageIndex B W a / 2 ^ k * 2 ^ (B + k) = pageIndex B W a / 2 ^ k * 2 ^ k * 2 ^ B := by ring
  omega

/-- `encode_block(a)` as a number (30_encoding.md R89). -/
theorem wireBlock_toNat {B W : Nat} (h : W + B ≤ 24) (a : Addr) :
    (wireBlock B W a).toNat = pageIndex B W a / 2 ^ 3 * 2 ^ (B + 3) := by
  rw [wireBlock, Nat.shiftLeft_eq, Nat.shiftRight_eq_div_pow]
  exact toNat_wire (round_lt a) h

/-- `encode_sector(a)` as a number (30_encoding.md R90). -/
theorem wireSector_toNat {B W S : Nat} (h : W + B ≤ 24) (a : Addr) :
    (wireSector B W S a).toNat = pageIndex B W a / 2 ^ S * 2 ^ (B + S) := by
  rw [wireSector, Nat.shiftLeft_eq, Nat.shiftRight_eq_div_pow]
  exact toNat_wire (round_lt a) h

/-- `encode_buf(a)` as a number (30_encoding.md R91). -/
theorem wireBuf_toNat {B : Nat} (h : B ≤ 24) (a : Addr) : (wireBuf B a).toNat = offsetOf B a :=
  toNat_wire (offsetOf_lt B a) h

/-- `decode(w)` gives back the bits of `w` (30_encoding.md R87). -/
theorem wireDecode_toNat (B : Nat) (w : Wire) : (wireDecode B w).toNat = w.toNat := by
  have hlt : w.toNat % 2 ^ B < 2 ^ B := Nat.mod_lt _ (Nat.two_pow_pos _)
  rw [wireDecode, mask, Nat.and_two_pow_sub_one_eq_mod,
    ← Nat.shiftLeft_add_eq_or_of_lt hlt, Nat.shiftLeft_eq, Nat.shiftRight_eq_div_pow,
    Nat.div_add_mod', BitVec.toNat_ofNat]
  exact Nat.mod_eq_of_lt (w.isLt.trans (by norm_num))

theorem offsetBits_le (m : Bool) : offsetBits m ≤ 10 := by cases m <;> decide

/-- What `admissible` says of the tables of a density the decode can yield (00_scope.md R8). -/
theorem admissible_tables {c : Config} {d : Byte} (hc : c.admissible = true)
    (hd : d ∈ c.densityTable) (h0 : d ≠ 0) : ∃ w v S, c.wDf.lookup d = some w ∧
      c.wP2.lookup d = some v ∧ c.sLog2.lookup d = some S ∧ 8 ≤ w ∧ w ≤ 14 ∧ v ≤ 13 ∧ S ≤ w ∧
      S ≤ v := by
  simp only [Config.admissible, Bool.and_eq_true, List.all_eq_true] at hc
  have h := hc.1.1.1 d hd
  simp only [h0, beq_iff_eq, Bool.or_eq_true, false_or, Config.densityAdmissible] at h
  cases h1 : c.wDf.lookup d <;> cases h2 : c.wP2.lookup d <;> cases h3 : c.sLog2.lookup d <;>
    simp only [h1, h2, h3, reduceCtorEq, decide_eq_true_eq] at h
  exact ⟨_, _, _, rfl, rfl, rfl, h.1, h.2.1, h.2.2.1, h.2.2.2.2.2⟩

/-- The page-address width is defined and fits the wire (00_scope.md R8). -/
theorem pageBits_some {c : Config} {d : Byte} (hc : c.admissible = true) (hd : d ∈ c.densityTable)
    (h0 : d ≠ 0) (m : Bool) : ∃ W, pageBits c d m = some W ∧ W + offsetBits m ≤ 24 ∧
      (m = true → W ≤ 13) ∧ W ≤ 14 := by
  obtain ⟨w, v, S, hw, hv, -, -, h14, h13, -⟩ := admissible_tables hc hd h0
  cases m
  · exact ⟨w, by simp [pageBits, hw], by simp [offsetBits, Config.bDf]; omega, by simp, h14⟩
  · exact ⟨v, by simp [pageBits, hv], by simp [offsetBits, Config.bP2]; omega, by simp [h13], by omega⟩

end Sys2Proof.Machine
end

