-- ==== Sys2Proof/Laws/Decode.lean ====
section
/-! SUPPORT. Laws of the request layout: operands split into bytes and read back. -/

namespace Sys2Proof

theorem word32_bytes (x : BitVec 32) : word32 (x.extractLsb' 24 8) (x.extractLsb' 16 8)
    (x.extractLsb' 8 8) (x.extractLsb' 0 8) = x := by
  refine BitVec.eq_of_getLsbD_eq fun i hi => ?_
  simp only [word32, BitVec.getLsbD_append, BitVec.getLsbD_extractLsb']
  have : i < 8 ∨ 8 ≤ i ∧ i < 16 ∨ 16 ≤ i ∧ i < 24 ∨ 24 ≤ i := by omega
  rcases this with h | h | h | h
  · simp [h]
  · simp [show ¬ i < 8 by omega, show i - 8 < 8 by omega, show 8 + (i - 8) = i by omega]
  · simp [show ¬ i < 8 by omega, show ¬ i - 8 < 8 by omega, show i - 8 - 8 < 8 by omega,
      show 16 + (i - 8 - 8) = i by omega]
  · simp [show ¬ i < 8 by omega, show ¬ i - 8 < 8 by omega, show ¬ i - 8 - 8 < 8 by omega,
      show i - 8 - 8 - 8 < 8 by omega, show 24 + (i - 8 - 8 - 8) = i by omega]

theorem bytes_word32 (b3 b2 b1 b0 : Byte) : (word32 b3 b2 b1 b0).extractLsb' 24 8 = b3 ∧
    (word32 b3 b2 b1 b0).extractLsb' 16 8 = b2 ∧ (word32 b3 b2 b1 b0).extractLsb' 8 8 = b1 ∧
    (word32 b3 b2 b1 b0).extractLsb' 0 8 = b0 := by
  refine ⟨?_, ?_, ?_, ?_⟩ <;> ext i hi <;>
    simp only [word32, BitVec.getElem_extractLsb', BitVec.getLsbD_append] <;>
    simp +arith [hi, BitVec.getLsbD_eq_getElem]

@[simp] theorem takeAddr_addrBytes (a : Addr) (bs : List Byte) :
    takeAddr (addrBytes a ++ bs) = .ok (a, bs) := by
  simp [takeAddr, addrBytes, word32_bytes]

@[simp] theorem takeLen_lenBytes (n : Len) (bs : List Byte) :
    takeLen (lenBytes n ++ bs) = .ok (n, bs) := by
  simp [takeLen, lenBytes, word32_bytes]

/-- An address operand that was read is the address's own four bytes. -/
theorem takeAddr_ok {bs rest : List Byte} {a : Addr} (h : takeAddr bs = .ok (a, rest)) :
    bs = addrBytes a ++ rest := by
  unfold takeAddr at h
  split at h
  case h_1 b2 b1 b0 b3 _ =>
    cases h
    obtain ⟨h3, h2, h1, h0⟩ := bytes_word32 b3 b2 b1 b0
    simp [addrBytes, h3, h2, h1, h0]
  · cases h

/-- A count operand that was read is the count's own four bytes. -/
theorem takeLen_ok {bs rest : List Byte} {n : Len} (h : takeLen bs = .ok (n, rest)) :
    bs = lenBytes n ++ rest := by
  unfold takeLen at h
  split at h
  case h_1 b3 b2 b1 b0 _ =>
    cases h
    obtain ⟨h3, h2, h1, h0⟩ := bytes_word32 b3 b2 b1 b0
    simp [lenBytes, h3, h2, h1, h0]
  · cases h

theorem finish_ok {i j : Instr} {bs : List Byte} (h : finish i bs = .ok j) : bs = [] ∧ j = i := by
  cases bs with
  | nil => exact ⟨rfl, by simpa [finish] using h.symm⟩
  | cons b bs => cases h

end Sys2Proof
end

