-- ==== Sys2Proof/Laws/Memory.lean ====
section
/-! SUPPORT. Laws of E's byte arrays: what a read gives after a write, an erase or a block store,
and that each of them keeps the canonical form. -/

namespace Sys2Proof.Machine

theorem Memory.wf_nil : Memory.wf [] := by simp [Memory.wf]

theorem Memory.wf_tail {c : Host.Cell} {m : Memory} (h : Memory.wf (c :: m)) : Memory.wf m :=
  ⟨(List.pairwise_cons.1 h.1).2, fun d hd => h.2 d (List.mem_cons_of_mem _ hd)⟩

theorem Memory.read_of_not_listed {m : Memory} {a : Nat} (h : ∀ c ∈ m, c.1 ≠ a) :
    Memory.read m a = Memory.unlisted := by
  induction m with
  | nil => rfl
  | cons c m ih =>
    have hc := h c List.mem_cons_self
    simp only [Memory.read, hc, if_false]
    exact ih fun d hd => h d (List.mem_cons_of_mem _ hd)

/-- An address below a canonical memory's first entry is not listed. -/
theorem Memory.read_below {c : Host.Cell} {m : Memory} {a : Nat} (h : Memory.wf (c :: m))
    (ha : a < c.1) : Memory.read (c :: m) a = Memory.unlisted := by
  refine Memory.read_of_not_listed fun d hd => ?_
  rcases List.mem_cons.1 hd with rfl | hd
  · omega
  · have := (List.pairwise_cons.1 h.1).1 d hd
    omega

/-- Read after write. -/
theorem Memory.read_write {m : Memory} (h : Memory.wf m) (a b : Nat) (v : Byte) :
    Memory.read (Memory.write m a v) b = if b = a then v else Memory.read m b := by
  induction m with
  | nil =>
    by_cases hv : v = Memory.unlisted <;> by_cases hb : b = a <;>
      simp [Memory.write, Memory.read, hv, hb, Ne.symm]
  | cons c m ih =>
    have ih := ih (Memory.wf_tail h)
    have below := @Memory.read_below c m a h
    obtain ⟨d, w⟩ := c
    simp only [Memory.write]
    rcases Nat.lt_trichotomy a d with had | rfl | had
    · rw [if_pos had]
      by_cases hv : v = Memory.unlisted
      · rw [if_pos hv]
        by_cases hb : b = a
        · rw [if_pos hb, hb, hv, below had]
        · rw [if_neg hb]
      · rw [if_neg hv]
        by_cases hb : b = a
        · simp [Memory.read, hb]
        · rw [if_neg hb, Memory.read, if_neg (Ne.symm hb)]
    · rw [if_neg (Nat.lt_irrefl a), if_pos rfl]
      by_cases hv : v = Memory.unlisted
      · rw [if_pos hv]
        by_cases hb : b = a
        · rw [if_pos hb, hb, hv]
          refine Memory.read_of_not_listed fun e he => ?_
          have := (List.pairwise_cons.1 h.1).1 e he
          simp only at this
          omega
        · rw [if_neg hb, Memory.read, if_neg (Ne.symm hb)]
      · rw [if_neg hv]
        by_cases hb : b = a
        · simp [Memory.read, hb]
        · simp [Memory.read, hb, Ne.symm hb]
    · rw [if_neg (by omega), if_neg (by omega), Memory.read, ih, Memory.read]
      by_cases hb : b = a
      · rw [if_pos hb, if_pos hb, if_neg (by omega)]
      · simp [hb]

@[simp] theorem Memory.read_write_same {m : Memory} (h : Memory.wf m) (a : Nat) (v : Byte) :
    Memory.read (Memory.write m a v) a = v := by
  rw [Memory.read_write h, if_pos rfl]

theorem Memory.mem_write {m : Memory} {a : Nat} {v : Byte} {c : Host.Cell}
    (hc : c ∈ Memory.write m a v) : (c = (a, v) ∧ v ≠ Memory.unlisted) ∨ c ∈ m := by
  induction m with
  | nil =>
    simp only [Memory.write] at hc
    split at hc <;> simp_all
  | cons d m ih =>
    obtain ⟨d, w⟩ := d
    simp only [Memory.write] at hc
    split at hc
    · split at hc
      · exact .inr hc
      · rcases List.mem_cons.1 hc with rfl | hc
        · exact .inl ⟨rfl, ‹_›⟩
        · exact .inr hc
    · split at hc
      · split at hc
        · exact .inr (List.mem_cons_of_mem _ hc)
        · rcases List.mem_cons.1 hc with rfl | hc
          · exact .inl ⟨rfl, ‹_›⟩
          · exact .inr (List.mem_cons_of_mem _ hc)
      · rcases List.mem_cons.1 hc with rfl | hc
        · exact .inr List.mem_cons_self
        · exact (ih hc).imp id (List.mem_cons_of_mem _)

/-- A write keeps the canonical form. -/
theorem Memory.wf_write {m : Memory} (h : Memory.wf m) (a : Nat) (v : Byte) :
    Memory.wf (Memory.write m a v) := by
  refine ⟨?_, fun c hc => ?_⟩
  · induction m with
    | nil => simp only [Memory.write]; split <;> simp
    | cons d m ih =>
      have hm := Memory.wf_tail h
      have hd := List.pairwise_cons.1 h.1
      obtain ⟨d, w⟩ := d
      simp only [Memory.write]
      split
      · split
        · exact h.1
        · refine List.pairwise_cons.2 ⟨fun c hc => ?_, h.1⟩
          rcases List.mem_cons.1 hc with rfl | hc
          · assumption
          · have := hd.1 c hc
            simp only at this ⊢
            omega
      · split
        · subst d
          split
          · exact hd.2
          · exact List.pairwise_cons.2 ⟨hd.1, hd.2⟩
        · refine List.pairwise_cons.2 ⟨fun c hc => ?_, ih hm⟩
          rcases Memory.mem_write hc with ⟨rfl, -⟩ | hc
          · simp only
            omega
          · exact hd.1 c hc
  · rcases Memory.mem_write hc with ⟨rfl, hv⟩ | hc
    · exact hv
    · exact h.2 c hc

/-- Erased addresses read as the unlisted value, every other as before. -/
theorem Memory.read_erase (m : Memory) (lo len a : Nat) :
    Memory.read (Memory.erase m lo len) a =
      if lo ≤ a ∧ a < lo + len then Memory.unlisted else Memory.read m a := by
  induction m with
  | nil => simp [Memory.erase, Memory.read]
  | cons c m ih =>
    obtain ⟨d, w⟩ := c
    simp only [Memory.erase, List.filter_cons] at ih ⊢
    by_cases hd : d < lo ∨ lo + len ≤ d
    · simp only [hd, decide_true, if_true, Memory.read, ih]
      by_cases hda : d = a
      · subst hda
        simp only [if_true]
        rw [if_neg (by omega)]
      · simp [hda]
    · simp only [hd, decide_false, Bool.false_eq_true, if_false, Memory.read, ih]
      by_cases hda : d = a
      · subst hda
        rw [if_pos (by omega), if_pos (by omega)]
      · simp [hda]

/-- An erase keeps the canonical form. -/
theorem Memory.wf_erase {m : Memory} (h : Memory.wf m) (lo len : Nat) :
    Memory.wf (Memory.erase m lo len) :=
  ⟨h.1.sublist List.filter_sublist, fun c hc => h.2 c (List.mem_of_mem_filter hc)⟩

/-- A block store keeps the canonical form. -/
theorem Memory.wf_writeEach {m : Memory} (h : Memory.wf m) (lo : Nat) (f : Nat → Byte)
    (is : List Nat) : Memory.wf (Memory.writeEach m lo f is) := by
  induction is generalizing m with
  | nil => exact h
  | cons i is ih => exact ih (Memory.wf_write h _ _)

/-- What a block store leaves at an address: the stored byte at a listed position, else the byte
that was there. -/
theorem Memory.read_writeEach {m : Memory} (h : Memory.wf m) (lo : Nat) (f : Nat → Byte)
    (is : List Nat) (a : Nat) :
    Memory.read (Memory.writeEach m lo f is) a =
      if lo ≤ a ∧ a - lo ∈ is then f (a - lo) else Memory.read m a := by
  induction is generalizing m with
  | nil => simp [Memory.writeEach]
  | cons i is ih =>
    have step : Memory.writeEach m lo f (i :: is) =
        Memory.writeEach (Memory.write m (lo + i) (f i)) lo f is := rfl
    rw [step, ih (Memory.wf_write h _ _), Memory.read_write h]
    by_cases hlo : lo ≤ a
    · by_cases hi : a - lo = i
      · subst hi
        have : a = lo + (a - lo) := by omega
        simp [← this, hlo]
      · have : ¬ a = lo + i := by omega
        simp [hlo, hi, this]
    · have : ¬ a = lo + i := by omega
      simp [hlo, this]

end Sys2Proof.Machine
end

