-- ==== Sys2Proof/Laws/Device.lean ====
section
/-! SUPPORT. Laws of the simulated device E: its accessors, and that every bus event keeps its
arrays in canonical form. -/

namespace Sys2Proof.Machine

theorem Device.pageBytes_pos (e : Device) : 0 < e.pageBytes := by
  unfold Device.pageBytes
  split <;> omega

/-- E's arrays are in canonical form. -/
abbrev Device.ok (e : Device) : Prop := Link.ok (.device e)

theorem Device.buf_ok {e : Device} (h : e.ok) (b : Buf) : Memory.wf (e.buf b) := by
  cases b
  · exact h.2.1
  · exact h.2.2

theorem Device.setBuf_ok {e : Device} (h : e.ok) {m : Memory} (hm : Memory.wf m) (b : Buf) :
    (e.setBuf b m).ok := by
  cases b
  · exact ⟨h.1, hm, h.2.2⟩
  · exact ⟨h.1, h.2.1, hm⟩

@[simp] theorem Device.buf_setBuf_same (e : Device) (b : Buf) (m : Memory) :
    (e.setBuf b m).buf b = m := by cases b <;> rfl

theorem Device.buf_setBuf (e : Device) (b c : Buf) (m : Memory) :
    (e.setBuf b m).buf c = if c = b then m else e.buf c := by cases b <;> cases c <;> rfl

@[simp] theorem Device.setBuf_main (e : Device) (b : Buf) (m : Memory) :
    (e.setBuf b m).main = e.main := by cases b <;> rfl

@[simp] theorem Device.setBuf_psize (e : Device) (b : Buf) (m : Memory) :
    (e.setBuf b m).psize = e.psize := by cases b <;> rfl

@[simp] theorem Device.setBuf_comp (e : Device) (b : Buf) (m : Memory) :
    (e.setBuf b m).comp = e.comp := by cases b <;> rfl

@[simp] theorem Device.setBuf_epe (e : Device) (b : Buf) (m : Memory) :
    (e.setBuf b m).epe = e.epe := by cases b <;> rfl

@[simp] theorem Device.setBuf_busy (e : Device) (b : Buf) (m : Memory) :
    (e.setBuf b m).busy = e.busy := by cases b <;> rfl

/-- Fields that hold no array do not matter. -/
theorem Device.ok_of {e f : Device} (h : e.ok) (hm : f.main = e.main) (h1 : f.buf1 = e.buf1)
    (h2 : f.buf2 = e.buf2) : f.ok :=
  ⟨hm ▸ h.1, h1 ▸ h.2.1, h2 ▸ h.2.2⟩

/-- The work of a command keeps the canonical form. -/
theorem Device.work_ok {e : Device} (h : e.ok) (cmd : DevCmd) (p : Nat) (written : List Nat) :
    (e.work cmd p written).ok := by
  have hw := fun lo f is => Memory.wf_writeEach h.1 lo f is
  have he := fun lo len => Memory.wf_erase h.1 lo len
  cases cmd <;> try exact h
  case wtbE | wrbackE | wtbN | wrbackN => exact ⟨hw _ _ _, h.2.1, h.2.2⟩
  case copy b =>
    exact Device.ok_of
      (Device.setBuf_ok h (Memory.wf_writeEach (Device.buf_ok h b) 0 (e.mainByte p) e.positions) b)
      rfl rfl rfl
  case erasePage | eraseBlock | eraseSector | eraseChip => exact ⟨he _ _, h.2.1, h.2.2⟩

/-- `SEL(v)` keeps the canonical form. -/
theorem Device.onSel_ok {e : Device} (h : e.ok) (v : Bool) : (e.onSel v).ok := by
  cases v
  · unfold Device.onSel
    cases e.xact <;> first | exact h | exact Device.ok_of (Device.work_ok h _ _ _) rfl rfl rfl
  · exact h

@[simp] theorem Device.begin_ready {e : Device} (h : e.busy = 0) (frame : Nat) (x : Xact) :
    e.begin frame x = { e with xact := x } := by simp [Device.begin, h]

@[simp] theorem Device.begin_busy {e : Device} (h : 0 < e.busy) (frame : Nat) (x : Xact) :
    e.begin frame x = { e with xact := .ignored frame } := by simp [Device.begin, h]

/-- What the opcode byte starts changes E's transaction only. -/
theorem Device.onOpcode_eq (e : Device) (c : Config) (o : Byte) :
    ∃ x, e.onOpcode c o = { e with xact := x } := by
  unfold Device.onOpcode
  repeat' split
  all_goals exact ⟨_, rfl⟩

/-- What an opcode byte other than the status read and the identification starts. -/
theorem Device.onOpcode_other (e : Device) (c : Config) {o : Byte} (hs : o ≠ c.opc.status)
    (hj : o ≠ c.opc.jedec) :
    ∃ x, e.onOpcode c o = { e with xact := x } ∧
      ((∃ cmd, x = .addr cmd []) ∨ x = .magic [o] ∨ x = .ignored 3 ∨ x = .unknown) := by
  have hb : ∀ y, ∃ x, e.begin 3 y = { e with xact := x } ∧ (x = y ∨ x = .ignored 3) := fun y => by
    unfold Device.begin
    split
    · exact ⟨_, rfl, .inr rfl⟩
    · exact ⟨_, rfl, .inl rfl⟩
  simp only [Device.onOpcode, hs, hj, if_false]
  split
  · obtain ⟨x, hx, rfl | rfl⟩ := hb (.addr ‹_› [])
    · exact ⟨_, hx, .inl ⟨_, rfl⟩⟩
    · exact ⟨_, hx, .inr (.inr (.inl rfl))⟩
  · split
    · obtain ⟨x, hx, rfl | rfl⟩ := hb (.magic [o])
      · exact ⟨_, hx, .inr (.inl rfl)⟩
      · exact ⟨_, hx, .inr (.inr (.inl rfl))⟩
    · exact ⟨_, rfl, .inr (.inr (.inr rfl))⟩

/-- A byte of the magic sequence changes E's transaction only. -/
theorem Device.onMagic_eq (e : Device) (c : Config) (got : List Byte) (v : Byte) :
    ∃ x, e.onMagic c got v = { e with xact := x } := by
  unfold Device.onMagic
  dsimp only
  repeat' split
  all_goals exact ⟨_, rfl⟩

/-- A byte after the frame changes E's transaction, and a payload byte one position of a buffer. -/
theorem Device.onBody_cases (e : Device) (cmd : DevCmd) (p o skip : Nat) (written : List Nat)
    (v free : Byte) :
    (∃ x, (e.onBody cmd p o skip written v free).2 = { e with xact := x }) ∨
    ∃ b, (e.onBody cmd p o skip written v free).2 = e.onPayload cmd b p o written v ∧
      (cmd = .bufWrite b ∨ cmd = .wtbE b ∨ cmd = .wtbN ∧ b = .one) := by
  cases cmd
  case arrayRead | pageRead | bufRead =>
    left
    unfold Device.onBody
    dsimp only
    split <;> exact ⟨_, rfl⟩
  case bufWrite b => exact .inr ⟨b, rfl, .inl rfl⟩
  case wtbE b => exact .inr ⟨b, rfl, .inr (.inl rfl)⟩
  case wtbN => exact .inr ⟨.one, rfl, .inr (.inr ⟨rfl, rfl⟩)⟩
  all_goals exact .inl ⟨e.xact, rfl⟩

/-- Outside the data phase a transfer changes E's transaction only. -/
theorem Device.onXfer_cases (e : Device) (c : Config) (v free : Byte) :
    (∃ x, (e.onXfer c v free).2 = { e with xact := x }) ∨
    ∃ cmd p o skip written b, e.xact = .body cmd p o skip written ∧
      (e.onXfer c v free).2 = e.onPayload cmd b p o written v ∧
      (cmd = .bufWrite b ∨ cmd = .wtbE b ∨ cmd = .wtbN ∧ b = .one) := by
  unfold Device.onXfer
  split
  case h_2 => exact .inl (Device.onOpcode_eq e c v)
  case h_5 cmd p o skip written hx =>
    rcases Device.onBody_cases e cmd p o skip written v free with h | ⟨b, h, hb⟩
    · exact .inl h
    · exact .inr ⟨cmd, p, o, skip, written, b, hx, h, hb⟩
  case h_6 got _ => exact .inl (Device.onMagic_eq e c got v)
  all_goals first | exact .inl ⟨e.xact, rfl⟩ | exact .inl ⟨_, rfl⟩

/-- A transfer keeps the canonical form. -/
theorem Device.onXfer_ok {e : Device} (h : e.ok) (c : Config) (v free : Byte) :
    (e.onXfer c v free).2.ok := by
  rcases Device.onXfer_cases e c v free with ⟨x, hx⟩ | ⟨cmd, p, o, skip, w, b, -, hx, -⟩
  · rw [hx]; exact h
  · rw [hx]
    exact Device.ok_of
      (Device.setBuf_ok h (Memory.wf_write (Device.buf_ok h b) o v) b) rfl rfl rfl

/-- The two bus events keep the canonical form, whoever answers. -/
theorem Link.onSel_ok {l : Link} (h : l.ok) (v : Bool) : (l.onSel v).ok := by
  cases l with
  | openLink _ => trivial
  | device e => exact Device.onSel_ok h v

theorem Link.onXfer_ok {l : Link} (h : l.ok) (c : Config) (v free : Byte) :
    (l.onXfer c v free).ok := by
  cases l with
  | openLink _ => trivial
  | device e => exact Device.onXfer_ok h c v free

/-! ## Opcodes -/

/-- With distinct keys, an entry of a list is what looking its key up gives. -/
theorem lookup_of_mem {β : Type} {l : List (Byte × β)} (h : (l.map Prod.fst).Nodup) {o : Byte}
    {x : β} (hm : (o, x) ∈ l) : l.lookup o = some x := by
  induction l with
  | nil => cases hm
  | cons p l ih =>
    simp only [List.map_cons, List.nodup_cons] at h
    rcases List.mem_cons.1 hm with rfl | hm
    · simp
    · have hne : ¬ o = p.1 := fun he => h.1 (he ▸ List.mem_map_of_mem (f := Prod.fst) hm)
      rw [List.lookup_cons, show (o == p.1) = false by simpa using hne]
      exact ih h.2 hm

/-- The opcodes of E's commands are distinct, and none is the status or identification opcode, when
the opcode parameters are distinct (00_scope.md R8). -/
theorem devCommands_nodup {c : Config} (h : c.opc.all.Nodup) :
    (c.opc.status :: c.opc.jedec :: (devCommands c).map Prod.fst).Nodup := by
  have hinj : Function.Injective (fun i : Fin 27 => c.opc.all[i.val]'i.isLt) :=
    fun i j hij => Fin.ext ((List.Nodup.getElem_inj_iff h).1 hij)
  have key : ∀ is : List (Fin 27), is.Nodup →
      (is.map fun i : Fin 27 => c.opc.all[i.val]'i.isLt).Nodup := fun is his => his.map hinj
  unfold devCommands
  cases c.cap.hasHighFrequencyRead <;> cases c.cap.hasSecondBuffer
  · exact key [25, 26, 0, 1, 2, 4, 5, 7, 9, 11, 13, 14, 16, 18, 20, 22, 23, 24] (by decide)
  · exact key ([25, 26, 0, 1, 2, 4, 5, 7, 9, 11, 13, 14, 16, 18, 20, 22, 23, 24] ++
      [6, 8, 10, 12, 15, 17, 19, 21]) (by decide)
  · exact key ([25, 26, 0, 1, 2, 4, 5, 7, 9, 11, 13, 14, 16, 18, 20, 22, 23, 24] ++ [3]) (by decide)
  · exact key ([25, 26, 0, 1, 2, 4, 5, 7, 9, 11, 13, 14, 16, 18, 20, 22, 23, 24] ++
      [3, 6, 8, 10, 12, 15, 17, 19, 21]) (by decide)

/-- A command's opcode byte starts the address of that command, on a ready E. -/
theorem Device.onOpcode_command {e : Device} {c : Config} (h : c.opc.all.Nodup) (hb : e.busy = 0)
    {o : Byte} {cmd : DevCmd} (hm : (o, cmd) ∈ devCommands c) :
    e.onOpcode c o = { e with xact := .addr cmd [] } := by
  have hn := devCommands_nodup h
  simp only [List.nodup_cons, List.mem_cons, not_or] at hn
  have ho := List.mem_map_of_mem (f := Prod.fst) hm
  have h1 : o ≠ c.opc.status := fun he => hn.1.2 (he ▸ ho)
  have h2 : o ≠ c.opc.jedec := fun he => hn.2.1 (he ▸ ho)
  simp [Device.onOpcode, h1, h2, hb, lookup_of_mem hn.2.2 hm]
end Sys2Proof.Machine
end

