-- ==== Sys2Proof/Laws/State.lean ====
section
/-! SUPPORT. One lemma per field per named update of State, so that no proof unfolds a record
update. -/

namespace Sys2Proof.Machine

/-! ## `State.select` -/

@[simp] theorem State.select_cfg (s : State) (v : Bool) : (s.select v).cfg = s.cfg := rfl
@[simp] theorem State.select_mfr (s : State) (v : Bool) : (s.select v).mfr = s.mfr := rfl
@[simp] theorem State.select_did0 (s : State) (v : Bool) : (s.select v).did0 = s.did0 := rfl
@[simp] theorem State.select_did1 (s : State) (v : Bool) : (s.select v).did1 = s.did1 := rfl
@[simp] theorem State.select_dens (s : State) (v : Bool) : (s.select v).dens = s.dens := rfl
@[simp] theorem State.select_psm (s : State) (v : Bool) : (s.select v).psm = s.psm := rfl
@[simp] theorem State.select_valid (s : State) (v : Bool) : (s.select v).valid = s.valid := rfl
@[simp] theorem State.select_phase (s : State) (v : Bool) : (s.select v).phase = s.phase := rfl
@[simp] theorem State.select_sel (s : State) (v : Bool) : (s.select v).sel = v := rfl
@[simp] theorem State.select_rs (s : State) (v : Bool) : (s.select v).rs = s.rs := rfl
@[simp] theorem State.select_hdr (s : State) (v : Bool) : (s.select v).hdr = s.hdr := rfl
@[simp] theorem State.select_cnt (s : State) (v : Bool) : (s.select v).cnt = s.cnt := rfl
@[simp] theorem State.select_fc (s : State) (v : Bool) : (s.select v).fc = s.fc := rfl
@[simp] theorem State.select_sr1 (s : State) (v : Bool) : (s.select v).sr1 = s.sr1 := rfl
@[simp] theorem State.select_sr2 (s : State) (v : Bool) : (s.select v).sr2 = s.sr2 := rfl
@[simp] theorem State.select_requests (s : State) (v : Bool) :
    (s.select v).requests = s.requests := rfl
@[simp] theorem State.select_resetReq (s : State) (v : Bool) :
    (s.select v).resetReq = s.resetReq := rfl
@[simp] theorem State.select_job (s : State) (v : Bool) : (s.select v).job = s.job := rfl
@[simp] theorem State.select_out (s : State) (v : Bool) : (s.select v).out = s.out := rfl
@[simp] theorem State.select_link (s : State) (v : Bool) : (s.select v).link = s.link.onSel v := rfl
@[simp] theorem State.select_trace (s : State) (v : Bool) :
    (s.select v).trace = s.trace ++ [.sel v] := rfl
@[simp] theorem State.select_delivered (s : State) (v : Bool) :
    (s.select v).delivered = s.delivered := rfl

/-! ## `State.xfer` -/

@[simp] theorem State.xfer_cfg (s : State) (o : Byte) (fc : FreqClass) :
    (s.xfer o fc).cfg = s.cfg := rfl
@[simp] theorem State.xfer_mfr (s : State) (o : Byte) (fc : FreqClass) :
    (s.xfer o fc).mfr = s.mfr := rfl
@[simp] theorem State.xfer_did0 (s : State) (o : Byte) (fc : FreqClass) :
    (s.xfer o fc).did0 = s.did0 := rfl
@[simp] theorem State.xfer_did1 (s : State) (o : Byte) (fc : FreqClass) :
    (s.xfer o fc).did1 = s.did1 := rfl
@[simp] theorem State.xfer_dens (s : State) (o : Byte) (fc : FreqClass) :
    (s.xfer o fc).dens = s.dens := rfl
@[simp] theorem State.xfer_psm (s : State) (o : Byte) (fc : FreqClass) :
    (s.xfer o fc).psm = s.psm := rfl
@[simp] theorem State.xfer_valid (s : State) (o : Byte) (fc : FreqClass) :
    (s.xfer o fc).valid = s.valid := rfl
@[simp] theorem State.xfer_phase (s : State) (o : Byte) (fc : FreqClass) :
    (s.xfer o fc).phase = s.phase := rfl
@[simp] theorem State.xfer_sel (s : State) (o : Byte) (fc : FreqClass) :
    (s.xfer o fc).sel = s.sel := rfl
@[simp] theorem State.xfer_rs (s : State) (o : Byte) (fc : FreqClass) :
    (s.xfer o fc).rs = s.rs := rfl
@[simp] theorem State.xfer_hdr (s : State) (o : Byte) (fc : FreqClass) :
    (s.xfer o fc).hdr = s.hdr := rfl
@[simp] theorem State.xfer_cnt (s : State) (o : Byte) (fc : FreqClass) :
    (s.xfer o fc).cnt = s.cnt := rfl
@[simp] theorem State.xfer_fc (s : State) (o : Byte) (fc : FreqClass) :
    (s.xfer o fc).fc = s.fc := rfl
@[simp] theorem State.xfer_sr1 (s : State) (o : Byte) (fc : FreqClass) :
    (s.xfer o fc).sr1 = s.sr1 := rfl
@[simp] theorem State.xfer_sr2 (s : State) (o : Byte) (fc : FreqClass) :
    (s.xfer o fc).sr2 = s.sr2 := rfl
@[simp] theorem State.xfer_requests (s : State) (o : Byte) (fc : FreqClass) :
    (s.xfer o fc).requests = s.requests := rfl
@[simp] theorem State.xfer_resetReq (s : State) (o : Byte) (fc : FreqClass) :
    (s.xfer o fc).resetReq = s.resetReq := rfl
@[simp] theorem State.xfer_job (s : State) (o : Byte) (fc : FreqClass) :
    (s.xfer o fc).job = s.job := rfl
@[simp] theorem State.xfer_out (s : State) (o : Byte) (fc : FreqClass) :
    (s.xfer o fc).out = s.out := rfl
@[simp] theorem State.xfer_link (s : State) (o : Byte) (fc : FreqClass) :
    (s.xfer o fc).link = s.link.onXfer s.cfg o (s.freeByte o fc) := rfl
@[simp] theorem State.xfer_trace (s : State) (o : Byte) (fc : FreqClass) :
    (s.xfer o fc).trace = s.trace ++ [.xfer o fc (s.answer o fc)] := rfl
@[simp] theorem State.xfer_delivered (s : State) (o : Byte) (fc : FreqClass) :
    (s.xfer o fc).delivered = s.delivered := rfl

/-! ## `State.report` -/

@[simp] theorem State.report_cfg (s : State) (o : OpOutcome) : (s.report o).cfg = s.cfg := rfl
@[simp] theorem State.report_mfr (s : State) (o : OpOutcome) : (s.report o).mfr = s.mfr := rfl
@[simp] theorem State.report_did0 (s : State) (o : OpOutcome) : (s.report o).did0 = s.did0 := rfl
@[simp] theorem State.report_did1 (s : State) (o : OpOutcome) : (s.report o).did1 = s.did1 := rfl
@[simp] theorem State.report_dens (s : State) (o : OpOutcome) : (s.report o).dens = s.dens := rfl
@[simp] theorem State.report_psm (s : State) (o : OpOutcome) : (s.report o).psm = s.psm := rfl
@[simp] theorem State.report_valid (s : State) (o : OpOutcome) : (s.report o).valid = s.valid := rfl
@[simp] theorem State.report_phase (s : State) (o : OpOutcome) : (s.report o).phase = s.phase := rfl
@[simp] theorem State.report_sel (s : State) (o : OpOutcome) : (s.report o).sel = s.sel := rfl
@[simp] theorem State.report_rs (s : State) (o : OpOutcome) : (s.report o).rs = s.rs := rfl
@[simp] theorem State.report_hdr (s : State) (o : OpOutcome) : (s.report o).hdr = s.hdr := rfl
@[simp] theorem State.report_cnt (s : State) (o : OpOutcome) : (s.report o).cnt = s.cnt := rfl
@[simp] theorem State.report_fc (s : State) (o : OpOutcome) : (s.report o).fc = s.fc := rfl
@[simp] theorem State.report_sr1 (s : State) (o : OpOutcome) : (s.report o).sr1 = s.sr1 := rfl
@[simp] theorem State.report_sr2 (s : State) (o : OpOutcome) : (s.report o).sr2 = s.sr2 := rfl
@[simp] theorem State.report_requests (s : State) (o : OpOutcome) :
    (s.report o).requests = s.requests := rfl
@[simp] theorem State.report_resetReq (s : State) (o : OpOutcome) :
    (s.report o).resetReq = s.resetReq := rfl
@[simp] theorem State.report_job (s : State) (o : OpOutcome) : (s.report o).job = s.job := rfl
@[simp] theorem State.report_out (s : State) (o : OpOutcome) : (s.report o).out = s.out := rfl
@[simp] theorem State.report_link (s : State) (o : OpOutcome) : (s.report o).link = s.link := rfl
@[simp] theorem State.report_trace (s : State) (o : OpOutcome) : (s.report o).trace = s.trace := rfl
@[simp] theorem State.report_delivered (s : State) (o : OpOutcome) :
    (s.report o).delivered = s.delivered ++ [⟨o, []⟩] := rfl

/-! ## `State.conclude` -/

@[simp] theorem State.conclude_cfg (s : State) (o : OpOutcome) (bs : List Byte) :
    (s.conclude o bs).cfg = s.cfg := rfl
@[simp] theorem State.conclude_mfr (s : State) (o : OpOutcome) (bs : List Byte) :
    (s.conclude o bs).mfr = s.mfr := rfl
@[simp] theorem State.conclude_did0 (s : State) (o : OpOutcome) (bs : List Byte) :
    (s.conclude o bs).did0 = s.did0 := rfl
@[simp] theorem State.conclude_did1 (s : State) (o : OpOutcome) (bs : List Byte) :
    (s.conclude o bs).did1 = s.did1 := rfl
@[simp] theorem State.conclude_dens (s : State) (o : OpOutcome) (bs : List Byte) :
    (s.conclude o bs).dens = s.dens := rfl
@[simp] theorem State.conclude_psm (s : State) (o : OpOutcome) (bs : List Byte) :
    (s.conclude o bs).psm = s.psm := rfl
@[simp] theorem State.conclude_valid (s : State) (o : OpOutcome) (bs : List Byte) :
    (s.conclude o bs).valid = s.valid := rfl
@[simp] theorem State.conclude_phase (s : State) (o : OpOutcome) (bs : List Byte) :
    (s.conclude o bs).phase = .idle := rfl
@[simp] theorem State.conclude_sel (s : State) (o : OpOutcome) (bs : List Byte) :
    (s.conclude o bs).sel = s.sel := rfl
@[simp] theorem State.conclude_rs (s : State) (o : OpOutcome) (bs : List Byte) :
    (s.conclude o bs).rs = s.rs := rfl
@[simp] theorem State.conclude_hdr (s : State) (o : OpOutcome) (bs : List Byte) :
    (s.conclude o bs).hdr = s.hdr := rfl
@[simp] theorem State.conclude_cnt (s : State) (o : OpOutcome) (bs : List Byte) :
    (s.conclude o bs).cnt = s.cnt := rfl
@[simp] theorem State.conclude_fc (s : State) (o : OpOutcome) (bs : List Byte) :
    (s.conclude o bs).fc = s.fc := rfl
@[simp] theorem State.conclude_sr1 (s : State) (o : OpOutcome) (bs : List Byte) :
    (s.conclude o bs).sr1 = s.sr1 := rfl
@[simp] theorem State.conclude_sr2 (s : State) (o : OpOutcome) (bs : List Byte) :
    (s.conclude o bs).sr2 = s.sr2 := rfl
@[simp] theorem State.conclude_requests (s : State) (o : OpOutcome) (bs : List Byte) :
    (s.conclude o bs).requests = s.requests := rfl
@[simp] theorem State.conclude_resetReq (s : State) (o : OpOutcome) (bs : List Byte) :
    (s.conclude o bs).resetReq = s.resetReq := rfl
@[simp] theorem State.conclude_job (s : State) (o : OpOutcome) (bs : List Byte) :
    (s.conclude o bs).job = none := rfl
@[simp] theorem State.conclude_out (s : State) (o : OpOutcome) (bs : List Byte) :
    (s.conclude o bs).out = s.out := rfl
@[simp] theorem State.conclude_link (s : State) (o : OpOutcome) (bs : List Byte) :
    (s.conclude o bs).link = s.link := rfl
@[simp] theorem State.conclude_trace (s : State) (o : OpOutcome) (bs : List Byte) :
    (s.conclude o bs).trace = s.trace := rfl
@[simp] theorem State.conclude_delivered (s : State) (o : OpOutcome) (bs : List Byte) :
    (s.conclude o bs).delivered = s.delivered ++ [⟨o, bs⟩] := rfl

/-! ## `State.load` -/

@[simp] theorem State.load_cfg (s : State) (f : List Byte) (fc : FreqClass) (j : Job) :
    (s.load f fc j).cfg = s.cfg := rfl
@[simp] theorem State.load_mfr (s : State) (f : List Byte) (fc : FreqClass) (j : Job) :
    (s.load f fc j).mfr = s.mfr := rfl
@[simp] theorem State.load_did0 (s : State) (f : List Byte) (fc : FreqClass) (j : Job) :
    (s.load f fc j).did0 = s.did0 := rfl
@[simp] theorem State.load_did1 (s : State) (f : List Byte) (fc : FreqClass) (j : Job) :
    (s.load f fc j).did1 = s.did1 := rfl
@[simp] theorem State.load_dens (s : State) (f : List Byte) (fc : FreqClass) (j : Job) :
    (s.load f fc j).dens = s.dens := rfl
@[simp] theorem State.load_psm (s : State) (f : List Byte) (fc : FreqClass) (j : Job) :
    (s.load f fc j).psm = s.psm := rfl
@[simp] theorem State.load_valid (s : State) (f : List Byte) (fc : FreqClass) (j : Job) :
    (s.load f fc j).valid = s.valid := rfl
@[simp] theorem State.load_phase (s : State) (f : List Byte) (fc : FreqClass) (j : Job) :
    (s.load f fc j).phase = .selOn := rfl
@[simp] theorem State.load_sel (s : State) (f : List Byte) (fc : FreqClass) (j : Job) :
    (s.load f fc j).sel = s.sel := rfl
@[simp] theorem State.load_rs (s : State) (f : List Byte) (fc : FreqClass) (j : Job) :
    (s.load f fc j).rs = s.rs := rfl
@[simp] theorem State.load_hdr (s : State) (f : List Byte) (fc : FreqClass) (j : Job) :
    (s.load f fc j).hdr = f := rfl
@[simp] theorem State.load_cnt (s : State) (f : List Byte) (fc : FreqClass) (j : Job) :
    (s.load f fc j).cnt = j.firstCount := rfl
@[simp] theorem State.load_fc (s : State) (f : List Byte) (fc : FreqClass) (j : Job) :
    (s.load f fc j).fc = fc := rfl
@[simp] theorem State.load_sr1 (s : State) (f : List Byte) (fc : FreqClass) (j : Job) :
    (s.load f fc j).sr1 = s.sr1 := rfl
@[simp] theorem State.load_sr2 (s : State) (f : List Byte) (fc : FreqClass) (j : Job) :
    (s.load f fc j).sr2 = s.sr2 := rfl
@[simp] theorem State.load_requests (s : State) (f : List Byte) (fc : FreqClass) (j : Job) :
    (s.load f fc j).requests = s.requests := rfl
@[simp] theorem State.load_resetReq (s : State) (f : List Byte) (fc : FreqClass) (j : Job) :
    (s.load f fc j).resetReq = s.resetReq := rfl
@[simp] theorem State.load_job (s : State) (f : List Byte) (fc : FreqClass) (j : Job) :
    (s.load f fc j).job = some j := rfl
@[simp] theorem State.load_out (s : State) (f : List Byte) (fc : FreqClass) (j : Job) :
    (s.load f fc j).out = [] := rfl
@[simp] theorem State.load_link (s : State) (f : List Byte) (fc : FreqClass) (j : Job) :
    (s.load f fc j).link = s.link := rfl
@[simp] theorem State.load_trace (s : State) (f : List Byte) (fc : FreqClass) (j : Job) :
    (s.load f fc j).trace = s.trace := rfl
@[simp] theorem State.load_delivered (s : State) (f : List Byte) (fc : FreqClass) (j : Job) :
    (s.load f fc j).delivered = s.delivered := rfl

/-! ## `State.observe` -/

@[simp] theorem State.observe_cfg (s : State) : s.observe.cfg = s.cfg := rfl
@[simp] theorem State.observe_mfr (s : State) : s.observe.mfr = s.mfr := rfl
@[simp] theorem State.observe_did0 (s : State) : s.observe.did0 = s.did0 := rfl
@[simp] theorem State.observe_did1 (s : State) : s.observe.did1 = s.did1 := rfl
@[simp] theorem State.observe_dens (s : State) : s.observe.dens = s.dens := rfl
@[simp] theorem State.observe_psm (s : State) : s.observe.psm = s.psm := rfl
@[simp] theorem State.observe_valid (s : State) : s.observe.valid = s.valid := rfl
@[simp] theorem State.observe_phase (s : State) : s.observe.phase = s.phase := rfl
@[simp] theorem State.observe_sel (s : State) : s.observe.sel = s.sel := rfl
@[simp] theorem State.observe_rs (s : State) : s.observe.rs = readinessOf s.cfg s.sr1 := rfl
@[simp] theorem State.observe_hdr (s : State) : s.observe.hdr = s.hdr := rfl
@[simp] theorem State.observe_cnt (s : State) : s.observe.cnt = s.cnt := rfl
@[simp] theorem State.observe_fc (s : State) : s.observe.fc = s.fc := rfl
@[simp] theorem State.observe_sr1 (s : State) : s.observe.sr1 = s.sr1 := rfl
@[simp] theorem State.observe_sr2 (s : State) : s.observe.sr2 = s.sr2 := rfl
@[simp] theorem State.observe_requests (s : State) : s.observe.requests = s.requests := rfl
@[simp] theorem State.observe_resetReq (s : State) : s.observe.resetReq = s.resetReq := rfl
@[simp] theorem State.observe_job (s : State) : s.observe.job = s.job := rfl
@[simp] theorem State.observe_out (s : State) : s.observe.out = s.out := rfl
@[simp] theorem State.observe_link (s : State) : s.observe.link = s.link := rfl
@[simp] theorem State.observe_trace (s : State) : s.observe.trace = s.trace := rfl
@[simp] theorem State.observe_delivered (s : State) : s.observe.delivered = s.delivered := rfl

/-! ## `State.refreshPsm` -/

@[simp] theorem State.refreshPsm_cfg (s : State) : s.refreshPsm.cfg = s.cfg := rfl
@[simp] theorem State.refreshPsm_mfr (s : State) : s.refreshPsm.mfr = s.mfr := rfl
@[simp] theorem State.refreshPsm_did0 (s : State) : s.refreshPsm.did0 = s.did0 := rfl
@[simp] theorem State.refreshPsm_did1 (s : State) : s.refreshPsm.did1 = s.did1 := rfl
@[simp] theorem State.refreshPsm_dens (s : State) : s.refreshPsm.dens = s.dens := rfl
@[simp] theorem State.refreshPsm_psm (s : State) : s.refreshPsm.psm = pageSizeBit s.sr1 := rfl
@[simp] theorem State.refreshPsm_valid (s : State) : s.refreshPsm.valid = s.valid := rfl
@[simp] theorem State.refreshPsm_phase (s : State) : s.refreshPsm.phase = s.phase := rfl
@[simp] theorem State.refreshPsm_sel (s : State) : s.refreshPsm.sel = s.sel := rfl
@[simp] theorem State.refreshPsm_rs (s : State) : s.refreshPsm.rs = s.rs := rfl
@[simp] theorem State.refreshPsm_hdr (s : State) : s.refreshPsm.hdr = s.hdr := rfl
@[simp] theorem State.refreshPsm_cnt (s : State) : s.refreshPsm.cnt = s.cnt := rfl
@[simp] theorem State.refreshPsm_fc (s : State) : s.refreshPsm.fc = s.fc := rfl
@[simp] theorem State.refreshPsm_sr1 (s : State) : s.refreshPsm.sr1 = s.sr1 := rfl
@[simp] theorem State.refreshPsm_sr2 (s : State) : s.refreshPsm.sr2 = s.sr2 := rfl
@[simp] theorem State.refreshPsm_requests (s : State) : s.refreshPsm.requests = s.requests := rfl
@[simp] theorem State.refreshPsm_resetReq (s : State) : s.refreshPsm.resetReq = s.resetReq := rfl
@[simp] theorem State.refreshPsm_job (s : State) : s.refreshPsm.job = s.job := rfl
@[simp] theorem State.refreshPsm_out (s : State) : s.refreshPsm.out = s.out := rfl
@[simp] theorem State.refreshPsm_link (s : State) : s.refreshPsm.link = s.link := rfl
@[simp] theorem State.refreshPsm_trace (s : State) : s.refreshPsm.trace = s.trace := rfl
@[simp] theorem State.refreshPsm_delivered (s : State) : s.refreshPsm.delivered = s.delivered := rfl

/-! ## `State.storeId` -/

@[simp] theorem State.storeId_cfg (s : State) (m d0 d1 : Byte) :
    (s.storeId m d0 d1).cfg = s.cfg := rfl
@[simp] theorem State.storeId_mfr (s : State) (m d0 d1 : Byte) : (s.storeId m d0 d1).mfr = m := rfl
@[simp] theorem State.storeId_did0 (s : State) (m d0 d1 : Byte) :
    (s.storeId m d0 d1).did0 = d0 := rfl
@[simp] theorem State.storeId_did1 (s : State) (m d0 d1 : Byte) :
    (s.storeId m d0 d1).did1 = d1 := rfl
@[simp] theorem State.storeId_dens (s : State) (m d0 d1 : Byte) :
    (s.storeId m d0 d1).dens = s.dens := rfl
@[simp] theorem State.storeId_psm (s : State) (m d0 d1 : Byte) :
    (s.storeId m d0 d1).psm = s.psm := rfl
@[simp] theorem State.storeId_valid (s : State) (m d0 d1 : Byte) :
    (s.storeId m d0 d1).valid = s.valid := rfl
@[simp] theorem State.storeId_phase (s : State) (m d0 d1 : Byte) :
    (s.storeId m d0 d1).phase = s.phase := rfl
@[simp] theorem State.storeId_sel (s : State) (m d0 d1 : Byte) :
    (s.storeId m d0 d1).sel = s.sel := rfl
@[simp] theorem State.storeId_rs (s : State) (m d0 d1 : Byte) : (s.storeId m d0 d1).rs = s.rs := rfl
@[simp] theorem State.storeId_hdr (s : State) (m d0 d1 : Byte) :
    (s.storeId m d0 d1).hdr = s.hdr := rfl
@[simp] theorem State.storeId_cnt (s : State) (m d0 d1 : Byte) :
    (s.storeId m d0 d1).cnt = s.cnt := rfl
@[simp] theorem State.storeId_fc (s : State) (m d0 d1 : Byte) : (s.storeId m d0 d1).fc = s.fc := rfl
@[simp] theorem State.storeId_sr1 (s : State) (m d0 d1 : Byte) :
    (s.storeId m d0 d1).sr1 = s.sr1 := rfl
@[simp] theorem State.storeId_sr2 (s : State) (m d0 d1 : Byte) :
    (s.storeId m d0 d1).sr2 = s.sr2 := rfl
@[simp] theorem State.storeId_requests (s : State) (m d0 d1 : Byte) :
    (s.storeId m d0 d1).requests = s.requests := rfl
@[simp] theorem State.storeId_resetReq (s : State) (m d0 d1 : Byte) :
    (s.storeId m d0 d1).resetReq = s.resetReq := rfl
@[simp] theorem State.storeId_job (s : State) (m d0 d1 : Byte) :
    (s.storeId m d0 d1).job = s.job := rfl
@[simp] theorem State.storeId_out (s : State) (m d0 d1 : Byte) :
    (s.storeId m d0 d1).out = s.out := rfl
@[simp] theorem State.storeId_link (s : State) (m d0 d1 : Byte) :
    (s.storeId m d0 d1).link = s.link := rfl
@[simp] theorem State.storeId_trace (s : State) (m d0 d1 : Byte) :
    (s.storeId m d0 d1).trace = s.trace := rfl
@[simp] theorem State.storeId_delivered (s : State) (m d0 d1 : Byte) :
    (s.storeId m d0 d1).delivered = s.delivered := rfl

/-! ## `State.capture` -/

@[simp] theorem State.capture_cfg (s : State) (d : DataPhase) (k : Nat) (i : Byte) :
    (s.capture d k i).cfg = s.cfg := by
  unfold State.capture; repeat' split
  all_goals rfl
@[simp] theorem State.capture_mfr (s : State) (d : DataPhase) (k : Nat) (i : Byte) :
    (s.capture d k i).mfr = s.mfr := by
  unfold State.capture; repeat' split
  all_goals rfl
@[simp] theorem State.capture_did0 (s : State) (d : DataPhase) (k : Nat) (i : Byte) :
    (s.capture d k i).did0 = s.did0 := by
  unfold State.capture; repeat' split
  all_goals rfl
@[simp] theorem State.capture_did1 (s : State) (d : DataPhase) (k : Nat) (i : Byte) :
    (s.capture d k i).did1 = s.did1 := by
  unfold State.capture; repeat' split
  all_goals rfl
@[simp] theorem State.capture_dens (s : State) (d : DataPhase) (k : Nat) (i : Byte) :
    (s.capture d k i).dens = s.dens := by
  unfold State.capture; repeat' split
  all_goals rfl
@[simp] theorem State.capture_psm (s : State) (d : DataPhase) (k : Nat) (i : Byte) :
    (s.capture d k i).psm = s.psm := by
  unfold State.capture; repeat' split
  all_goals rfl
@[simp] theorem State.capture_valid (s : State) (d : DataPhase) (k : Nat) (i : Byte) :
    (s.capture d k i).valid = s.valid := by
  unfold State.capture; repeat' split
  all_goals rfl
@[simp] theorem State.capture_phase (s : State) (d : DataPhase) (k : Nat) (i : Byte) :
    (s.capture d k i).phase = s.phase := by
  unfold State.capture; repeat' split
  all_goals rfl
@[simp] theorem State.capture_sel (s : State) (d : DataPhase) (k : Nat) (i : Byte) :
    (s.capture d k i).sel = s.sel := by
  unfold State.capture; repeat' split
  all_goals rfl
@[simp] theorem State.capture_rs (s : State) (d : DataPhase) (k : Nat) (i : Byte) :
    (s.capture d k i).rs = s.rs := by
  unfold State.capture; repeat' split
  all_goals rfl
@[simp] theorem State.capture_hdr (s : State) (d : DataPhase) (k : Nat) (i : Byte) :
    (s.capture d k i).hdr = s.hdr := by
  unfold State.capture; repeat' split
  all_goals rfl
@[simp] theorem State.capture_cnt (s : State) (d : DataPhase) (k : Nat) (i : Byte) :
    (s.capture d k i).cnt = s.cnt := by
  unfold State.capture; repeat' split
  all_goals rfl
@[simp] theorem State.capture_fc (s : State) (d : DataPhase) (k : Nat) (i : Byte) :
    (s.capture d k i).fc = s.fc := by
  unfold State.capture; repeat' split
  all_goals rfl
@[simp] theorem State.capture_requests (s : State) (d : DataPhase) (k : Nat) (i : Byte) :
    (s.capture d k i).requests = s.requests := by
  unfold State.capture; repeat' split
  all_goals rfl
@[simp] theorem State.capture_resetReq (s : State) (d : DataPhase) (k : Nat) (i : Byte) :
    (s.capture d k i).resetReq = s.resetReq := by
  unfold State.capture; repeat' split
  all_goals rfl
@[simp] theorem State.capture_job (s : State) (d : DataPhase) (k : Nat) (i : Byte) :
    (s.capture d k i).job = s.job := by
  unfold State.capture; repeat' split
  all_goals rfl
@[simp] theorem State.capture_link (s : State) (d : DataPhase) (k : Nat) (i : Byte) :
    (s.capture d k i).link = s.link := by
  unfold State.capture; repeat' split
  all_goals rfl
@[simp] theorem State.capture_trace (s : State) (d : DataPhase) (k : Nat) (i : Byte) :
    (s.capture d k i).trace = s.trace := by
  unfold State.capture; repeat' split
  all_goals rfl
@[simp] theorem State.capture_delivered (s : State) (d : DataPhase) (k : Nat) (i : Byte) :
    (s.capture d k i).delivered = s.delivered := by
  unfold State.capture; repeat' split
  all_goals rfl

end Sys2Proof.Machine
end

