-- ==== Sys2Proof/Laws/Run.lean ====
section
/-! SUPPORT. What a step is in each phase, and how runs of steps compose. -/

namespace Sys2Proof.Machine

/-! ## One step -/

theorem step_reset {s : State} (h : s.resetReq = true) : step s = .next s.applyReset := by
  simp [step, h]

theorem step_idle {s : State} (hr : s.resetReq = false) (hp : s.phase = .idle) :
    step s = fetch s := by simp [step, hr, hp]

theorem step_job {s : State} {j : Job} (hr : s.resetReq = false) (hp : s.phase ≠ .idle)
    (hj : s.job = some j) : step s = runJob j s := by simp [step, microStep, hr, hp, hj]

theorem fetch_next {s t : State} (h : fetch s = .next t) : ∃ r rest i, s.requests = r :: rest ∧
    decode r = .ok i ∧ exec i { s with requests := rest } = .next t := by
  unfold fetch at h
  split at h
  · cases h
  · split at h
    · cases h
    · exact ⟨_, _, _, ‹_›, ‹_›, h⟩

/-- What a step that answers a next state was: a reset, an accepted request, or a micro-step. -/
theorem step_next {s t : State} (h : step s = .next t) :
    (s.resetReq = true ∧ t = s.applyReset) ∨
    (s.resetReq = false ∧ s.phase = .idle ∧ ∃ r rest i, s.requests = r :: rest ∧
      decode r = .ok i ∧ exec i { s with requests := rest } = .next t) ∨
    (s.resetReq = false ∧ s.phase ≠ .idle ∧ ∃ j, s.job = some j ∧ runJob j s = .next t) := by
  unfold step at h
  split at h
  · exact .inl ⟨‹_›, by simpa using h.symm⟩
  · have hr : s.resetReq = false := by simpa using ‹¬ s.resetReq = true›
    split at h
    · exact .inr (.inl ⟨hr, ‹_›, fetch_next h⟩)
    · unfold microStep at h
      split at h
      · exact .inr (.inr ⟨hr, ‹_›, _, ‹_›, h⟩)
      · cases h

/-! ## What a micro-step can do -/

/-- The ends of a command transaction (40_primitives.md R131, row SEL_OFF): each with the finish it
belongs to. -/
inductive Closes (j : Job) (s : State) : State → Prop
  | deliver (o : OpOutcome) (hf : j.finish = .deliver o) :
      Closes j s ((s.select false).conclude o s.out)
  | poll (o : OpOutcome) (hf : j.finish = .poll o) :
      Closes j s { s.select false with phase := .psOn }
  | query (q : StatusBit) (hf : j.finish = .query q) :
      Closes j s ((s.select false).observe.conclude (.bit (queryBit s.cfg q s.sr1 s.sr2)) [])
  | refresh (hf : j.finish = .refresh) :
      Closes j s ((s.select false).observe.refreshPsm.conclude (.bit (pageSizeBit s.sr1)) [])
  | invalid (hf : j.finish = .identify ∨ j.finish = .initIdent) (m d0 d1 : Byte)
      (ho : s.out = [m, d0, d1]) (hd : densityDecode s.cfg d0 = none) :
      Closes j s ({ (s.select false).storeId m d0 d1 with valid := false }.conclude
        .invalidDensity [])
  | identify (hf : j.finish = .identify) (m d0 d1 d : Byte) (ho : s.out = [m, d0, d1])
      (hd : densityDecode s.cfg d0 = some d) :
      Closes j s ({ (s.select false).storeId m d0 d1 with dens := d }.conclude .ok [])
  | initIdent (hf : j.finish = .initIdent) (m d0 d1 d : Byte) (ho : s.out = [m, d0, d1])
      (hd : densityDecode s.cfg d0 = some d) :
      Closes j s ({ (s.select false).storeId m d0 d1 with dens := d }.load
        (frameO s.cfg.opc.status) s.cfg.fcCmd (snapshotJob .initStatus))
  | initStatus (hf : j.finish = .initStatus) :
      Closes j s ({ (s.select false).observe.refreshPsm with valid := true }.conclude .ok [])

theorem stepSelOff_next {j : Job} {s t : State} (h : stepSelOff j s = .next t) :
    Closes j s t := by
  unfold stepSelOff at h
  cases hf : j.finish <;> simp only [hf] at h
  case deliver o => cases h; exact .deliver o hf
  case poll o => cases h; exact .poll o hf
  case query q => cases h; exact .query q hf
  case refresh => cases h; exact .refresh hf
  case identify =>
    unfold closeIdentify at h
    split at h <;> try cases h
    split at h <;> cases h
    · exact .invalid (.inl hf) _ _ _ ‹_› ‹_›
    · exact .identify hf _ _ _ _ ‹_› ‹_›
  case initIdent =>
    unfold closeInitIdent at h
    split at h <;> try cases h
    split at h <;> cases h
    · exact .invalid (.inr hf) _ _ _ ‹_› ‹_›
    · exact .initIdent hf _ _ _ _ ‹_› ‹_›
  case initStatus => cases h; exact .initStatus hf

/-- Every end of a command transaction performs `SEL(0)` and nothing else on the bus. -/
theorem Closes.frame {j : Job} {s t : State} (h : Closes j s t) :
    t.sel = false ∧ t.trace = s.trace ++ [.sel false] ∧ t.link = s.link.onSel false ∧
      t.cfg = s.cfg ∧ t.requests = s.requests ∧ t.resetReq = s.resetReq := by
  cases h <;> simp

/-- Every row of the table of 40_primitives.md R131 after IDLE, with the condition it runs under. -/
inductive Micro (j : Job) (s : State) : State → Prop
  | selOn (hp : s.phase = .selOn) :
      Micro j s { s.select true with rs := if j.marksBusy then .busy else s.rs, phase := .hdr 0 }
  | hdr (i : Nat) (b : Byte) (rest : List Byte) (hp : s.phase = .hdr i) (hh : s.hdr = b :: rest) :
      Micro j s { s.xfer b s.fc with
        hdr := rest, phase := if rest = [] then j.afterHeader else .hdr (i + 1) }
  | dmyLast (k : Nat) (hp : s.phase = .dmy k) (hc : s.cnt - 1 = 0) :
      Micro j s { s.xfer s.cfg.fill s.fc with cnt := j.data.count, phase := j.data.firstPhase }
  | dmy (k : Nat) (hp : s.phase = .dmy k) (hc : s.cnt - 1 ≠ 0) :
      Micro j s { s.xfer s.cfg.fill s.fc with cnt := s.cnt - 1, phase := .dmy (k + 1) }
  | din (k : Nat) (hp : s.phase = .din k) :
      Micro j s { (s.xfer s.cfg.fill s.fc).capture j.data k (s.answer s.cfg.fill s.fc) with
        cnt := s.cnt - 1, phase := if s.cnt - 1 = 0 then .selOff else .din (k + 1) }
  | dout (k : Nat) (data : List Byte) (b : Byte) (hp : s.phase = .dout k)
      (hd : j.data = .payload data) (hb : data[k]? = some b) :
      Micro j s { s.xfer b s.fc with
        cnt := s.cnt - 1, phase := if s.cnt - 1 = 0 then .selOff else .dout (k + 1) }
  | selOff (hp : s.phase = .selOff) (t : State) (h : Closes j s t) : Micro j s t
  | psOn (hp : s.phase = .psOn) : Micro j s { s.select true with phase := .psOpc }
  | psOpc (hp : s.phase = .psOpc) :
      Micro j s { s.xfer s.cfg.opc.status s.cfg.fcCmd with phase := .psB1 }
  | psB1 (hp : s.phase = .psB1) :
      Micro j s { s.xfer s.cfg.fill s.cfg.fcCmd with
        sr1 := s.answer s.cfg.fill s.cfg.fcCmd, phase := .psB2 }
  | psB2 (hp : s.phase = .psB2) :
      Micro j s { s.xfer s.cfg.fill s.cfg.fcCmd with
        sr2 := s.answer s.cfg.fill s.cfg.fcCmd, phase := .psOff }
  | psReady (hp : s.phase = .psOff) (o : OpOutcome) (hf : j.finish = .poll o)
      (hr : readyBit s.cfg s.sr1 = true) :
      Micro j s ((s.select false).observe.conclude
        (if errorBit s.cfg s.sr2 then .fail else o) [])
  | psBusy (hp : s.phase = .psOff) (o : OpOutcome) (hf : j.finish = .poll o)
      (hr : readyBit s.cfg s.sr1 = false) :
      Micro j s { (s.select false).observe with phase := .psOn }

theorem runJob_next {j : Job} {s t : State} (h : runJob j s = .next t) : Micro j s t := by
  cases hp : s.phase <;> simp only [runJob, hp] at h
  case idle => cases h
  case selOn => cases h; exact .selOn hp
  case hdr i =>
    unfold stepHdr at h
    split at h
    · cases h
    · cases h; exact .hdr i _ _ hp ‹_›
  case dmy k =>
    unfold stepDmy at h
    split at h
    · cases h; exact .dmyLast k hp ‹_›
    · cases h; exact .dmy k hp ‹_›
  case din k => cases h; exact .din k hp
  case dout k =>
    unfold stepDout at h
    split at h <;> try cases h
    split at h <;> cases h
    exact .dout k _ _ hp ‹_› ‹_›
  case selOff => exact .selOff hp t (stepSelOff_next h)
  case psOn => cases h; exact .psOn hp
  case psOpc => cases h; exact .psOpc hp
  case psB1 => cases h; exact .psB1 hp
  case psB2 => cases h; exact .psB2 hp
  case psOff =>
    unfold stepPsOff at h
    split at h <;> try cases h
    split at h <;> cases h
    · exact .psReady hp _ ‹_› ‹_›
    · exact .psBusy hp _ ‹_› (by simpa using ‹¬ readyBit _ _ = true›)

/-! ## Runs -/

@[simp] theorem stepN_zero (s : State) : stepN 0 s = .next s := rfl

theorem stepN_succ {s t : State} (h : step s = .next t) (k : Nat) :
    stepN (k + 1) s = stepN k t := by simp [stepN, h]

theorem stepN_add {s t : State} {m : Nat} (h : stepN m s = .next t) (n : Nat) :
    stepN (m + n) s = stepN n t := by
  induction m generalizing s with
  | zero => cases h; rw [Nat.zero_add]
  | succ m ih =>
    rw [Nat.succ_add]
    cases hs : step s with
    | next u =>
      rw [stepN_succ hs] at h ⊢
      exact ih h
    | fault r => simp [stepN, hs] at h
    | refused r => simp [stepN, hs] at h

@[simp] theorem sentOf_append (a b : List Event) : sentOf (a ++ b) = sentOf a ++ sentOf b := by
  simp [sentOf]

@[simp] theorem answersOf_append (a b : List Event) :
    answersOf (a ++ b) = answersOf a ++ answersOf b := by simp [answersOf]

@[simp] theorem sentOf_sel (v : Bool) (es : List Event) :
    sentOf (.sel v :: es) = .sel v :: sentOf es := rfl

@[simp] theorem sentOf_xfer (o : Byte) (fc : FreqClass) (i : Byte) (es : List Event) :
    sentOf (.xfer o fc i :: es) = .xfer o fc :: sentOf es := rfl

@[simp] theorem sentOf_nil : sentOf [] = [] := rfl

@[simp] theorem answersOf_sel (v : Bool) (es : List Event) :
    answersOf (.sel v :: es) = answersOf es := rfl

@[simp] theorem answersOf_xfer (o : Byte) (fc : FreqClass) (i : Byte) (es : List Event) :
    answersOf (.xfer o fc i :: es) = i :: answersOf es := rfl

@[simp] theorem answersOf_nil : answersOf [] = [] := rfl

end Sys2Proof.Machine
end

