-- ==== Sys2Proof/Laws/Invariant.lean ====
section
/-! SUPPORT. What the invariant says in each situation, and small facts about the running request. -/

namespace Sys2Proof.Machine

theorem MachineInv.idle {s : State} (h : MachineInv s) (hp : s.phase = .idle) :
    s.job = none ∧ s.sel = false := by
  have hs := h.sequencer
  simp only [seqOk, hp] at hs
  cases hj : s.job <;> simp_all

theorem MachineInv.not_idle {s : State} (h : MachineInv s) {j : Job} (hj : s.job = some j) :
    s.phase ≠ .idle := fun hp => by simp [(h.idle hp).1] at hj

theorem MachineInv.job_some {s : State} (h : MachineInv s) (hp : s.phase ≠ .idle) :
    ∃ j, s.job = some j := by
  have hs := h.sequencer
  simp only [seqOk] at hs
  cases hj : s.job with
  | none => cases hph : s.phase <;> simp_all
  | some j => exact ⟨j, rfl⟩

theorem MachineInv.job_ok {s : State} (h : MachineInv s) {j : Job} (hj : s.job = some j) :
    j.ok = true := by
  have hs := h.sequencer
  simp only [seqOk, hj] at hs
  cases hph : s.phase <;> try simp_all
  case hdr i => cases i <;> simp_all

/-- The outcome an operation with a delivery or a poll can have. -/
theorem Job.ok_outcome {j : Job} (h : j.ok = true) {o : OpOutcome}
    (hf : j.finish = .deliver o ∨ j.finish = .poll o) : o = .ok ∨ ∃ n, o = .done n := by
  unfold Job.ok at h
  rcases hf with hf | hf <;> rw [hf] at h <;> cases hd : j.data <;> simp_all

/-- A snapshot is taken by the status queries, PSM.REFRESH and the second half of INIT alone. -/
theorem Job.ok_snapshot {j : Job} (h : j.ok = true) : j.data = .snapshot ↔
    ((∃ q, j.finish = .query q) ∨ j.finish = .refresh ∨ j.finish = .initStatus) := by
  unfold Job.ok at h
  cases hd : j.data <;> cases hf : j.finish <;> simp_all

/-- The identification bytes are read by IDENTIFY and INIT alone. -/
theorem Job.ok_ident {j : Job} (h : j.ok = true) :
    j.data = .ident ↔ (j.finish = .identify ∨ j.finish = .initIdent) := by
  unfold Job.ok at h
  cases hd : j.data <;> cases hf : j.finish <;> simp_all

/-- A payload's length fits a byte count. -/
theorem Job.ok_payload {j : Job} (h : j.ok = true) {data : List Byte}
    (hd : j.data = .payload data) : data.length < 2 ^ 32 := by
  unfold Job.ok at h
  rw [hd] at h
  split at h <;> simp_all

theorem DataPhase.firstPhase_ne_idle (d : DataPhase) : d.firstPhase ≠ .idle := by
  unfold DataPhase.firstPhase
  split
  · simp
  · cases d <;> simp

theorem Job.afterHeader_ne_idle (j : Job) : j.afterHeader ≠ .idle := by
  unfold Job.afterHeader
  split
  · exact DataPhase.firstPhase_ne_idle _
  · simp

/-- Dummy, payload and read-back counts go down by one without wrapping. -/
theorem count_pred {c : Len} (h : c ≠ 0) : (c - 1).toNat = c.toNat - 1 ∧ 0 < c.toNat := by
  constructor <;> bv_omega

end Sys2Proof.Machine
end

