-- ==== Sys2Proof/Laws/Ops.lean ====
section
/-! SUPPORT. What the shared operations can do, each said once: the entry checks, starting an
operation, and through them every accepted request. -/

namespace Sys2Proof.Machine

/-! ## Entry checks -/

theorem gate_true (s : State) (k : Result) : gate true s k = k := rfl

theorem gate_false (s : State) (k : Result) : gate false s k = .next (s.report .unsupported) := rfl

theorem needInit_valid {s : State} (h : s.valid = true) (k : Result) : needInit s k = k := by
  simp [needInit, h]

theorem needInit_invalid {s : State} (h : s.valid = false) (k : Result) :
    needInit s k = .next (s.report .notInitialised) := by simp [needInit, h]

theorem gate_next {c : Bool} {s t : State} {k : Result} (h : gate c s k = .next t) :
    (c = false ∧ t = s.report .unsupported) ∨ (c = true ∧ k = .next t) := by
  cases c
  · exact .inl ⟨rfl, by simpa [gate] using h.symm⟩
  · exact .inr ⟨rfl, h⟩

theorem needInit_next {s t : State} {k : Result} (h : needInit s k = .next t) :
    (s.valid = false ∧ t = s.report .notInitialised) ∨ (s.valid = true ∧ k = .next t) := by
  cases hv : s.valid
  · exact .inl ⟨rfl, by simpa [needInit_invalid hv] using h.symm⟩
  · exact .inr ⟨rfl, by simpa [needInit_valid hv] using h⟩

theorem withWire_next {w : Option Wire} {t : State} {k : Wire → Result}
    (h : withWire w k = .next t) : ∃ x, w = some x ∧ k x = .next t := by
  cases w with
  | none => simp [withWire] at h
  | some x => exact ⟨x, rfl, h⟩

theorem start_next {s t : State} {f : List Byte} {fc : FreqClass} {j : Job}
    (h : start s f fc j = .next t) : t = s.load f fc j := by simpa [start] using h.symm

/-! ## Every accepted request -/

/-- What the IDLE row can do with a request (40_primitives.md R131): report at once, or load an
operation whose job and frame are of the table. -/
inductive Accepts (i : Instr) (s : State) : State → Prop
  | unsupported (h : missingCapability s.cfg i = true) : Accepts i s (s.report .unsupported)
  | notInitialised (h : missingCapability s.cfg i = false) (hn : needsValid i = true)
      (hv : s.valid = false) : Accepts i s (s.report .notInitialised)
  | cached (hi : i = .psmCached) (hv : s.valid = true) : Accepts i s (s.report (.bit s.psm))
  | deinit (hi : i = .deinit) : Accepts i s ({ s with valid := false }.report .ok)
  | load (h : missingCapability s.cfg i = false) (hn : needsValid i = true → s.valid = true)
      (hi : i ≠ .init) (frame : List Byte) (fc : FreqClass) (j : Job)
      (hj : i.wellFormed = true → j.ok = true)
      (hf : frameOk s.cfg frame = true) (hs : j.finish ≠ .initStatus) (hd : j.finish ≠ .initIdent) :
      Accepts i s (s.load frame fc j)
  | init (hi : i = .init) : Accepts i s ({ s with valid := false }.load (frameO s.cfg.opc.jedec)
      s.cfg.fcCmd { dummy := 0, data := .ident, marksBusy := false, finish := .initIdent })

theorem frameOk_frameOA {c : Config} {o : Byte} (h : o ∈ c.opc.openers) (w : Wire) :
    frameOk c (frameOA o w) = true := by simpa [frameOk, frameOA] using h

theorem frameOk_frameO {c : Config} {o : Byte} (h : o ∈ c.opc.openers) :
    frameOk c (frameO o) = true := by simpa [frameOk, frameO] using h

theorem accepts_needInit {i : Instr} {s t : State} {w : Option Wire} {k : Wire → Result}
    (hm : missingCapability s.cfg i = false) (hn : needsValid i = true)
    (h : needInit s (withWire w k) = .next t)
    (hk : ∀ x, k x = .next t → s.valid = true → Accepts i s t) : Accepts i s t := by
  rcases needInit_next h with ⟨hv, rfl⟩ | ⟨hv, h⟩
  · exact .notInitialised hm hn hv
  · obtain ⟨x, -, h⟩ := withWire_next h
    exact hk x h hv

theorem accepts_gate {i : Instr} {s t : State} {c : Bool} {k : Result}
    (hm : missingCapability s.cfg i = !c) (h : gate c s k = .next t)
    (hk : missingCapability s.cfg i = false → k = .next t → Accepts i s t) : Accepts i s t := by
  rcases gate_next h with ⟨rfl, rfl⟩ | ⟨rfl, h⟩
  · exact .unsupported hm
  · exact hk hm h

theorem payload_lt {i : Instr} (h : i.wellFormed = true) : i.payload.length < 2 ^ 32 :=
  of_decide_eq_true h

theorem accepts_start {i : Instr} {s t : State} {o : Byte} {w : Wire} {fc : FreqClass} {j : Job}
    (hm : missingCapability s.cfg i = false) (hv : s.valid = true) (hi : i ≠ .init)
    (ho : o ∈ s.cfg.opc.openers) (hj : i.wellFormed = true → j.ok = true)
    (hs : j.finish ≠ .initStatus) (hd : j.finish ≠ .initIdent)
    (h : start s (frameOA o w) fc j = .next t) : Accepts i s t := by
  obtain rfl := start_next h
  exact .load hm (fun _ => hv) hi _ _ _ hj (frameOk_frameOA ho w) hs hd

theorem exec_accepts {i : Instr} {s t : State} (h : exec i s = .next t) : Accepts i s t := by
  cases i
  case readFc0 | readFc1 | readFc2 | pagerd | bufrdLow1 | bufrdHigh1 =>
    exact accepts_needInit rfl rfl h fun w h hv => accepts_start rfl hv (by simp)
      (by simp [Opcodes.openers, Opcodes.all]) (fun _ => by simp [Job.ok]) (by simp) (by simp) h
  case readFc3 | bufrdLow2 | bufrdHigh2 =>
    exact accepts_gate rfl h fun hm h =>
      accepts_needInit hm rfl h fun w h hv => accepts_start hm hv (by simp)
        (by simp [Opcodes.openers, Opcodes.all]) (fun _ => by simp [Job.ok]) (by simp) (by simp) h
  case bufwr1 | wtbE1 | wtbN =>
    exact accepts_needInit rfl rfl h fun w h hv => accepts_start rfl hv (by simp)
      (by simp [Opcodes.openers, Opcodes.all])
      (fun hw => by simpa [Job.ok, Instr.payload] using payload_lt hw) (by simp) (by simp) h
  case bufwr2 | wtbE2 =>
    exact accepts_gate rfl h fun hm h =>
      accepts_needInit hm rfl h fun w h hv => accepts_start hm hv (by simp)
      (by simp [Opcodes.openers, Opcodes.all])
      (fun hw => by simpa [Job.ok, Instr.payload] using payload_lt hw) (by simp) (by simp) h
  case wrbackE1 | wrbackN1 | copy1 | cmp1 | erasePage | eraseBlock | eraseSector =>
    exact accepts_needInit rfl rfl h fun w h hv => accepts_start rfl hv (by simp)
      (by simp [Opcodes.openers, Opcodes.all]) (fun _ => by simp [Job.ok]) (by simp) (by simp) h
  case wrbackE2 | wrbackN2 | copy2 | cmp2 =>
    exact accepts_gate rfl h fun hm h =>
      accepts_needInit hm rfl h fun w h hv => accepts_start hm hv (by simp)
        (by simp [Opcodes.openers, Opcodes.all]) (fun _ => by simp [Job.ok]) (by simp) (by simp) h
  case cmpres | ready | epe | psmRefresh | identify =>
    obtain rfl := start_next h
    exact .load rfl (by simp [needsValid]) (by simp) _ _ _ (fun _ => by simp [Job.ok, snapshotJob])
      (frameOk_frameO (by simp [Opcodes.openers, Opcodes.all])) (by simp [snapshotJob])
      (by simp [snapshotJob])
  case eraseChip =>
    obtain rfl := start_next h
    exact .load rfl (by simp [needsValid]) (by simp) _ _ _ (fun _ => by simp [Job.ok])
      (by simp [frameOk, frameM4, Opcodes.openers, magicByte]) (by simp) (by simp)
  case init =>
    obtain rfl := start_next h
    exact .init rfl
  case deinit =>
    obtain rfl : _ = t := by simpa [exec, execDeinit] using h
    exact .deinit rfl
  case psmCached =>
    rcases needInit_next h with ⟨hv, rfl⟩ | ⟨hv, h⟩
    · exact .notInitialised rfl rfl hv
    · obtain rfl : _ = t := by simpa using h
      exact .cached rfl hv

end Sys2Proof.Machine
end

