-- ==== Sys2Proof/Laws/PerInstr.lean ====
section
/-! SUPPORT. A statement of every operation as syntax, one lemma per constructor: how many bytes a
request takes on the host port (log 1), which is what `decodeTableWord` pads a table word to. -/

open Sys2Proof

namespace Sys2Proof.Laws.EncodeLength

/-- The request's bytes are the fixed part of its request code and its payload. -/
def Statement (i : Instr) : Prop :=
  ∃ b bs, encode i = b :: bs ∧ (encode i).length = fixedLength b + i.payload.length

theorem readFc0 (a : Addr) (n : Len) : Statement (.readFc0 a n) := ⟨_, _, rfl, rfl⟩

theorem readFc1 (a : Addr) (n : Len) : Statement (.readFc1 a n) := ⟨_, _, rfl, rfl⟩

theorem readFc2 (a : Addr) (n : Len) : Statement (.readFc2 a n) := ⟨_, _, rfl, rfl⟩

theorem readFc3 (a : Addr) (n : Len) : Statement (.readFc3 a n) := ⟨_, _, rfl, rfl⟩

theorem pagerd (a : Addr) (n : Len) : Statement (.pagerd a n) := ⟨_, _, rfl, rfl⟩

theorem bufrdLow1 (a : Addr) (n : Len) : Statement (.bufrdLow1 a n) := ⟨_, _, rfl, rfl⟩

theorem bufrdLow2 (a : Addr) (n : Len) : Statement (.bufrdLow2 a n) := ⟨_, _, rfl, rfl⟩

theorem bufrdHigh1 (a : Addr) (n : Len) : Statement (.bufrdHigh1 a n) := ⟨_, _, rfl, rfl⟩

theorem bufrdHigh2 (a : Addr) (n : Len) : Statement (.bufrdHigh2 a n) := ⟨_, _, rfl, rfl⟩

theorem bufwr1 (a : Addr) (data : List Byte) : Statement (.bufwr1 a data) := by
  refine ⟨_, _, rfl, ?_⟩
  simp [encode, encodeWrite, addrBytes, lenBytes, fixedLength, formOf, Instr.payload]
  omega

theorem bufwr2 (a : Addr) (data : List Byte) : Statement (.bufwr2 a data) := by
  refine ⟨_, _, rfl, ?_⟩
  simp [encode, encodeWrite, addrBytes, lenBytes, fixedLength, formOf, Instr.payload]
  omega

theorem wtbE1 (a : Addr) (data : List Byte) : Statement (.wtbE1 a data) := by
  refine ⟨_, _, rfl, ?_⟩
  simp [encode, encodeWrite, addrBytes, lenBytes, fixedLength, formOf, Instr.payload]
  omega

theorem wtbE2 (a : Addr) (data : List Byte) : Statement (.wtbE2 a data) := by
  refine ⟨_, _, rfl, ?_⟩
  simp [encode, encodeWrite, addrBytes, lenBytes, fixedLength, formOf, Instr.payload]
  omega

theorem wtbN (a : Addr) (data : List Byte) : Statement (.wtbN a data) := by
  refine ⟨_, _, rfl, ?_⟩
  simp [encode, encodeWrite, addrBytes, lenBytes, fixedLength, formOf, Instr.payload]
  omega

theorem wrbackE1 (a : Addr) : Statement (.wrbackE1 a) := ⟨_, _, rfl, rfl⟩

theorem wrbackE2 (a : Addr) : Statement (.wrbackE2 a) := ⟨_, _, rfl, rfl⟩

theorem wrbackN1 (a : Addr) : Statement (.wrbackN1 a) := ⟨_, _, rfl, rfl⟩

theorem wrbackN2 (a : Addr) : Statement (.wrbackN2 a) := ⟨_, _, rfl, rfl⟩

theorem copy1 (a : Addr) : Statement (.copy1 a) := ⟨_, _, rfl, rfl⟩

theorem copy2 (a : Addr) : Statement (.copy2 a) := ⟨_, _, rfl, rfl⟩

theorem cmp1 (a : Addr) : Statement (.cmp1 a) := ⟨_, _, rfl, rfl⟩

theorem cmp2 (a : Addr) : Statement (.cmp2 a) := ⟨_, _, rfl, rfl⟩

theorem cmpres : Statement .cmpres := ⟨_, _, rfl, rfl⟩

theorem erasePage (a : Addr) : Statement (.erasePage a) := ⟨_, _, rfl, rfl⟩

theorem eraseBlock (a : Addr) : Statement (.eraseBlock a) := ⟨_, _, rfl, rfl⟩

theorem eraseSector (a : Addr) : Statement (.eraseSector a) := ⟨_, _, rfl, rfl⟩

theorem eraseChip : Statement .eraseChip := ⟨_, _, rfl, rfl⟩

theorem identify : Statement .identify := ⟨_, _, rfl, rfl⟩

theorem init : Statement .init := ⟨_, _, rfl, rfl⟩

theorem deinit : Statement .deinit := ⟨_, _, rfl, rfl⟩

theorem ready : Statement .ready := ⟨_, _, rfl, rfl⟩

theorem psmRefresh : Statement .psmRefresh := ⟨_, _, rfl, rfl⟩

theorem psmCached : Statement .psmCached := ⟨_, _, rfl, rfl⟩

theorem epe : Statement .epe := ⟨_, _, rfl, rfl⟩

end Sys2Proof.Laws.EncodeLength
end

