-- ==== Sys2Proof/Laws/Transactions.lean ====
section
/-! SUPPORT. Runs of the sequencer through the parts of a transaction: the frame, the dummy
transfers, the data phase; and what a run does to the link. Each part says where the run ends, what it
sent, and that it changes nothing else. -/

namespace Sys2Proof.Machine

/-! ## The link over a run -/

/-- The link after these events. Where it goes does not depend on the free byte. -/
def Link.after (c : Config) : Link → List Event → Link
  | l, [] => l
  | l, .sel v :: es => Link.after c (l.onSel v) es
  | l, .xfer o _ i :: es => Link.after c (l.onXfer c o i) es

/-- The link can have given these answers. -/
def Link.Possible (c : Config) : Link → List Event → Prop
  | _, [] => True
  | l, .sel v :: es => Link.Possible c (l.onSel v) es
  | l, .xfer o _ i :: es => (∃ free, i = l.answer c o free) ∧ Link.Possible c (l.onXfer c o i) es

theorem Device.onBody_free (e : Device) (cmd : DevCmd) (p o skip : Nat) (w : List Nat)
    (v f g : Byte) : (e.onBody cmd p o skip w v f).2 = (e.onBody cmd p o skip w v g).2 := by
  cases cmd <;> rfl

theorem Device.onXfer_free (e : Device) (c : Config) (v f g : Byte) :
    (e.onXfer c v f).2 = (e.onXfer c v g).2 := by
  unfold Device.onXfer
  split <;> first | rfl | exact Device.onBody_free e _ _ _ _ _ v f g

theorem Link.onXfer_free (l : Link) (c : Config) (v f g : Byte) :
    l.onXfer c v f = l.onXfer c v g := by
  cases l with
  | openLink _ => rfl
  | device e => exact congrArg Link.device (Device.onXfer_free e c v f g)

theorem Link.after_append (c : Config) (l : Link) (a b : List Event) :
    Link.after c l (a ++ b) = Link.after c (Link.after c l a) b := by
  induction a generalizing l with
  | nil => rfl
  | cons e a ih => cases e <;> exact ih _

theorem Link.possible_append (c : Config) (l : Link) (a b : List Event) :
    Link.Possible c l (a ++ b) ↔ Link.Possible c l a ∧ Link.Possible c (Link.after c l a) b := by
  induction a generalizing l with
  | nil => simp [Link.Possible, Link.after]
  | cons e a ih => cases e <;> simp [Link.Possible, Link.after, ih, and_assoc]

/-- An open link answers from its list while that lasts. -/
theorem Link.open_possible (c : Config) (es : List Event) (as rest : List Byte)
    (hl : (answersOf es).length = as.length)
    (h : Link.Possible c (.openLink (as ++ rest)) es) :
    answersOf es = as ∧ Link.after c (.openLink (as ++ rest)) es = .openLink rest := by
  induction es generalizing as with
  | nil =>
    obtain rfl : as = [] := List.length_eq_zero_iff.1 hl.symm
    exact ⟨rfl, rfl⟩
  | cons e es ih =>
    cases e with
    | sel v => exact ih as hl h
    | xfer o fc i =>
      cases as with
      | nil => simp at hl
      | cons a as =>
        obtain ⟨⟨free, hi⟩, h⟩ := h
        obtain rfl : i = a := hi
        have := ih as (by simpa using hl) h
        exact ⟨by simp [this.1], this.2⟩

/-- One step, not a reset, performs at most one event, and the link follows it. -/
theorem step_link {s t : State} (h : step s = .next t) (hr : s.resetReq = false) :
    t.cfg = s.cfg ∧ t.resetReq = false ∧ ∃ new, t.trace = s.trace ++ new ∧
      t.link = Link.after s.cfg s.link new ∧ Link.Possible s.cfg s.link new := by
  rcases step_next h with ⟨hx, -⟩ | ⟨-, hp, r, rest, i, -, -, he⟩ | ⟨-, hp, j, hj, hm⟩
  · simp [hr] at hx
  · have ha := exec_accepts he
    cases ha <;> exact ⟨rfl, hr, [], by simp [Link.after, Link.Possible]⟩
  · have hm := runJob_next hm
    have hx : ∀ o fc, Link.after s.cfg s.link [.xfer o fc (s.answer o fc)] =
        s.link.onXfer s.cfg o (s.freeByte o fc) := fun o fc => Link.onXfer_free _ _ _ _ _
    have ha : ∀ o fc, ∃ free, s.answer o fc = s.link.answer s.cfg o free :=
      fun o fc => ⟨_, rfl⟩
    cases hm with
    | selOff hp _ hc =>
      have := hc.frame
      exact ⟨this.2.2.2.1, this.2.2.2.2.2.trans hr, _, this.2.1, this.2.2.1, trivial⟩
    | selOn | psOn => exact ⟨rfl, hr, [.sel true], rfl, rfl, trivial⟩
    | psReady | psBusy => exact ⟨rfl, hr, [.sel false], rfl, rfl, trivial⟩
    | din k hp =>
      exact ⟨by simp, by simp [hr], [.xfer s.cfg.fill s.fc (s.answer s.cfg.fill s.fc)],
        by simp, by simp [hx], ha _ _, trivial⟩
    | hdr i b =>
      exact ⟨rfl, hr, [.xfer b s.fc (s.answer b s.fc)], rfl, (hx _ _).symm, ha _ _, trivial⟩
    | dmyLast | dmy =>
      exact ⟨rfl, hr, [.xfer s.cfg.fill s.fc (s.answer s.cfg.fill s.fc)], rfl, (hx _ _).symm,
        ha _ _, trivial⟩
    | dout k data b =>
      exact ⟨rfl, hr, [.xfer b s.fc (s.answer b s.fc)], rfl, (hx _ _).symm, ha _ _, trivial⟩
    | psOpc =>
      exact ⟨rfl, hr, [.xfer s.cfg.opc.status s.cfg.fcCmd (s.answer s.cfg.opc.status s.cfg.fcCmd)],
        rfl, (hx _ _).symm, ha _ _, trivial⟩
    | psB1 | psB2 =>
      exact ⟨rfl, hr, [.xfer s.cfg.fill s.cfg.fcCmd (s.answer s.cfg.fill s.cfg.fcCmd)], rfl,
        (hx _ _).symm, ha _ _, trivial⟩

/-- A run without a reset: the link follows the events, and can have given the answers. -/
theorem stepN_link {k : Nat} {s u : State} (h : stepN k s = .next u) (hr : s.resetReq = false) :
    u.cfg = s.cfg ∧ u.resetReq = false ∧ ∃ new, u.trace = s.trace ++ new ∧
      u.link = Link.after s.cfg s.link new ∧ Link.Possible s.cfg s.link new := by
  induction k generalizing s with
  | zero => cases h; exact ⟨rfl, hr, [], by simp [Link.after, Link.Possible]⟩
  | succ k ih =>
    cases hs : step s with
    | next t =>
      rw [stepN_succ hs] at h
      obtain ⟨hc, hr', a, ha, hla, hpa⟩ := step_link hs hr
      obtain ⟨hc', hru, b, hb, hlb, hpb⟩ := ih h hr'
      refine ⟨hc'.trans hc, hru, a ++ b, by simp [hb, ha], ?_, ?_⟩
      · rw [Link.after_append, ← hla, hlb, hc]
      · rw [Link.possible_append, ← hla, ← hc]
        exact ⟨hc ▸ hpa, hpb⟩
    | fault r => simp [stepN, hs] at h
    | refused r => simp [stepN, hs] at h

/-! ## Runs through the parts of a transaction -/

/-- The frame: every byte of `hdr` in order (rows HDR of 40_primitives.md R131). -/
theorem run_hdr {j : Job} (f : List Byte) {s : State} {i : Nat} (hf : f ≠ [])
    (hr : s.resetReq = false) (hj : s.job = some j) (hp : s.phase = .hdr i) (hh : s.hdr = f) :
    ∃ new l, stepN f.length s = .next { s with
        phase := j.afterHeader, hdr := [], trace := s.trace ++ new, link := l } ∧
      sentOf new = f.map (fun b => .xfer b s.fc) ∧ (answersOf new).length = f.length := by
  induction f generalizing s i with
  | nil => exact absurd rfl hf
  | cons b f ih =>
    have hs : step s = .next { s.xfer b s.fc with
        hdr := f, phase := if f = [] then j.afterHeader else .hdr (i + 1) } := by
      rw [step_job hr (by simp [hp]) hj]
      simp [runJob, hp, stepHdr, hh]
    by_cases hnil : f = []
    · subst hnil
      exact ⟨[.xfer b s.fc (s.answer b s.fc)], _, by rw [List.length_singleton, stepN_succ hs]; rfl,
        rfl, rfl⟩
    · obtain ⟨new, l, hn, hsent, hans⟩ := ih (s := { s.xfer b s.fc with
        hdr := f, phase := if f = [] then j.afterHeader else .hdr (i + 1) }) (i := i + 1)
        hnil (by simpa using hr) (by simpa using hj) (by simp [hnil]) rfl
      refine ⟨.xfer b s.fc (s.answer b s.fc) :: new, l, ?_, ?_, ?_⟩
      · rw [List.length_cons, stepN_succ hs, hn]
        simp [State.xfer]
      · simpa using hsent
      · simp [hans]

/-- The dummy transfers (rows DMY): `m + 1` fillers. -/
theorem run_dmy {j : Job} (m : Nat) {s : State} {k : Nat} (hr : s.resetReq = false)
    (hj : s.job = some j) (hp : s.phase = .dmy k) (hc : s.cnt.toNat = m + 1) :
    ∃ new l, stepN (m + 1) s = .next { s with
        phase := j.data.firstPhase, cnt := j.data.count, trace := s.trace ++ new, link := l } ∧
      sentOf new = List.replicate (m + 1) (.xfer s.cfg.fill s.fc) ∧
      (answersOf new).length = m + 1 := by
  induction m generalizing s k with
  | zero =>
    have h0 : s.cnt - 1 = 0 := by bv_omega
    have hs : step s = .next { s.xfer s.cfg.fill s.fc with
        cnt := j.data.count, phase := j.data.firstPhase } := by
      rw [step_job hr (by simp [hp]) hj]
      simp only [runJob, hp, stepDmy, h0, if_true]
    exact ⟨[.xfer s.cfg.fill s.fc (s.answer s.cfg.fill s.fc)], _, by rw [stepN_succ hs]; rfl, rfl,
      rfl⟩
  | succ m ih =>
    have h0 : s.cnt - 1 ≠ 0 := by bv_omega
    have hs : step s = .next { s.xfer s.cfg.fill s.fc with
        cnt := s.cnt - 1, phase := .dmy (k + 1) } := by
      rw [step_job hr (by simp [hp]) hj]
      simp only [runJob, hp, stepDmy, h0, if_false]
    obtain ⟨new, l, hn, hsent, hans⟩ := ih (s := { s.xfer s.cfg.fill s.fc with
        cnt := s.cnt - 1, phase := .dmy (k + 1) }) (k := k + 1) (by simpa using hr)
        (by simpa using hj) rfl (by dsimp only; bv_omega)
    refine ⟨.xfer s.cfg.fill s.fc (s.answer s.cfg.fill s.fc) :: new, l, ?_, ?_, ?_⟩
    · rw [stepN_succ hs, hn]
      simp [State.xfer]
    · simpa [List.replicate_succ] using hsent
    · simp [hans]

/-- The read-back transfers whose answers go to `out` (rows DIN). -/
theorem run_din {j : Job} (hd : (∃ n, j.data = .read n) ∨ j.data = .ident) (m : Nat) {s : State}
    {k : Nat} (hr : s.resetReq = false) (hj : s.job = some j) (hp : s.phase = .din k)
    (hc : s.cnt.toNat = m + 1) :
    ∃ new l, stepN (m + 1) s = .next { s with
        phase := .selOff, cnt := 0, out := s.out ++ answersOf new, trace := s.trace ++ new,
        link := l } ∧
      sentOf new = List.replicate (m + 1) (.xfer s.cfg.fill s.fc) ∧
      (answersOf new).length = m + 1 := by
  have hcap : ∀ (t : State) (k : Nat) (i : Byte),
      t.capture j.data k i = { t with out := t.out ++ [i] } := by
    intro t k i
    rcases hd with ⟨n, hd⟩ | hd <;> simp [State.capture, hd]
  induction m generalizing s k with
  | zero =>
    have h0 : s.cnt - 1 = 0 := by bv_omega
    have hs : step s = .next { s.xfer s.cfg.fill s.fc with
        cnt := 0, phase := .selOff, out := s.out ++ [s.answer s.cfg.fill s.fc] } := by
      rw [step_job hr (by simp [hp]) hj]
      simp only [runJob, hp, stepDin, h0, if_true, hcap, State.xfer]
    exact ⟨[.xfer s.cfg.fill s.fc (s.answer s.cfg.fill s.fc)], _, by rw [stepN_succ hs]; rfl, rfl,
      rfl⟩
  | succ m ih =>
    have h0 : s.cnt - 1 ≠ 0 := by bv_omega
    have hs : step s = .next { s.xfer s.cfg.fill s.fc with
        cnt := s.cnt - 1, phase := .din (k + 1), out := s.out ++ [s.answer s.cfg.fill s.fc] } := by
      rw [step_job hr (by simp [hp]) hj]
      simp only [runJob, hp, stepDin, h0, if_false, hcap, State.xfer]
    obtain ⟨new, l, hn, hsent, hans⟩ := ih (s := { s.xfer s.cfg.fill s.fc with
        cnt := s.cnt - 1, phase := .din (k + 1), out := s.out ++ [s.answer s.cfg.fill s.fc] })
        (k := k + 1) (by simpa using hr) (by simpa using hj) rfl (by dsimp only; bv_omega)
    refine ⟨.xfer s.cfg.fill s.fc (s.answer s.cfg.fill s.fc) :: new, l, ?_, ?_, ?_⟩
    · rw [stepN_succ hs, hn]
      simp [State.xfer]
    · simpa [List.replicate_succ] using hsent
    · simp [hans]

/-- The two status bytes of a snapshot as an operation of its own (rows DIN). -/
theorem run_din_snapshot {j : Job} (hd : j.data = .snapshot) {s : State} (hr : s.resetReq = false)
    (hj : s.job = some j) (hp : s.phase = .din 0) (hc : s.cnt = 2) :
    ∃ a b l, stepN 2 s = .next { s with
        phase := .selOff, cnt := 0, sr1 := a, sr2 := b, link := l,
        trace := s.trace ++ [.xfer s.cfg.fill s.fc a, .xfer s.cfg.fill s.fc b] } := by
  have hs : step s = .next { s.xfer s.cfg.fill s.fc with
      cnt := 1, phase := .din 1, sr1 := s.answer s.cfg.fill s.fc } := by
    rw [step_job hr (by simp [hp]) hj]
    simp [runJob, hp, stepDin, hc, hd, State.capture]
  have ht : ∀ t : State, t.resetReq = false → t.job = some j → t.phase = .din 1 → t.cnt = 1 →
      step t = .next { t.xfer t.cfg.fill t.fc with
        cnt := 0, phase := .selOff, sr2 := t.answer t.cfg.fill t.fc } := by
    intro t hr hj hp hc
    rw [step_job hr (by simp [hp]) hj]
    simp [runJob, hp, stepDin, hc, hd, State.capture]
  have h2 := ht { s.xfer s.cfg.fill s.fc with
      cnt := 1, phase := .din 1, sr1 := s.answer s.cfg.fill s.fc }
      (by simpa using hr) (by simpa using hj) rfl rfl
  have h := (stepN_succ hs 1).trans (stepN_succ h2 0)
  simp only [State.xfer, stepN_zero, List.append_assoc, List.cons_append, List.nil_append] at h
  exact ⟨_, _, _, h⟩

/-- The payload transfers (rows DOUT). -/
theorem run_dout {j : Job} {data : List Byte} (hd : j.data = .payload data) (m : Nat) {s : State}
    {k : Nat} (hr : s.resetReq = false) (hj : s.job = some j) (hp : s.phase = .dout k)
    (hc : s.cnt.toNat = m + 1) (hk : k + (m + 1) = data.length) :
    ∃ new l, stepN (m + 1) s = .next { s with
        phase := .selOff, cnt := 0, trace := s.trace ++ new, link := l } ∧
      sentOf new = (data.drop k).map (fun b => .xfer b s.fc) ∧
      (answersOf new).length = m + 1 := by
  have hlt : k < data.length := by omega
  have hget : data[k]? = some data[k] := List.getElem?_eq_getElem hlt
  have hdrop : data.drop k = data[k] :: data.drop (k + 1) := List.drop_eq_getElem_cons hlt
  induction m generalizing s k with
  | zero =>
    have h0 : s.cnt - 1 = 0 := by bv_omega
    have hs : step s = .next { s.xfer data[k] s.fc with cnt := 0, phase := .selOff } := by
      rw [step_job hr (by simp [hp]) hj]
      simp only [runJob, hp, stepDout, h0, if_true, hd, hget]
    have hend : data.drop (k + 1) = [] := List.drop_eq_nil_of_le (by omega)
    exact ⟨[.xfer data[k] s.fc (s.answer data[k] s.fc)], _, by rw [stepN_succ hs]; rfl,
      by rw [hdrop, hend]; rfl, rfl⟩
  | succ m ih =>
    have h0 : s.cnt - 1 ≠ 0 := by bv_omega
    have hs : step s = .next { s.xfer data[k] s.fc with cnt := s.cnt - 1, phase := .dout (k + 1) } := by
      rw [step_job hr (by simp [hp]) hj]
      simp only [runJob, hp, stepDout, h0, if_false, hd, hget]
    have hlt' : k + 1 < data.length := by omega
    obtain ⟨new, l, hn, hsent, hans⟩ := ih
        (s := { s.xfer data[k] s.fc with cnt := s.cnt - 1, phase := .dout (k + 1) })
        (k := k + 1) (by simpa using hr) (by simpa using hj) rfl (by dsimp only; bv_omega)
        (by omega) hlt' (List.getElem?_eq_getElem hlt') (List.drop_eq_getElem_cons hlt')
    refine ⟨.xfer data[k] s.fc (s.answer data[k] s.fc) :: new, l, ?_, ?_, ?_⟩
    · rw [stepN_succ hs, hn]
      simp [State.xfer]
    · rw [hdrop, List.map_cons, sentOf_xfer, hsent]
      rfl
    · simp [hans]

/-! ## Whole command transactions, up to their `SEL(0)` -/

@[simp] theorem length_sentOf (es : List Event) : (sentOf es).length = es.length := by
  simp [sentOf]

/-- `SEL(1)` and the frame. -/
theorem run_open {j : Job} {f : List Byte} {s : State} (hf : f ≠ []) (hr : s.resetReq = false)
    (hj : s.job = some j) (hp : s.phase = .selOn) (hh : s.hdr = f) :
    ∃ new l, stepN (1 + f.length) s = .next { s with
        sel := true, rs := if j.marksBusy then .busy else s.rs, phase := j.afterHeader, hdr := [],
        trace := s.trace ++ new, link := l } ∧
      sentOf new = .sel true :: f.map (fun b => .xfer b s.fc) ∧
      (answersOf new).length = f.length := by
  have hs : step s = .next { s.select true with
      rs := if j.marksBusy then .busy else s.rs, phase := .hdr 0 } := by
    rw [step_job hr (by simp [hp]) hj]
    simp [runJob, hp, stepSelOn]
  obtain ⟨new, l, hn, hsent, hans⟩ := run_hdr f (s := { s.select true with
      rs := if j.marksBusy then .busy else s.rs, phase := .hdr 0 }) (i := 0) hf
      (by simpa using hr) (by simpa using hj) rfl (by simpa using hh)
  refine ⟨.sel true :: new, l, ?_, by simpa using hsent, by simpa using hans⟩
  rw [Nat.add_comm, stepN_succ hs, hn]
  simp [State.select]

/-- A frame with no data phase. -/
theorem run_none {j : Job} {f : List Byte} {s : State} (hf : f ≠ []) (hr : s.resetReq = false)
    (hj : s.job = some j) (hp : s.phase = .selOn) (hh : s.hdr = f) (hm : j.dummy = 0)
    (hd : j.data = .none) :
    ∃ new l, stepN new.length s = .next { s with
        sel := true, rs := if j.marksBusy then .busy else s.rs, phase := .selOff, hdr := [],
        trace := s.trace ++ new, link := l } ∧
      sentOf new = .sel true :: f.map (fun b => .xfer b s.fc) ∧
      (answersOf new).length = f.length := by
  obtain ⟨new, l, hn, hsent, hans⟩ := run_open hf hr hj hp hh
  have hlen : new.length = 1 + f.length := by
    rw [← length_sentOf, hsent]
    simp [Nat.add_comm]
  have hah : j.afterHeader = .selOff := by simp [Job.afterHeader, hm, hd, DataPhase.firstPhase]
  exact ⟨new, l, by rw [hlen, hn, hah], hsent, hans⟩

/-- A frame, dummy transfers, and a data phase that answers into `out`. -/
theorem run_read {j : Job} {f : List Byte} {s : State} (hf : f ≠ []) (hr : s.resetReq = false)
    (hj : s.job = some j) (hp : s.phase = .selOn) (hh : s.hdr = f) (hc : s.cnt = j.firstCount)
    (ho : s.out = []) (hd : (∃ n, j.data = .read n) ∨ j.data = .ident) :
    ∃ new l, stepN new.length s = .next { s with
        sel := true, rs := if j.marksBusy then .busy else s.rs, phase := .selOff, hdr := [],
        cnt := 0, out := (answersOf new).drop (f.length + j.dummy.toNat),
        trace := s.trace ++ new, link := l } ∧
      sentOf new = .sel true :: f.map (fun b => .xfer b s.fc) ++
        List.replicate (j.dummy.toNat + j.data.count.toNat) (.xfer s.cfg.fill s.fc) ∧
      (answersOf new).length = f.length + j.dummy.toNat + j.data.count.toNat := by
  obtain ⟨a, la, hna, hsa, hansa⟩ := run_open hf hr hj hp hh
  have hla : a.length = 1 + f.length := by
    rw [← length_sentOf, hsa]
    simp [Nat.add_comm]
  rw [← hla] at hna
  -- the dummy transfers
  have hdmy : ∃ b lb, stepN b.length { s with
        sel := true, rs := if j.marksBusy then .busy else s.rs, phase := j.afterHeader, hdr := [],
        trace := s.trace ++ a, link := la } = .next { s with
        sel := true, rs := if j.marksBusy then .busy else s.rs, phase := j.data.firstPhase,
        hdr := [], cnt := j.data.count, trace := s.trace ++ a ++ b, link := lb } ∧
      sentOf b = List.replicate j.dummy.toNat (.xfer s.cfg.fill s.fc) ∧
      (answersOf b).length = j.dummy.toNat := by
    by_cases hm : j.dummy = 0
    · refine ⟨[], la, ?_, by simp [hm], by simp [hm]⟩
      simp [Job.afterHeader, hm, hc, Job.firstCount]
    · obtain ⟨m, hm'⟩ : ∃ m, j.dummy.toNat = m + 1 :=
        Nat.exists_eq_succ_of_ne_zero fun h => hm (BitVec.eq_of_toNat_eq (by simpa using h))
      obtain ⟨b, lb, hnb, hsb, hansb⟩ := run_dmy m (s := { s with
        sel := true, rs := if j.marksBusy then .busy else s.rs, phase := j.afterHeader, hdr := [],
        trace := s.trace ++ a, link := la }) (k := 0) hr hj (if_neg hm)
        (by rw [hc, Job.firstCount, if_neg hm, hm'])
      have hlb : b.length = m + 1 := by
        rw [← length_sentOf, hsb]
        simp
      exact ⟨b, lb, by rw [hlb, hnb], by rw [hsb, hm'], by rw [hansb, hm']⟩
  obtain ⟨b, lb, hnb, hsb, hansb⟩ := hdmy
  -- the read-back transfers
  have hdin : ∃ c lc, stepN c.length { s with
        sel := true, rs := if j.marksBusy then .busy else s.rs, phase := j.data.firstPhase,
        hdr := [], cnt := j.data.count, trace := s.trace ++ a ++ b, link := lb } = .next { s with
        sel := true, rs := if j.marksBusy then .busy else s.rs, phase := .selOff, hdr := [],
        cnt := 0, out := answersOf c, trace := s.trace ++ a ++ b ++ c, link := lc } ∧
      sentOf c = List.replicate j.data.count.toNat (.xfer s.cfg.fill s.fc) ∧
      (answersOf c).length = j.data.count.toNat := by
    by_cases h0 : j.data.count = 0
    · refine ⟨[], lb, ?_, by simp [h0], by simp [h0]⟩
      simp [DataPhase.firstPhase, h0, ho]
    · obtain ⟨m, hm'⟩ : ∃ m, j.data.count.toNat = m + 1 :=
        Nat.exists_eq_succ_of_ne_zero fun h => h0 (BitVec.eq_of_toNat_eq (by simpa using h))
      have hfp : j.data.firstPhase = .din 0 := by
        rcases hd with ⟨n, hd⟩ | hd <;> simp_all [DataPhase.firstPhase]
      obtain ⟨c, lc, hnc, hsc, hansc⟩ := run_din hd m (s := { s with
        sel := true, rs := if j.marksBusy then .busy else s.rs, phase := j.data.firstPhase,
        hdr := [], cnt := j.data.count, trace := s.trace ++ a ++ b, link := lb }) (k := 0) hr hj
        hfp hm'
      have hlc : c.length = m + 1 := by
        rw [← length_sentOf, hsc]
        simp
      exact ⟨c, lc, by rw [hlc, hnc]; simp [ho], by rw [hsc, hm'], by rw [hansc, hm']⟩
  obtain ⟨c, lc, hnc, hsc, hansc⟩ := hdin
  refine ⟨a ++ b ++ c, lc, ?_, ?_, by simp [hansa, hansb, hansc, Nat.add_assoc]⟩
  · rw [List.length_append, List.length_append, Nat.add_assoc, stepN_add hna, stepN_add hnb, hnc,
      answersOf_append, List.drop_left' (by simp [hansa, hansb])]
    simp
  · simp [hsa, hsb, hsc]

/-- A frame and a payload. -/
theorem run_payload {j : Job} {f data : List Byte} {s : State} (hf : f ≠ [])
    (hr : s.resetReq = false) (hj : s.job = some j) (hp : s.phase = .selOn) (hh : s.hdr = f)
    (hc : s.cnt = j.firstCount) (hm : j.dummy = 0) (hd : j.data = .payload data)
    (hl : data.length < 2 ^ 32) :
    ∃ new l, stepN new.length s = .next { s with
        sel := true, rs := if j.marksBusy then .busy else s.rs, phase := .selOff, hdr := [],
        cnt := 0, trace := s.trace ++ new, link := l } ∧
      sentOf new = .sel true :: (f ++ data).map (fun b => .xfer b s.fc) ∧
      (answersOf new).length = f.length + data.length := by
  obtain ⟨a, la, hna, hsa, hansa⟩ := run_open hf hr hj hp hh
  have hla : a.length = 1 + f.length := by
    rw [← length_sentOf, hsa]
    simp [Nat.add_comm]
  rw [← hla] at hna
  have hcount : j.data.count.toNat = data.length := by
    simp only [hd, DataPhase.count, BitVec.toNat_ofNat]
    exact Nat.mod_eq_of_lt hl
  have hfc : j.firstCount = j.data.count := by simp [Job.firstCount, hm]
  cases hdata : data with
  | nil =>
    have h0 : j.data.count = 0 := BitVec.eq_of_toNat_eq (by simp [hcount, hdata])
    have hah : j.afterHeader = .selOff := by simp [Job.afterHeader, hm, DataPhase.firstPhase, h0]
    refine ⟨a, la, ?_, by simpa using hsa, by simpa using hansa⟩
    rw [hna, hah]
    simp [hc, hfc, h0]
  | cons x xs =>
    have h0 : j.data.count ≠ 0 := by
      intro h
      rw [h] at hcount
      simp [hdata] at hcount
    have hah : j.afterHeader = .dout 0 := by
      rw [hd] at h0
      rw [Job.afterHeader, if_pos hm, hd]
      exact if_neg h0
    obtain ⟨b, lb, hnb, hsb, hansb⟩ := run_dout hd xs.length (s := { s with
        sel := true, rs := if j.marksBusy then .busy else s.rs, phase := j.afterHeader, hdr := [],
        trace := s.trace ++ a, link := la }) (k := 0) hr hj hah
        (by simp [hc, hfc, hcount, hdata]) (by simp [hdata])
    have hlb : b.length = xs.length + 1 := by
      rw [← length_sentOf, hsb]
      simp [hdata]
    refine ⟨a ++ b, lb, ?_, ?_, by simp [hansa, hansb]⟩
    · rw [List.length_append, stepN_add hna, hlb, hnb]
      simp
    · rw [sentOf_append, hsa, hsb, hdata]
      simp

/-- A snapshot as an operation of its own. -/
theorem run_snapshot {j : Job} {o : Byte} {s : State} (hr : s.resetReq = false)
    (hj : s.job = some j) (hp : s.phase = .selOn) (hh : s.hdr = [o]) (hc : s.cnt = 2)
    (hm : j.dummy = 0) (hd : j.data = .snapshot) (hb : j.marksBusy = false) :
    ∃ x a b l, stepN 4 s = .next { s with
        sel := true, phase := .selOff, hdr := [], cnt := 0, sr1 := a, sr2 := b, link := l,
        trace := s.trace ++ [.sel true, .xfer o s.fc x, .xfer s.cfg.fill s.fc a,
          .xfer s.cfg.fill s.fc b] } := by
  obtain ⟨new, l, hn, hsent, hans⟩ := run_open (f := [o]) (by simp) hr hj hp hh
  obtain ⟨x, rfl⟩ : ∃ x, new = [.sel true, .xfer o s.fc x] := by
    match new, hsent with
    | [.sel v, .xfer p fc x], h =>
      simp only [sentOf_sel, sentOf_xfer, sentOf_nil, List.map_cons, List.map_nil, List.cons.injEq,
        Sent.sel.injEq, Sent.xfer.injEq, and_true] at h
      obtain ⟨rfl, rfl, rfl⟩ := h
      exact ⟨x, rfl⟩
    | [.xfer _ _ _, _], h => simp at h
    | [.sel _, .sel _], h => simp at h
  obtain ⟨a, b, l', hn'⟩ := run_din_snapshot hd (s := { s with
      sel := true, rs := if j.marksBusy then .busy else s.rs, phase := j.afterHeader, hdr := [],
      trace := s.trace ++ [.sel true, .xfer o s.fc x], link := l }) hr hj
      (by simp [Job.afterHeader, hm, hd, DataPhase.firstPhase, DataPhase.count]) hc
  refine ⟨x, a, b, l', ?_⟩
  rw [show 4 = 1 + [o].length + 2 from rfl, stepN_add hn, hn']
  simp [hb]

/-- One snapshot of the poll loop, up to its `SEL(0)` (rows PS_ON to PS_B2). -/
theorem run_poll {j : Job} {s : State} (hr : s.resetReq = false) (hj : s.job = some j)
    (hp : s.phase = .psOn) :
    ∃ x a b l, stepN 4 s = .next { s with
        sel := true, phase := .psOff, sr1 := a, sr2 := b, link := l,
        trace := s.trace ++ [.sel true, .xfer s.cfg.opc.status s.cfg.fcCmd x,
          .xfer s.cfg.fill s.cfg.fcCmd a, .xfer s.cfg.fill s.cfg.fcCmd b] } := by
  have run : ∀ t : State, t.resetReq = false → t.job = some j → t.phase ≠ .idle →
      step t = runJob j t := fun t h1 h2 h3 => step_job h1 h3 h2
  have h1 : step s = .next { s.select true with phase := .psOpc } := by
    rw [run s hr hj (by simp [hp])]
    simp [runJob, hp, stepPsOn]
  have h2 : ∀ t : State, t.resetReq = false → t.job = some j → t.phase = .psOpc →
      step t = .next { t.xfer t.cfg.opc.status t.cfg.fcCmd with phase := .psB1 } := by
    intro t hr hj hp
    rw [run t hr hj (by simp [hp])]
    simp [runJob, hp, stepPsOpc]
  have h3 : ∀ t : State, t.resetReq = false → t.job = some j → t.phase = .psB1 →
      step t = .next { t.xfer t.cfg.fill t.cfg.fcCmd with
        sr1 := t.answer t.cfg.fill t.cfg.fcCmd, phase := .psB2 } := by
    intro t hr hj hp
    rw [run t hr hj (by simp [hp])]
    simp [runJob, hp, stepPsB1]
  have h4 : ∀ t : State, t.resetReq = false → t.job = some j → t.phase = .psB2 →
      step t = .next { t.xfer t.cfg.fill t.cfg.fcCmd with
        sr2 := t.answer t.cfg.fill t.cfg.fcCmd, phase := .psOff } := by
    intro t hr hj hp
    rw [run t hr hj (by simp [hp])]
    simp [runJob, hp, stepPsB2]
  let s1 : State := { s.select true with phase := .psOpc }
  let s2 : State := { s1.xfer s1.cfg.opc.status s1.cfg.fcCmd with phase := .psB1 }
  let s3 : State := { s2.xfer s2.cfg.fill s2.cfg.fcCmd with
    sr1 := s2.answer s2.cfg.fill s2.cfg.fcCmd, phase := .psB2 }
  have h := (stepN_succ h1 3).trans <| (stepN_succ (h2 s1 hr hj rfl) 2).trans <|
    (stepN_succ (h3 s2 hr hj rfl) 1).trans <| stepN_succ (h4 s3 hr hj rfl) 0
  simp only [s3, s2, s1, State.xfer, State.select, stepN_zero, List.append_assoc, List.cons_append,
    List.nil_append] at h
  exact ⟨_, _, _, _, h⟩

end Sys2Proof.Machine
end

