-- ==== Sys2Proof/Tests/Slice0.lean ====
section
/-! SUPPORT. Tests: the WellFormed smoke test, one decode word per operation, one step per operation
and per row of the micro-phase table (expected values from spec/95_test_vectors.md), and witnesses
for the hypotheses of the obligations. -/

open Sys2Proof Sys2Proof.Machine Sys2Proof.Claims

namespace Sys2Proof.Tests

/-! ## WellFormed -/

/-- The one check: a payload of `2^32` bytes has no count of `LEN_W` bits (10_state.md R36), one of
`2^32 - 1` has. -/
theorem wellFormed_of_length (n : Nat) (d : List Byte) (h : d.length = n) :
    (Instr.bufwr1 0 d).wellFormed = decide (n < 2 ^ 32) := by
  subst h
  rfl

theorem test_payload_too_long_refused (d : List Byte) (h : d.length = 2 ^ 32) :
    (Instr.bufwr1 0 d).wellFormed = false :=
  (wellFormed_of_length _ d h).trans (by decide)

theorem test_payload_at_limit_accepted (d : List Byte) (h : d.length = 2 ^ 32 - 1) :
    (Instr.bufwr1 0 d).wellFormed = true :=
  (wellFormed_of_length _ d h).trans (by decide)

/-- There is such an ill-formed request. -/
theorem test_ill_formed_request_exists :
    ∃ d : List Byte, (Instr.bufwr1 0 d).wellFormed = false :=
  ⟨List.replicate (2 ^ 32) 0, test_payload_too_long_refused _ List.length_replicate⟩

/-! ## Decode: the words of spec/opcode_table.json, written out

`F_OA`: opcode in bits 31:24, address in bits 23:0 (30_encoding.md R80, R81, R92). -/

theorem test_decode_reads :
    decodeTableWord 32 0b00000001_000000000000110000000101 = some (.readFc0 0xC05 0) ∧
    decodeTableWord 32 0b00000011_000000000000110000000101 = some (.readFc1 0xC05 0) ∧
    decodeTableWord 32 0b00001011_001101000101011001111000 = some (.readFc2 0x345678 0) ∧
    decodeTableWord 32 0b00011011_111111111111111111111111 = some (.readFc3 0xFFFFFF 0) ∧
    decodeTableWord 32 0b11010010_000000000000110000000101 = some (.pagerd 0xC05 0) ∧
    decodeTableWord 32 0b11010001_000000000000000000000101 = some (.bufrdLow1 5 0) ∧
    decodeTableWord 32 0b11010011_000000000000000000000101 = some (.bufrdLow2 5 0) ∧
    decodeTableWord 32 0b11010100_000000000000000000000101 = some (.bufrdHigh1 5 0) ∧
    decodeTableWord 32 0b11010110_000000000000000000000101 = some (.bufrdHigh2 5 0) := by decide

theorem test_decode_writes :
    decodeTableWord 32 0b10000100_000000000000000000000101 = some (.bufwr1 5 []) ∧
    decodeTableWord 32 0b10000111_000000000000000000000101 = some (.bufwr2 5 []) ∧
    decodeTableWord 32 0b10000010_000000000000110000000101 = some (.wtbE1 0xC05 []) ∧
    decodeTableWord 32 0b10000101_000000000000110000000101 = some (.wtbE2 0xC05 []) ∧
    decodeTableWord 32 0b00000010_000000000000110000000101 = some (.wtbN 0xC05 []) ∧
    decodeTableWord 32 0b10000011_000000000000110000000000 = some (.wrbackE1 0xC00) ∧
    decodeTableWord 32 0b10000110_000000000000110000000000 = some (.wrbackE2 0xC00) ∧
    decodeTableWord 32 0b10001000_000000000000110000000000 = some (.wrbackN1 0xC00) ∧
    decodeTableWord 32 0b10001001_000000000000110000000000 = some (.wrbackN2 0xC00) := by decide

theorem test_decode_copy_compare_erase :
    decodeTableWord 32 0b01010011_000000000000110000000000 = some (.copy1 0xC00) ∧
    decodeTableWord 32 0b01010101_000000000000110000000000 = some (.copy2 0xC00) ∧
    decodeTableWord 32 0b01100000_000000000000110000000000 = some (.cmp1 0xC00) ∧
    decodeTableWord 32 0b01100001_000000000000110000000000 = some (.cmp2 0xC00) ∧
    decodeTableWord 32 0b10000001_000000000000110000000000 = some (.erasePage 0xC00) ∧
    decodeTableWord 32 0b01010000_000000000010000000000000 = some (.eraseBlock 0x2000) ∧
    decodeTableWord 32 0b01111100_000010000000000000000000 = some (.eraseSector 0x80000) ∧
    decodeTableWord 32 0b11000111_10010100_10000000_10011010 = some .eraseChip := by decide

/-- Frames that several operations share, or that an operation does not have (log 2). -/
theorem test_decode_shared_frames :
    decodeTableWord 8 0b10011111 = some .identify ∧ decode [0x9F, 1] = .ok .init ∧
    decodeTableWord 8 0b11010111 = some .ready ∧ decode [0xD7, 1] = .ok .cmpres ∧
    decode [0xD7, 2] = .ok .psmRefresh ∧ decode [0xD7, 3] = .ok .epe ∧
    decode [0x00, 0] = .ok .deinit ∧ decode [0x00, 1] = .ok .psmCached := by decide

/-- Operand bytes beyond the frame (log 1): address 31:24, then the count, then the payload. -/
theorem test_decode_operands :
    decode [0x01, 0x34, 0x56, 0x78, 0x12, 0, 0, 1, 2] = .ok (.readFc0 0x12345678 0x102) ∧
    decode [0x84, 0, 0, 5, 0, 0, 0, 0, 2, 0xA1, 0xB2] = .ok (.bufwr1 5 [0xA1, 0xB2]) := by decide

theorem test_decode_errors :
    decode [] = .error .empty ∧ decode [0x58, 0, 0, 0] = .error (.unknownCode 0x58) ∧
    decode [0xD7, 4] = .error (.unknownSelector 4) ∧
    decode [0xC7, 0x94, 0x80, 0x9B] = .error .notMagic ∧
    decode [0x81, 0, 0x0C] = .error .truncated ∧
    decode [0x84, 0, 0, 5, 0, 0, 0, 0, 2, 0xA1] = .error .truncated ∧
    decode [0x81, 0, 0x0C, 0, 0, 0] = .error .trailing := by decide

/-! ## States -/

/-- The start state of table V5: 16 Mbit, DataFlash pages, `VALID = 1`; these answers. -/
def ready (answers : List Byte) : State :=
  { State.reset with valid := true, dens := 16, link := .openLink answers }

/-- The same with another page-size mode and density. -/
def readyAs (dens : Byte) (psm : Bool) : State := { ready [] with dens := dens, psm := psm }

/-- The start state of table V5 without the second buffer and the fastest read. -/
def plain : State :=
  { ready [] with cfg := { Config.default with cap := ⟨false, false, true, true, true, 64⟩ } }

/-- A state in the middle of an operation. -/
def running (p : Phase) (sel : Bool) (j : Job) (answers : List Byte) : State :=
  { ready answers with phase := p, sel := sel, job := some j, fc := .fc2 }

/-- What a started operation loaded: the frame, the first count, the class. -/
def loaded : Result → Option (List Byte × Len × FreqClass)
  | .next s => if s.phase = .selOn then some (s.hdr, s.cnt, s.fc) else none
  | .fault _ | .refused _ => none

/-- What was delivered. -/
def delivered : Result → Option (List Delivery)
  | .next s => some s.delivered
  | .fault _ | .refused _ => none

/-- Some fields of the next state. -/
def look {α : Type} (f : State → α) : Result → Option α
  | .next s => some (f s)
  | .fault _ | .refused _ => none

/-! ## Each operation's acceptance: table V5 (frame, class) -/

theorem test_exec_readFc0 :
    loaded (exec (.readFc0 0xC05 2) (ready [])) = some ([0x01, 0x00, 0x0C, 0x05], 2, .fc0) := by
  decide
theorem test_exec_readFc1 :
    loaded (exec (.readFc1 0xC05 2) (ready [])) = some ([0x03, 0x00, 0x0C, 0x05], 2, .fc1) := by
  decide
theorem test_exec_readFc2 :
    loaded (exec (.readFc2 0x12345678 2) (ready [])) =
      some ([0x0B, 0x34, 0x56, 0x78], 2, .fc2) := by decide
theorem test_exec_readFc3 :
    loaded (exec (.readFc3 0xFFFFFFFF 2) (ready [])) =
      some ([0x1B, 0x3F, 0xFF, 0xFF], 2, .fc3) := by decide
theorem test_exec_pagerd :
    loaded (exec (.pagerd 0xC05 2) (ready [])) = some ([0xD2, 0x00, 0x0C, 0x05], 2, .fc2) := by
  decide
theorem test_exec_bufrdLow1 :
    loaded (exec (.bufrdLow1 0xC05 2) (ready [])) = some ([0xD1, 0x00, 0x00, 0x05], 2, .fc1) := by
  decide
theorem test_exec_bufrdLow2 :
    loaded (exec (.bufrdLow2 0xC05 2) (ready [])) = some ([0xD3, 0x00, 0x00, 0x05], 2, .fc1) := by
  decide
theorem test_exec_bufrdHigh1 :
    loaded (exec (.bufrdHigh1 0xC05 2) (ready [])) = some ([0xD4, 0x00, 0x00, 0x05], 2, .fc2) := by
  decide
theorem test_exec_bufrdHigh2 :
    loaded (exec (.bufrdHigh2 0xC05 2) (ready [])) = some ([0xD6, 0x00, 0x00, 0x05], 2, .fc2) := by
  decide
theorem test_exec_bufwr1 :
    loaded (exec (.bufwr1 0xC05 [0xA1, 0xB2]) (ready [])) =
      some ([0x84, 0x00, 0x00, 0x05], 2, .fc2) := by decide
theorem test_exec_bufwr2 :
    loaded (exec (.bufwr2 0xC05 [0xA1, 0xB2]) (ready [])) =
      some ([0x87, 0x00, 0x00, 0x05], 2, .fc2) := by decide
theorem test_exec_wtbE1 :
    loaded (exec (.wtbE1 0xC05 [0xA1, 0xB2]) (ready [])) =
      some ([0x82, 0x00, 0x0C, 0x05], 2, .fc2) := by decide
theorem test_exec_wtbE2 :
    loaded (exec (.wtbE2 0xC05 [0xA1, 0xB2]) (ready [])) =
      some ([0x85, 0x00, 0x0C, 0x05], 2, .fc2) := by decide
theorem test_exec_wtbN :
    loaded (exec (.wtbN 0xC05 [0xA1, 0xB2]) (ready [])) =
      some ([0x02, 0x00, 0x0C, 0x05], 2, .fc2) := by decide
theorem test_exec_wrbackE1 :
    loaded (exec (.wrbackE1 0xC05) (ready [])) = some ([0x83, 0x00, 0x0C, 0x00], 0, .fc2) := by
  decide
theorem test_exec_wrbackE2 :
    loaded (exec (.wrbackE2 0xC05) (ready [])) = some ([0x86, 0x00, 0x0C, 0x00], 0, .fc2) := by
  decide
theorem test_exec_wrbackN1 :
    loaded (exec (.wrbackN1 0xC05) (ready [])) = some ([0x88, 0x00, 0x0C, 0x00], 0, .fc2) := by
  decide
theorem test_exec_wrbackN2 :
    loaded (exec (.wrbackN2 0xC05) (ready [])) = some ([0x89, 0x00, 0x0C, 0x00], 0, .fc2) := by
  decide
theorem test_exec_copy1 :
    loaded (exec (.copy1 0xC05) (ready [])) = some ([0x53, 0x00, 0x0C, 0x00], 0, .fc2) := by decide
theorem test_exec_copy2 :
    loaded (exec (.copy2 0xC05) (ready [])) = some ([0x55, 0x00, 0x0C, 0x00], 0, .fc2) := by decide
theorem test_exec_cmp1 :
    loaded (exec (.cmp1 0xC05) (ready [])) = some ([0x60, 0x00, 0x0C, 0x00], 0, .fc2) := by decide
theorem test_exec_cmp2 :
    loaded (exec (.cmp2 0xC05) (ready [])) = some ([0x61, 0x00, 0x0C, 0x00], 0, .fc2) := by decide
theorem test_exec_cmpres :
    loaded (exec .cmpres State.reset) = some ([0xD7], 2, .fc2) := by decide
theorem test_exec_erasePage :
    loaded (exec (.erasePage 0x3405) (readyAs 16 true)) =
      some ([0x81, 0x00, 0x34, 0x00], 0, .fc2) := by decide
theorem test_exec_eraseBlock :
    loaded (exec (.eraseBlock 0x3405) (ready [])) = some ([0x50, 0x00, 0x20, 0x00], 0, .fc2) := by
  decide
theorem test_exec_eraseSector :
    loaded (exec (.eraseSector 0x96000) (ready [])) =
      some ([0x7C, 0x08, 0x00, 0x00], 0, .fc2) := by decide
theorem test_exec_eraseChip :
    loaded (exec .eraseChip State.reset) = some ([0xC7, 0x94, 0x80, 0x9A], 0, .fc2) := by decide
theorem test_exec_identify :
    loaded (exec .identify State.reset) = some ([0x9F], 3, .fc2) := by decide
theorem test_exec_init :
    loaded (exec .init (ready [])) = some ([0x9F], 3, .fc2) ∧
    look State.valid (exec .init (ready [])) = some false := by decide
theorem test_exec_deinit :
    delivered (exec .deinit (ready [])) = some [⟨.ok, []⟩] ∧
    look State.valid (exec .deinit (ready [])) = some false := by decide
theorem test_exec_ready :
    loaded (exec .ready State.reset) = some ([0xD7], 2, .fc2) := by decide
theorem test_exec_psmRefresh :
    loaded (exec .psmRefresh State.reset) = some ([0xD7], 2, .fc2) := by decide
theorem test_exec_psmCached :
    delivered (exec .psmCached (readyAs 16 true)) = some [⟨.bit true, []⟩] ∧
    delivered (exec .psmCached State.reset) = some [⟨.notInitialised, []⟩] := by decide
theorem test_exec_epe :
    loaded (exec .epe State.reset) = some ([0xD7], 2, .fc2) := by decide

/-! ## Gates and the initialisation guard: tables V6, V7 -/

theorem test_gate_before_guard :
    delivered (exec (.copy2 0) { plain with valid := false }) = some [⟨.unsupported, []⟩] ∧
    delivered (exec (.readFc3 0 1) plain) = some [⟨.unsupported, []⟩] ∧
    delivered (exec (.copy2 0) State.reset) = some [⟨.notInitialised, []⟩] := by decide

/-- Table V1 at the largest device: 64 Mbit, both modes; and 2 Mbit. -/
theorem test_wire_addresses :
    (readyAs 64 false).fullWire 0x00FFFFFF = some 0xFFFFFF ∧
    (readyAs 64 true).fullWire 0xFFFFFFFF = some 0x3FFFFF ∧
    (readyAs 64 false).sectorWire 0x12345678 = some 0x300000 ∧
    (readyAs 64 true).blockWire 0x003FFFFF = some 0x3FF000 ∧
    (readyAs 2 false).pageWire 0x00FFFFFF = some 0x07FC00 ∧
    (readyAs 16 true).bufWire 0x12345678 = some 0x000078 := by decide

/-- Table V3. -/
theorem test_density_decode :
    (([0x20, 0x21, 0x22, 0x29, 0x3F] : List Byte).map (densityDecode Config.default)).all
      (· == none) ∧
    ([0x23, 0x24, 0x25, 0x26, 0xE6, 0x27, 0x28] : List Byte).map (densityDecode Config.default) =
      [some 2, some 4, some 8, some 16, some 16, some 32, some 64] := by decide

/-! ## Rows of the micro-phase table -/

/-- A running page read of two bytes with one dummy transfer. -/
def readJob : Job :=
  { dummy := 1, data := .read 2, marksBusy := false, finish := .deliver (.done 2) }

/-- A running erase. -/
def eraseJob : Job := { dummy := 0, data := .none, marksBusy := true, finish := .poll .ok }

/-- A running page program of two bytes. -/
def programJob : Job :=
  { dummy := 0, data := .payload [0xA1, 0xB2], marksBusy := true, finish := .poll (.done 2) }

/-- A running identification of INIT or IDENTIFY. -/
def identJob (f : Finish) : Job :=
  { dummy := 0, data := .ident, marksBusy := false, finish := f }

theorem test_row_selOn :
    look (fun s => (s.sel, s.rs, s.phase, s.trace.drop 1))
      (step { running .selOn false eraseJob [] with hdr := [0x81, 0x00, 0x0C, 0x00] }) =
      some (true, .busy, .hdr 0, [.sel true]) := by decide

theorem test_row_hdr :
    look (fun s => (s.hdr, s.phase, s.trace.drop 1))
      (step { running (.hdr 3) true readJob [0x77] with hdr := [0x05], cnt := 1 }) =
      some ([], .dmy 0, [.xfer 0x05 .fc2 0x77]) := by decide

theorem test_row_dmy :
    look (fun s => (s.cnt, s.phase, s.out, s.trace.drop 1))
      (step { running (.dmy 0) true readJob [0x77] with cnt := 1 }) =
      some (2, .din 0, [], [.xfer 0x00 .fc2 0x77]) := by decide

theorem test_row_din :
    look (fun s => (s.cnt, s.phase, s.out))
      (step { running (.din 1) true readJob [0x77] with cnt := 1, out := [0x66] }) =
      some (0, .selOff, [0x66, 0x77]) := by decide

theorem test_row_dout :
    look (fun s => (s.cnt, s.phase, s.trace.drop 1))
      (step { running (.dout 1) true programJob [0x77] with cnt := 1 }) =
      some (0, .selOff, [.xfer 0xB2 .fc2 0x77]) := by decide

theorem test_row_selOff_read :
    look (fun s => (s.phase, s.sel, s.delivered))
      (step { running .selOff true readJob [] with out := [0x66, 0x77] }) =
      some (.idle, false, [⟨.done 2, [0x66, 0x77]⟩]) := by decide

theorem test_row_selOff_poll :
    look (fun s => (s.phase, s.sel, s.delivered)) (step (running .selOff true eraseJob [])) =
      some (.psOn, false, []) := by decide

/-- IDENTIFY with answers 1F 26 00, and with an invalid density code 0x29. -/
theorem test_identify_closes :
    look (fun s => (s.mfr, s.did0, s.did1, s.dens, s.delivered))
      (step { running .selOff true (identJob .identify) [] with out := [0x1F, 0x28, 0x00] }) =
      some (0x1F, 0x28, 0x00, 64, [⟨.ok, []⟩]) ∧
    look (fun s => (s.did0, s.dens, s.valid, s.delivered))
      (step { running .selOff true (identJob .identify) [] with out := [0x1F, 0x29, 0x00] }) =
      some (0x29, 16, false, [⟨.invalidDensity, []⟩]) := by decide

/-- INIT goes on to the snapshot. -/
theorem test_init_goes_on :
    look (fun s => (s.phase, s.hdr, s.cnt, s.delivered))
      (step { running .selOff true (identJob .initIdent) [] with out := [0x1F, 0x28, 0x00] }) =
      some (.selOn, [0xD7], 2, []) := by decide

/-- INIT stores the density, and ends with `PSM` from bit 0 of `AD` and `VALID = 1`. -/
theorem test_init_closes :
    look State.dens
      (step { running .selOff true (identJob .initIdent) [] with out := [0x1F, 0x28, 0x00] }) =
      some 64 ∧
    look (fun s => (s.psm, s.valid, s.rs, s.delivered))
      (step { running .selOff true (snapshotJob .initStatus) [] with
        valid := false, sr1 := 0xAD, sr2 := 0x88 }) =
      some (true, true, .ready, [⟨.ok, []⟩]) := by decide

/-- Table V4: `7F FF` and `AC A8`. -/
theorem test_status_queries_close :
    delivered (step { running .selOff true (snapshotJob (.query .rdy)) [] with sr1 := 0x7F }) =
      some [⟨.bit false, []⟩] ∧
    delivered (step { running .selOff true (snapshotJob (.query .comp)) [] with sr1 := 0x7F }) =
      some [⟨.bit true, []⟩] ∧
    delivered (step { running .selOff true (snapshotJob (.query .epe)) [] with
      sr1 := 0xAC, sr2 := 0xA8 }) = some [⟨.bit true, []⟩] ∧
    look (fun s => (s.psm, s.valid, s.rs))
      (step { running .selOff true (snapshotJob .refresh) [] with valid := false, sr1 := 0x7F }) =
      some (true, false, .busy) := by decide

/-- Table V4, last column: `AC 88`, `AC A8`, `2C 28`. -/
theorem test_poll_closes :
    delivered (step { running .psOff true eraseJob [] with sr1 := 0xAC, sr2 := 0x88 }) =
      some [⟨.ok, []⟩] ∧
    delivered (step { running .psOff true eraseJob [] with sr1 := 0xAC, sr2 := 0xA8 }) =
      some [⟨.fail, []⟩] ∧
    look (fun s => (s.phase, s.rs, s.delivered))
      (step { running .psOff true eraseJob [] with sr1 := 0x2C, sr2 := 0x28 }) =
      some (.psOn, .busy, []) := by decide

theorem test_fetch_word :
    look State.hdr (step (State.reset.withFetchWord 8 0x9F)) = some [0x9F] ∧
    look State.hdr (step ((ready []).withFetchWord 32 0x81000C00)) =
      some [0x81, 0x00, 0x0C, 0x00] := by decide

/-- A reset in mid-operation (70_reset_and_hazards.md R281). -/
theorem test_reset_in_operation :
    look (fun s => (s.phase, s.sel, s.rs, s.valid, s.delivered))
      (step { running .psB1 true eraseJob [] with rs := .busy, resetReq := true }) =
      some (.idle, false, .ready, false, []) := by decide

/-! ## The simulated device E -/

/-- E of the source's scenario: 16 Mbit, DataFlash pages (60_exceptions.md R256, R258, R259). -/
def device : Device where
  density := 16
  pageBits := 12
  addrBits := 12
  sectorLog := 8
  statusCode := 0xB
  mfr := 0x1F
  id0 := 0x26
  id1 := 0x00
  psize := false
  busyPolls := [(.wrbackE .one, 1), (.erasePage, 2)]
  main := []
  buf1 := [(5, 0xA1)]
  buf2 := []
  busy := 0
  comp := false
  epe := false
  xact := .deselected

/-- R258's five examples: `AC 88`, `2C 08`, `AC A8`, `EC 88`, `AD 88`. -/
theorem test_device_status :
    (device.status1, device.status2) = (0xAC, 0x88) ∧
    ({ device with busy := 1 }.status1, { device with busy := 1 }.status2) = (0x2C, 0x08) ∧
    ({ device with epe := true }.status1, { device with epe := true }.status2) = (0xAC, 0xA8) ∧
    ({ device with comp := true }.status1, { device with comp := true }.status2) = (0xEC, 0x88) ∧
    ({ device with psize := true }.status1, { device with psize := true }.status2) =
      (0xAD, 0x88) := by decide

/-- The wire address `00 0C 05` is page 3, position 5 (R257); `00 0F FF`, position 1023 of page 3, is
reduced modulo 528 (R266). -/
theorem test_device_address :
    (device.onAddress Config.default .pageRead 0x000C05).xact = .body .pageRead 3 5 0 [] ∧
    (device.onAddress Config.default .pageRead 0x000FFF).xact = .body .pageRead 3 495 0 [] := by
  decide

/-- A payload byte at the last position of the buffer; the next goes to position 0 (R261). -/
theorem test_device_payload_wraps :
    ({ device with xact := .body (.bufWrite .one) 0 527 0 [] }.onXfer Config.default 0x11 0).2 =
      { device with buf1 := [(5, 0xA1), (527, 0x11)],
                    xact := .body (.bufWrite .one) 0 0 0 [527] } := by decide

/-- R257: a command framed while E is busy is ignored; its opcode and address bytes are answered FF. -/
theorem test_device_busy_ignores :
    let e := { device with busy := 1 }
    replies Config.default 0x55 (e.onSel true) [0x83, 0x00, 0x0C, 0x00, 0x00] =
      [0xFF, 0xFF, 0xFF, 0xFF, 0x55] ∧
    exchange Config.default 0x55 e [0x83, 0x00, 0x0C, 0x00] = e := by decide

/-- The continuous read passes from page 4095 to page 0, the page read stays (R260). -/
theorem test_device_read_wraps :
    ({ device with xact := .body (.arrayRead .fc1) 4095 527 0 [] }.onXfer Config.default 0 0).2.xact
      = .body (.arrayRead .fc1) 0 0 0 [] ∧
    ({ device with xact := .body .pageRead 4095 527 0 [] }.onXfer Config.default 0 0).2.xact =
      .body .pageRead 4095 0 0 [] := by decide

/-! ## Witnesses for the hypotheses of the obligations

`wit_<Name>` meets every hypothesis of `Obligations.<Name>`. -/

theorem config_admissible : Config.default.admissible = true := by decide

theorem decodable_16 : decodable Config.default 16 = true := by decide

theorem decodable_64 : decodable Config.default 64 = true := by decide

theorem ready_inv (answers : List Byte) : MachineInv (ready answers) :=
  ⟨config_admissible, fun _ => decodable_16, rfl, rfl, trivial⟩

/-- E attached to a ready DFCF. -/
def attached : State := { ready [] with link := .device device }

theorem device_ok : Link.ok (.device device) := by
  refine ⟨?_, ?_, ?_⟩ <;> decide

theorem attached_inv : MachineInv attached :=
  ⟨by decide, fun _ => decodable_16, rfl, rfl, device_ok⟩

theorem attached_device : Attached attached device :=
  ⟨rfl, by decide, rfl, rfl, rfl, rfl, device_ok⟩

/-- A reset in mid-operation, and one in `IDLE` with E attached. -/
theorem wit_ResetStep : { running .psB1 true eraseJob [] with resetReq := true }.resetReq = true ∧
    { running .psB1 true eraseJob [] with resetReq := true }.phase ≠ .idle ∧
    { attached with resetReq := true }.phase = .idle ∧
    { attached with resetReq := true }.link = .device device ∧ device.xact = .deselected := by decide

theorem wit_StepRunsTheOfferedRequest :
    let s := { ready [] with requests := [[0x81, 0x00, 0x0C, 0x00, 0x00]] }
    s.resetReq = false ∧ s.phase = .idle ∧ s.requests = [0x81, 0x00, 0x0C, 0x00, 0x00] :: [] ∧
      decode [0x81, 0x00, 0x0C, 0x00, 0x00] = .ok (.erasePage 0xC00) := by decide

theorem wit_NoStepWithoutARequest :
    (State.reset.resetReq = false ∧ State.reset.phase = .idle ∧ State.reset.requests = []) ∧
    ({ State.reset with requests := [[0x58]] }.requests = [0x58] :: [] ∧
      decode [0x58] = .error (.unknownCode 0x58)) := by decide

theorem wit_DecodeOfEncode : (Instr.wtbN 0xFFFFFFFF [0xA1, 0xB2]).wellFormed = true := by decide

theorem wit_EncodeOfDecode :
    decode [0x02, 0xFF, 0xFF, 0xFF, 0xFF, 0, 0, 0, 2, 0xA1, 0xB2] =
      .ok (.wtbN 0xFFFFFFFF [0xA1, 0xB2]) := by decide

/-- The codec statements, at both modes of the largest device (widths 14 and 13). -/
theorem wit_CodecRoundTrip : Config.default.admissible = true ∧
    decodable Config.default 64 = true ∧ pageBits Config.default 64 false = some 14 ∧
    pageBits Config.default 64 true = some 13 := by decide

theorem wit_WireAddressFields : Config.default.admissible = true ∧
    decodable Config.default 64 = true ∧ pageBits Config.default 64 false = some 14 ∧
    pageBits Config.default 64 true = some 13 := by decide

theorem wit_GranularWireAddresses : Config.default.admissible = true ∧
    decodable Config.default 64 = true ∧ pageBits Config.default 64 true = some 13 ∧
    Config.default.sLog2.lookup 64 = some 9 := by decide

theorem wit_WireAddressDefined : (ready []).cfg.admissible = true ∧
    decodable (ready []).cfg (ready []).dens = true := by decide

/-- One state per clause: `F_OA`, `F_M4`, `F_O`. -/
theorem wit_FramingSteps :
    let s := fun h => { running .selOn false eraseJob [] with hdr := h }
    ((s []).phase = .selOn ∧ (s []).job = some eraseJob ∧ (s []).resetReq = false) ∧
    (s (frameOA 0x81 0xFFFFFF)).hdr = frameOA 0x81 0xFFFFFF ∧
    (s (frameM4 0xC794809A)).hdr = frameM4 0xC794809A ∧ (s (frameO 0xD7)).hdr = frameO 0xD7 := by
  decide

/-- A step in `IDLE`, one that selects and one that transfers. -/
theorem wit_OneEventPerMicroStep :
    (∃ t, step { ready [] with requests := [[0xD7, 0]] } = .next t) ∧
    (∃ t, step (running .psOn false eraseJob []) = .next t) ∧
    (∃ t, step (running .psB1 true eraseJob []) = .next t) ∧
    (running .psB1 true eraseJob []).resetReq = false := ⟨⟨_, rfl⟩, ⟨_, rfl⟩, ⟨_, rfl⟩, rfl⟩

theorem running_inv (p : Phase) (sel : Bool) (j : Job) (answers : List Byte)
    (h : seqOk (running p sel j answers) = true) (hi : initOk (running p sel j answers) = true) :
    MachineInv (running p sel j answers) :=
  ⟨config_admissible, fun _ => decodable_16, h, hi, trivial⟩

theorem wit_BusDiscipline :
    (MachineInv (running .psOn false eraseJob []) ∧
      ∃ t, step (running .psOn false eraseJob []) = .next t ∧
        t.trace = (running .psOn false eraseJob []).trace ++ [.sel true]) ∧
    (MachineInv (running .psB1 true eraseJob [0x2C]) ∧
      ∃ t, step (running .psB1 true eraseJob [0x2C]) = .next t ∧
        t.trace = (running .psB1 true eraseJob [0x2C]).trace ++ [.xfer 0 .fc2 0x2C]) ∧
    (MachineInv (running .psOff true eraseJob []) ∧
      ∃ t, step (running .psOff true eraseJob []) = .next t ∧
        t.trace = (running .psOff true eraseJob []).trace ++ [.sel false]) :=
  ⟨⟨running_inv _ _ _ _ rfl rfl, _, rfl, rfl⟩, ⟨running_inv _ _ _ _ rfl rfl, _, rfl, rfl⟩,
    ⟨running_inv _ _ _ _ rfl rfl, _, rfl, rfl⟩⟩

/-- The first byte of a command frame, and of a poll's snapshot. -/
theorem wit_TransactionsOpenWithAKnownOpcode :
    let s := { running (.hdr 0) true eraseJob [0] with hdr := [0x81, 0x00, 0x0C, 0x00] }
    (MachineInv s ∧ (∃ t, step s = .next t ∧ t.trace = s.trace ++ [.xfer 0x81 .fc2 0]) ∧
      s.phase = .hdr 0) ∧
    MachineInv (running .psOpc true eraseJob [0]) ∧
    ∃ t, step (running .psOpc true eraseJob [0]) = .next t ∧
      t.trace = (running .psOpc true eraseJob [0]).trace ++ [.xfer 0xD7 .fc2 0] :=
  ⟨⟨⟨by decide, fun _ => decodable_16, by decide, rfl, trivial⟩, ⟨_, rfl, rfl⟩, rfl⟩,
    running_inv _ _ _ _ rfl rfl, _, rfl, rfl⟩

theorem wit_UnsupportedExactly : missingCapability plain.cfg (.cmp2 0) = true ∧
    missingCapability plain.cfg (.readFc3 0 0) = true ∧
    ∃ t, step { plain with requests := [encode (.cmp2 0)] } = .next t ∧
      t.delivered = [] ++ [⟨.unsupported, []⟩] := ⟨rfl, rfl, _, rfl, rfl⟩

theorem wit_NotInitialisedExactly : missingCapability State.reset.cfg (.cmp2 0) = false ∧
    needsValid (.cmp2 0) = true ∧ State.reset.valid = false ∧
    ∃ t, step { State.reset with requests := [encode (.cmp2 0)] } = .next t ∧
      t.delivered = [] ++ [⟨.notInitialised, []⟩] := ⟨rfl, rfl, rfl, _, rfl, rfl⟩

theorem wit_InvalidDensityExactly :
    (ready [0xFF, 0x1F, 0x29, 0x00]).resetReq = false ∧
    (ready [0xFF, 0x1F, 0x29, 0x00]).link = .openLink (0xFF :: 0x1F :: 0x29 :: 0x00 :: []) ∧
    densityDecode (ready [0xFF, 0x1F, 0x29, 0x00]).cfg 0x29 = none ∧
    ∃ t, step { running .selOff true (identJob .identify) [] with out := [0x1F, 0x29, 0x00] } =
      .next t ∧ t.delivered = [] ++ [⟨.invalidDensity, []⟩] :=
  ⟨rfl, rfl, by decide, _, rfl, rfl⟩

theorem wit_FailExactly :
    let s := { running .psOff true eraseJob [] with sr1 := 0xAC, sr2 := 0xA8 }
    MachineInv s ∧ ∃ t, step s = .next t ∧ t.delivered = s.delivered ++ [⟨.fail, []⟩] :=
  ⟨⟨by decide, fun _ => decodable_16, rfl, rfl, trivial⟩, _, rfl, rfl⟩

theorem wit_UndefinedAddressingFaults :
    MayRun (readyAs 3 false) (.erasePage 0) ∧ (readyAs 3 false).pageWire 0 = none := by
  refine ⟨⟨rfl, fun _ => rfl, rfl⟩, by decide⟩

theorem wit_DensityDecode : Config.default.admissible = true ∧
    (0x02 : Byte).toNat % 32 ≤ 2 ∧ (0x26 : Byte).toNat % 32 = 6 ∧
    Config.default.densityTable.length ≤ (0x29 : Byte).toNat % 32 ∧
    densityDecode Config.default 0x28 = some 64 ∧
    Config.default.densityTable[(0x28 : Byte).toNat % 32]? = some 64 := by decide

theorem ready_may_run (answers : List Byte) (i : Instr) (h : missingCapability Config.default i = false) :
    MayRun (ready answers) i := ⟨h, fun _ => rfl, rfl⟩

theorem wit_ReadsComplete :
    ∀ f ∈ readForms (ready []) 0xFFFFFFFF 2, MayRun (ready []) f.op ∧ f.frame.isSome := by
  intro f hf
  simp only [readForms, List.mem_cons, List.mem_nil_iff, or_false] at hf
  rcases hf with rfl | rfl | rfl | rfl | rfl | rfl | rfl | rfl | rfl <;>
    exact ⟨ready_may_run _ _ (by decide), by decide⟩

theorem wit_BufferWritesComplete :
    ∀ f ∈ bufferWriteForms (ready []) 0xFFFFFFFF [0xA1, 0xB2],
      f.op.wellFormed = true ∧ MayRun (ready []) f.op ∧ f.frame.isSome := by
  intro f hf
  simp only [bufferWriteForms, List.mem_cons, List.mem_nil_iff, or_false] at hf
  rcases hf with rfl | rfl <;> exact ⟨by decide, ready_may_run _ _ (by decide), by decide⟩

theorem write_class_may_run (answers : List Byte) :
    ∀ f ∈ writeClassForms (ready answers) 0xC05 [0xA1, 0xB2],
      f.op.wellFormed = true ∧ MayRun (ready answers) f.op ∧ f.frame.isSome := by
  intro f hf
  simp only [writeClassForms, List.mem_cons, List.mem_nil_iff, or_false] at hf
  rcases hf with rfl | rfl | rfl | rfl | rfl | rfl | rfl | rfl | rfl | rfl | rfl <;>
    exact ⟨rfl, ready_may_run _ _ rfl, rfl⟩

theorem wit_WriteClassCommandTransaction :
    ∀ f ∈ writeClassForms (ready []) 0xC05 [0xA1, 0xB2],
      f.op.wellFormed = true ∧ MayRun (ready []) f.op ∧ f.frame.isSome := write_class_may_run []

/-- A program that is busy once, then ready with the error bit; and an erase that is ready at once
without it. -/
theorem wit_WriteClassCompletes :
    (let s := ready ([1, 2, 3, 4, 5, 6] ++ pollAnswers ([(0, 0x2C, 0x08)] ++ [(0, 0xAC, 0xA8)]) ++ [])
      ∃ f ∈ writeClassForms s 0xC05 [0xA1, 0xB2], f.op.wellFormed = true ∧ MayRun s f.op ∧
        f.frame = some [0x02, 0x00, 0x0C, 0x05] ∧
        ([1, 2, 3, 4, 5, 6] : List Byte).length =
          ([0x02, 0x00, 0x0C, 0x05] : List Byte).length + f.payload.length ∧
        readyBit s.cfg 0x2C = false ∧ readyBit s.cfg 0xAC = true ∧ errorBit s.cfg 0xA8 = true) ∧
    (let s := ready ([1, 2, 3, 4] ++ pollAnswers ([] ++ [(0, 0xAC, 0x88)]) ++ [])
      ∃ f ∈ writeClassForms s 0xC05 [], f.op.wellFormed = true ∧ MayRun s f.op ∧
        f.frame = some [0xC7, 0x94, 0x80, 0x9A] ∧
        ([1, 2, 3, 4] : List Byte).length =
          ([0xC7, 0x94, 0x80, 0x9A] : List Byte).length + f.payload.length ∧
        readyBit s.cfg 0xAC = true ∧ errorBit s.cfg 0x88 = false) := by
  constructor
  · intro s
    exact ⟨_, .tail _ (.tail _ (.head _)), rfl, ready_may_run _ _ rfl, by decide,
      by decide, by decide, by decide, by decide⟩
  · intro s
    exact ⟨_, .tail _ (.tail _ (.tail _ (.tail _ (.tail _ (.tail _ (.tail _ (.tail _ (.tail _
      (.tail _ (.head _)))))))))), rfl, ready_may_run _ _ rfl, by decide, by decide, by decide, by decide⟩

theorem wit_CopyCompareIssue :
    ∀ f ∈ issueForms (ready []) 0xC05, MayRun (ready []) f.op ∧ f.frame.isSome := by
  intro f hf
  simp only [issueForms, List.mem_cons, List.mem_nil_iff, or_false] at hf
  rcases hf with rfl | rfl | rfl | rfl <;> exact ⟨ready_may_run _ _ (by decide), by decide⟩

theorem wit_StatusQueriesComplete : State.reset.resetReq = false := rfl

theorem wit_PsmRefreshCompletes : State.reset.resetReq = false := rfl

theorem wit_NoBusOperationsComplete : (ready []).valid = true := rfl

theorem wit_IdentifyCompletes : State.reset.resetReq = false := rfl

/-- Answers of a device with a valid density, in power-of-2 mode. -/
theorem wit_InitCompletes :
    let s := ready [0xFF, 0x1F, 0x26, 0x00, 0xFF, 0xAD, 0x88]
    s.resetReq = false ∧
      s.link = .openLink (0xFF :: 0x1F :: 0x26 :: 0x00 :: 0xFF :: 0xAD :: 0x88 :: []) ∧
      densityDecode s.cfg 0x26 = some 16 := by decide

theorem wit_PollLoopTurn :
    let s := running .psOn false eraseJob [0, 0xAC, 0x88]
    s.phase = .psOn ∧ s.job = some eraseJob ∧ eraseJob.finish = .poll .ok ∧ s.resetReq = false := by
  decide

theorem wit_BusyDeviceKeepsTheLoop :
    let s := running .psOn false eraseJob (pollAnswers [(0, 0x2C, 0x08), (0, 0x2C, 0x28)] ++ [])
    s.phase = .psOn ∧ s.job = some eraseJob ∧ eraseJob.finish = .poll .ok ∧ s.resetReq = false ∧
      (∀ p ∈ [((0, 0x2C, 0x08) : Poll), (0, 0x2C, 0x28)], readyBit s.cfg p.2.1 = false) ∧
      s.link = .openLink (pollAnswers [(0, 0x2C, 0x08), (0, 0x2C, 0x28)] ++ []) :=
  ⟨rfl, rfl, rfl, rfl, by
    simp [readyBit, running, ready, State.reset, State.resetWith, Config.default], rfl⟩

theorem wit_StepKeepsInvariant : MachineInv attached ∧
    ∃ t, step { attached with requests := [encode (.wrbackE1 0xC00)] } = .next t :=
  ⟨attached_inv, _, rfl⟩

theorem wit_StepExistsExactly : MachineInv (ready []) ∧
    MachineInv (running .psOn false eraseJob []) :=
  ⟨ready_inv _, running_inv _ _ _ _ rfl rfl⟩

theorem wit_ConfigurationIsConstant :
    ∃ t, step { ready [] with requests := [encode .ready] } = .next t := ⟨_, rfl⟩

/-- One step per clause: a step that writes nothing, the end of INIT, DEINIT, a failed IDENTIFY. -/
theorem wit_DeviceRegisterWriters :
    (∃ t, step (running .psOn false eraseJob []) = .next t) ∧
    (∃ t, step { running .selOff true (snapshotJob .initStatus) [] with valid := false } = .next t ∧
      t.valid = true) ∧
    (∃ t, step { ready [] with requests := [encode .deinit] } = .next t ∧ t.valid = false) ∧
    ∃ t, step { running .selOff true (identJob .identify) [] with out := [0x1F, 0x29, 0] } =
      .next t ∧ t.valid = false := ⟨⟨_, rfl⟩, ⟨_, rfl, rfl⟩, ⟨_, rfl, rfl⟩, ⟨_, rfl, rfl⟩⟩

/-- One step per clause: `SEL(1)` of a command, the end of a snapshot, the end of a poll, another,
the acceptance of a request. -/
theorem wit_ReadinessRegister :
    let s0 := { running .selOn false eraseJob [] with hdr := [0x81, 0, 0, 0] }
    (MachineInv s0 ∧ s0.job = some eraseJob ∧ ∃ t, step s0 = .next t) ∧
    (MachineInv (running .selOff true (snapshotJob (.query .rdy)) []) ∧
      ∃ t, step (running .selOff true (snapshotJob (.query .rdy)) []) = .next t) ∧
    (MachineInv (running .psOff true eraseJob []) ∧
      ∃ t, step (running .psOff true eraseJob []) = .next t) ∧
    (MachineInv (running .psB1 true eraseJob []) ∧
      ∃ t, step (running .psB1 true eraseJob []) = .next t) ∧
    (ready []).phase = .idle ∧ ∃ t, step { ready [] with requests := [encode .ready] } = .next t :=
  ⟨⟨⟨by decide, fun _ => decodable_16, by decide, rfl, trivial⟩, rfl, _, rfl⟩,
    ⟨running_inv _ _ _ _ (by decide) (by decide), _, rfl⟩,
    ⟨running_inv _ _ _ _ rfl rfl, _, rfl⟩, ⟨running_inv _ _ _ _ rfl rfl, _, rfl⟩, rfl, _, rfl⟩

theorem wit_OutcomeEndsTheOperation :
    MachineInv (running .selOff true (snapshotJob (.query .rdy)) []) ∧
    ∃ t, step (running .selOff true (snapshotJob (.query .rdy)) []) = .next t ∧
      t.delivered ≠ [] ∧ t.phase = .idle :=
  ⟨running_inv _ _ _ _ (by decide) (by decide), _, rfl, by decide, rfl⟩

/-- `VALID = 0` in `IDLE`, and in the middle of an INIT that is about to write `PSM`. -/
theorem wit_UnsetRegistersAreNotRead : State.reset.valid = false ∧
    let s := { running .selOff true (snapshotJob .initStatus) [] with valid := false }
    s.valid = false ∧ (∃ t, step s = .next t) ∧
      ∃ u, step (withDevice s 1 2 3 4 true) = .next u := ⟨rfl, rfl, ⟨_, rfl⟩, _, rfl⟩

theorem wit_ScratchIsNotCarriedOver : MachineInv (ready [0, 1, 2]) ∧ (ready [0, 1, 2]).phase = .idle :=
  ⟨ready_inv _, rfl⟩

theorem wit_DeviceTakesEveryFrame : attached.cfg.admissible = true ∧
    decodable attached.cfg attached.dens = true ∧ Attached attached device ∧
    attached.pageBits = some 12 ∧ attached.sectorLog = some 8 ∧
    magicByte attached.cfg.opc.magicEraseChip 3 ∉ attached.cfg.opc.all :=
  ⟨by decide, by decide, attached_device, by decide, by decide, by decide⟩

/-- The last position of a page. -/
theorem wit_DeviceWorkOnMainMemory : Link.ok (.device device) ∧ 527 < device.pageBytes ∧
    ∀ k ∈ [0, 527], k < device.pageBytes := ⟨device_ok, by decide, by decide⟩

theorem wit_DeviceWorkOnBuffersAndFlags : Link.ok (.device device) := device_ok

/-- A read with and without a dummy byte to come, the last byte of the last page, a payload byte, a
byte the command does not define. -/
theorem wit_DeviceDataByte :
    Link.ok (.device { device with xact := .body (.arrayRead .fc0) 4095 527 0 [] }) ∧
    527 + 1 = device.pageBytes ∧ 4095 + 1 = 2 ^ device.pageBits ∧
    Link.ok (.device { device with xact := .body .erasePage 3 0 0 [] }) ∧
    Link.ok (.device { device with xact := .body .pageRead 3 527 1 [] }) ∧
    Link.ok (.device { device with xact := .body (.bufRead true .one) 0 5 0 [] }) ∧
    Link.ok (.device { device with xact := .body .wtbN 3 5 0 [4] }) :=
  ⟨device_ok, rfl, by decide, device_ok, device_ok, device_ok, device_ok⟩

/-- A program at its `SEL(0)`, a copy at its `SEL(0)`, a payload byte. -/
theorem wit_DeviceArraysFrame :
    (∃ t e', step { running .selOff true eraseJob [] with
        link := .device { device with xact := .body (.wrbackN .one) 3 0 0 [] } } = .next t ∧
      t.link = .device e') ∧
    (∃ t e', step { running .selOff true { eraseJob with finish := .deliver .ok } [] with
        link := .device { device with xact := .body (.copy .one) 3 0 0 [] } } = .next t ∧
      t.link = .device e') ∧
    ∃ t e', step { running (.dout 0) true programJob [] with
        cnt := 2, link := .device { device with xact := .body (.wtbE .one) 3 5 0 [] } } = .next t ∧
      t.link = .device e' := ⟨⟨_, _, rfl, rfl⟩, ⟨_, _, rfl, rfl⟩, ⟨_, _, rfl, rfl⟩⟩

theorem wit_DeviceEndsThePoll :
    let s := { running .psOn false eraseJob [] with link := .device { device with busy := 2 } }
    s.phase = .psOn ∧ s.job = some eraseJob ∧ eraseJob.finish = .poll .ok ∧ s.resetReq = false ∧
      s.link = .device { device with busy := 2 } ∧ device.xact = .deselected ∧
      s.cfg.rdyBit = 7 ∧ s.cfg.epeBit = 5 := by decide

/-- The last page, eight bytes (95_test_vectors.md S7). -/
theorem wit_DeviceRoundTrip : Config.default.admissible = true ∧
    device.matches Config.default = true ∧ decodable Config.default device.density = true ∧
    Link.ok (.device device) ∧ device.xact = .deselected ∧ device.busy = 0 ∧
    4095 < 2 ^ device.addrBits ∧ ([1, 2, 3, 4, 5, 6, 7, 8] : List Byte).length ≤ device.pageBytes :=
  ⟨by decide, by decide, by decide, device_ok, rfl, rfl, by decide, by decide⟩

/-- Page 3, eight bytes (95_test_vectors.md S7). -/
theorem wit_WriteThenReadReturnsTheBytes :
    let data : List Byte := [1, 2, 3, 4, 5, 6, 7, 8]
    let s := { attached with requests :=
      [encode (.bufwr1 0 data), encode (.wrbackE1 0xC00), encode (.pagerd 0xC00 8)] }
    MachineInv s ∧ s.phase = .idle ∧ s.resetReq = false ∧ s.valid = true ∧ Attached s device ∧
      s.cfg.rdyBit = 7 ∧ s.cfg.epeBit = 5 ∧ data.length ≤ device.pageBytes ∧
      (0xC00 : Addr).toNat % 2 ^ s.offsetBits = 0 ∧ (8 : Len) = BitVec.ofNat 32 data.length :=
  ⟨⟨by decide, fun _ => decodable_16, rfl, rfl, device_ok⟩, rfl, rfl, rfl,
    ⟨rfl, by decide, rfl, rfl, rfl, rfl, device_ok⟩, rfl, rfl, by decide, by decide, by decide⟩

theorem wit_UnsetRegistersNeverShow : MachineInv State.reset ∧ State.reset.phase = .idle ∧
    State.reset.valid = false :=
  ⟨⟨config_admissible, by simp [State.reset, State.resetWith], rfl, rfl, trivial⟩, rfl, rfl⟩

/-- Known and unknown opcode, busy E. -/
theorem wit_DeviceTransactionDecode :
    (0x84 : Byte) ≠ Config.default.opc.status ∧ (0x84 : Byte) ≠ Config.default.opc.jedec ∧
    (0x58 : Byte) ≠ Config.default.opc.status ∧ (0x58 : Byte) ≠ Config.default.opc.jedec ∧
    (0x58 : Byte) ∉ (devCommands Config.default).map Prod.fst ∧
    (0x58 : Byte) ≠ magicByte Config.default.opc.magicEraseChip 3 ∧
    0 < { device with busy := 1 }.busy := by decide

/-- The last byte of the last page, one dummy byte to come. -/
theorem wit_DeviceReadsRunOn :
    let e := { device with xact := .body (.arrayRead .fc1) 4095 527 1 [] }
    e.xact = .body (.arrayRead .fc1) 4095 527 1 [] ∧ 527 < e.pageBytes ∧ 4095 < 2 ^ e.pageBits ∧
      isRead (.arrayRead .fc1) = true ∧ 0 < 1 ∧ 0 < ([0, 0, 0] : List Byte).length ∧
      1 + 1 < ([0, 0, 0] : List Byte).length := by decide

/-- A payload that goes past the end of its buffer. -/
theorem wit_DevicePayloadWraps :
    let e := { device with xact := .body (.wtbE .two) 3 527 0 [] }
    Link.ok (.device e) ∧ e.xact = .body (.wtbE .two) 3 527 0 [] ∧
      payloadBuf (.wtbE .two) = some .two ∧ 527 < e.pageBytes ∧
      (∀ j < ([1, 2] : List Byte).length, 1 < j → (527 + j) % e.pageBytes ≠ (527 + 1) % e.pageBytes) ∧
      ∀ k < ([1, 2] : List Byte).length, (527 + k) % e.pageBytes ≠ 5 :=
  ⟨device_ok, rfl, rfl, by decide, by decide, by decide⟩

theorem wit_OffsetWidthFollowsPsm :
    ((readyAs 64 true).fullWire 0xFFFFFFFF).isSome ∧ ((readyAs 64 true).pageWire 0xFFFFFFFF).isSome ∧
    ((readyAs 64 true).blockWire 0xFFFFFFFF).isSome ∧
    ((readyAs 64 false).sectorWire 0xFFFFFFFF).isSome := by decide

/-- `PG(3, 5)` in both modes, and at the top of the address space (R101). -/
theorem test_pg : (readyAs 16 false).pg 3 5 = 0xC05 ∧ (readyAs 16 true).pg 3 5 = 0x605 ∧
    (0x3FFFFF <<< 10) ||| 0x3FF < 2 ^ 32 := by decide

/-- A status read clocked for three bytes by a busy E, and an identification for four (R258, R259). -/
theorem test_device_status_and_identification :
    replies Config.default 0x55 ({ device with busy := 1 }.onSel true) [0xD7, 0, 0, 0] =
      [0xFF, 0x2C, 0x08, 0x2C] ∧
    exchange Config.default 0x55 { device with busy := 1 } [0xD7, 0, 0, 0] = device ∧
    replies Config.default 0x55 (device.onSel true) [0x9F, 0, 0, 0, 0] =
      [0xFF, 0x1F, 0x26, 0x00, 0x00] := by decide

theorem wit_DeviceIdentification : Config.default.admissible = true ∧ device.busy = 0 := by decide

end Sys2Proof.Tests
end

section
/-! PROOFS. The scope of the model: the decoder yields well-formed requests, which row of the table
of 40_primitives.md R131 leaves what unchanged, and the invariant is kept by every step. -/

namespace Sys2Proof

/-! ## The decoder yields well-formed requests -/

/-- A form builds operations whose payload is the bytes given to it, and none where it takes none. -/
def Form.CarriesPayload : Form → Prop
  | .read mk => ∀ a n, (mk a n).payload = []
  | .write mk => ∀ a data, (mk a data).payload = data
  | .addressed mk => ∀ a, (mk a).payload = []
  | .magic => True
  | .select l => ∀ i ∈ l, i.payload = []

theorem formOf_carriesPayload {b : Byte} {f : Form} (h : formOf b = some f) :
    f.CarriesPayload := by
  unfold formOf at h
  split at h <;> cases h <;> simp [Form.CarriesPayload, Instr.payload]

theorem Instr.wellFormed_of_payload_nil {i : Instr} (h : i.payload = []) :
    i.wellFormed = true := by simp [Instr.wellFormed, h]

/-- A count operand has `LEN_W` bits, so a payload that was read fits one (10_state.md R36). -/
theorem decodeForm_wellFormed {f : Form} {bs : List Byte} {i : Instr} (hf : f.CarriesPayload)
    (h : decodeForm f bs = .ok i) : i.wellFormed = true := by
  unfold decodeForm at h
  split at h
  case h_1 mk bs =>
    split at h <;> try cases h
    split at h <;> try cases h
    obtain ⟨-, rfl⟩ := finish_ok h
    exact Instr.wellFormed_of_payload_nil (hf _ _)
  case h_2 mk bs =>
    split at h <;> try cases h
    split at h <;> try cases h
    next n data _ =>
    split at h <;> try cases h
    split at h <;> cases h
    have hn : n.toNat < 2 ^ 32 := n.isLt
    simp only [Instr.wellFormed, hf _ data, decide_eq_true_eq]
    omega
  case h_3 mk bs =>
    split at h <;> try cases h
    obtain ⟨-, rfl⟩ := finish_ok h
    exact Instr.wellFormed_of_payload_nil (hf _)
  case h_4 =>
    split at h <;> try cases h
    obtain ⟨-, rfl⟩ := finish_ok h
    rfl
  case h_5 => cases h
  case h_6 l b bs =>
    split at h <;> try cases h
    obtain ⟨-, rfl⟩ := finish_ok h
    exact Instr.wellFormed_of_payload_nil (hf _ (List.mem_of_getElem? ‹_›))
  case h_7 => cases h

theorem decode_wellFormed {bs : List Byte} {i : Instr} (h : decode bs = .ok i) :
    i.wellFormed = true := by
  unfold decode at h
  split at h <;> try cases h
  split at h <;> try cases h
  exact decodeForm_wellFormed (formOf_carriesPayload ‹_›) h

end Sys2Proof
end

section
/-! PROOFS. What an accepted request and a micro-step leave unchanged. -/

namespace Sys2Proof.Machine

/-- Accepting a request touches neither the configuration nor the port nor the reset request. -/
theorem Accepts.frame {i : Instr} {s t : State} (h : Accepts i s t) :
    t.cfg = s.cfg ∧ t.requests = s.requests ∧ t.resetReq = s.resetReq := by
  cases h <;> simp

/-- No row of the table of 40_primitives.md R131 after IDLE writes the configuration, the port or
the reset request. -/
theorem Micro.frame {j : Job} {s t : State} (h : Micro j s t) :
    t.cfg = s.cfg ∧ t.requests = s.requests ∧ t.resetReq = s.resetReq := by
  cases h
  case selOff h =>
    obtain ⟨-, -, -, hcfg, hreq, hreset⟩ := h.frame
    exact ⟨hcfg, hreq, hreset⟩
  all_goals simp

/-- A row after IDLE performs one bus event, which keeps E's arrays in canonical form. -/
theorem Micro.link_ok {j : Job} {s t : State} (h : Micro j s t) (hl : s.link.ok) :
    t.link.ok := by
  cases h
  case selOff h =>
    obtain ⟨-, -, hlink, -⟩ := h.frame
    exact hlink ▸ Link.onSel_ok hl false
  case selOn | psOn | psReady | psBusy => exact Link.onSel_ok hl _
  case din =>
    simp only [State.capture_link, State.xfer_link]
    exact Link.onXfer_ok hl _ _ _
  case hdr | dmyLast | dmy | dout | psOpc | psB1 | psB2 => exact Link.onXfer_ok hl _ _ _

/-- But for the closing of a command transaction, a row after IDLE writes neither `DENS` nor
`VALID`, and the request being run stays or has ended. -/
theorem Micro.closes_or_keeps {j : Job} {s t : State} (h : Micro j s t) : Closes j s t ∨
    (s.phase ≠ .selOff ∧ t.dens = s.dens ∧ t.valid = s.valid ∧
      (t.job = s.job ∨ t.job = none)) := by
  cases h
  case selOff h => exact .inl h
  all_goals exact .inr (by simp [*])

end Sys2Proof.Machine
end

section
/-! PROOFS. The sequencer part of the invariant, phase by phase, and the data phase. -/

namespace Sys2Proof.Machine

/-! ## The sequencer part of the invariant in each phase -/

section
variable {s : State} {j : Job}

theorem seqOk_selOn (hp : s.phase = .selOn) (hj : s.job = some j) : seqOk s = true ↔
    j.ok = true ∧ s.sel = false ∧ frameOk s.cfg s.hdr = true ∧ s.cnt = j.firstCount ∧
      s.out = [] := by simp [seqOk, hp, hj, and_assoc]

theorem seqOk_hdr_zero (hp : s.phase = .hdr 0) (hj : s.job = some j) : seqOk s = true ↔
    j.ok = true ∧ s.sel = true ∧ frameOk s.cfg s.hdr = true ∧ s.cnt = j.firstCount ∧
      s.out = [] := by simp [seqOk, hp, hj, and_assoc]

theorem seqOk_hdr_succ {i : Nat} (hp : s.phase = .hdr (i + 1)) (hj : s.job = some j) :
    seqOk s = true ↔ j.ok = true ∧ s.sel = true ∧ s.hdr ≠ [] ∧ s.hdr.length + (i + 1) ≤ 4 ∧
      s.cnt = j.firstCount ∧ s.out = [] := by simp [seqOk, hp, hj, and_assoc]

theorem seqOk_dmy {k : Nat} (hp : s.phase = .dmy k) (hj : s.job = some j) : seqOk s = true ↔
    j.ok = true ∧ s.sel = true ∧ s.cnt ≠ 0 ∧ k + s.cnt.toNat = j.dummy.toNat ∧ s.out = [] := by
  simp [seqOk, hp, hj, and_assoc]

theorem seqOk_din {k : Nat} (hp : s.phase = .din k) (hj : s.job = some j) : seqOk s = true ↔
    j.ok = true ∧ s.sel = true ∧ s.cnt ≠ 0 ∧ k + s.cnt.toNat = j.data.count.toNat ∧
      j.data.readsBack = true ∧ s.out.length = j.data.outLength k := by
  simp [seqOk, hp, hj, and_assoc]

theorem seqOk_dout {k : Nat} (hp : s.phase = .dout k) (hj : s.job = some j) : seqOk s = true ↔
    j.ok = true ∧ s.sel = true ∧ s.cnt ≠ 0 ∧ k + s.cnt.toNat = j.data.count.toNat ∧
      j.data.readsBack = false ∧ s.out = [] := by
  simp [seqOk, hp, hj, and_assoc]

theorem seqOk_selOff (hp : s.phase = .selOff) (hj : s.job = some j) : seqOk s = true ↔
    j.ok = true ∧ s.sel = true ∧ s.out.length = j.data.outLength j.data.count.toNat := by
  simp [seqOk, hp, hj, and_assoc]

theorem seqOk_psOn (hp : s.phase = .psOn) (hj : s.job = some j) : seqOk s = true ↔
    j.ok = true ∧ j.polls = true ∧ s.sel = false := by simp [seqOk, hp, hj, and_assoc]

/-- The phases of the poll loop in which select is asserted. -/
theorem seqOk_ps (hp : s.phase = .psOpc ∨ s.phase = .psB1 ∨ s.phase = .psB2 ∨ s.phase = .psOff)
    (hj : s.job = some j) :
    seqOk s = true ↔ j.ok = true ∧ j.polls = true ∧ s.sel = true := by
  rcases hp with hp | hp | hp | hp <;> simp [seqOk, hp, hj, and_assoc]

theorem seqOk_idle (hp : s.phase = .idle) (hj : s.job = none) :
    seqOk s = true ↔ s.sel = false := by simp [seqOk, hp, hj]

/-- After `i` bytes of a frame `hdr` holds at most the rest of four (30_encoding.md R80). -/
theorem seqOk_hdr {i : Nat} (hp : s.phase = .hdr i) (hj : s.job = some j) (h : seqOk s = true) :
    j.ok = true ∧ s.sel = true ∧ s.hdr.length + i ≤ 4 ∧ s.cnt = j.firstCount ∧ s.out = [] := by
  cases i with
  | zero =>
    obtain ⟨hok, hsel, hf, hc, ho⟩ := (seqOk_hdr_zero hp hj).1 h
    refine ⟨hok, hsel, ?_, hc, ho⟩
    unfold frameOk at hf
    split at hf <;> simp_all
  | succ i =>
    obtain ⟨hok, hsel, -, hl, hc, ho⟩ := (seqOk_hdr_succ hp hj).1 h
    exact ⟨hok, hsel, hl, hc, ho⟩

end

/-! ## The data phase -/

theorem DataPhase.firstPhase_cases (d : DataPhase) :
    (d.count = 0 ∧ d.firstPhase = .selOff) ∨
    (d.count ≠ 0 ∧ d.readsBack = true ∧ d.firstPhase = .din 0) ∨
    (d.count ≠ 0 ∧ d.readsBack = false ∧ d.firstPhase = .dout 0) := by
  by_cases h : d.count = 0
  · exact .inl ⟨h, by simp [DataPhase.firstPhase, h]⟩
  · right
    cases d
    case none => exact absurd rfl h
    case payload => exact .inr ⟨h, rfl, if_neg h⟩
    case read | snapshot | ident => exact .inl ⟨h, rfl, if_neg h⟩

@[simp] theorem DataPhase.outLength_zero (d : DataPhase) : d.outLength 0 = 0 := by
  cases d <;> rfl

theorem DataPhase.outLength_of_not_readsBack {d : DataPhase} (h : d.readsBack = false) (k : Nat) :
    d.outLength k = 0 := by
  cases d
  case none | payload | snapshot => rfl
  case read | ident => cases h

/-- The answer of `DIN(k)` is the next captured byte, or a status byte of a snapshot. -/
theorem State.capture_out_length {s : State} {d : DataPhase} {k : Nat} (hd : d.readsBack = true)
    (ho : s.out.length = d.outLength k) (i : Byte) :
    (s.capture d k i).out.length = d.outLength (k + 1) := by
  cases d
  case none | payload => cases hd
  case read | ident => simpa [State.capture, DataPhase.outLength] using ho
  case snapshot => unfold State.capture; dsimp only; split <;> exact ho

/-- The data phase starts with nothing captured and all of its transfers to do. -/
theorem seqOk_firstPhase {s : State} {j : Job} (hj : s.job = some j)
    (hp : s.phase = j.data.firstPhase) (hok : j.ok = true) (hsel : s.sel = true)
    (hc : s.cnt = j.data.count) (ho : s.out = []) : seqOk s = true := by
  rcases j.data.firstPhase_cases with ⟨h0, hf⟩ | ⟨h0, hr, hf⟩ | ⟨h0, hr, hf⟩
  · exact Iff.mpr (seqOk_selOff (hp.trans hf) hj) ⟨hok, hsel, by simp [ho, h0]⟩
  · exact Iff.mpr (seqOk_din (hp.trans hf) hj) ⟨hok, hsel, hc ▸ h0, by simp [hc], hr, by simp [ho]⟩
  · exact Iff.mpr (seqOk_dout (hp.trans hf) hj) ⟨hok, hsel, hc ▸ h0, by simp [hc], hr, ho⟩

/-- After the last header byte the dummy transfers follow, if there are any, and else the data. -/
theorem seqOk_afterHeader {s : State} {j : Job} (hj : s.job = some j)
    (hp : s.phase = j.afterHeader) (hok : j.ok = true) (hsel : s.sel = true)
    (hc : s.cnt = j.firstCount) (ho : s.out = []) : seqOk s = true := by
  by_cases hd : j.dummy = 0
  · simp only [Job.afterHeader, Job.firstCount, hd, if_true] at hp hc
    exact seqOk_firstPhase hj hp hok hsel hc ho
  · simp only [Job.afterHeader, Job.firstCount, hd, if_false] at hp hc
    exact Iff.mpr (seqOk_dmy hp hj) ⟨hok, hsel, hc ▸ hd, by simp [hc], ho⟩

/-- A row that does a transfer and has others to do leaves a count of one less. -/
theorem count_step {c : Len} {k n : Nat} (hc : c ≠ 0) (h : k + c.toNat = n) :
    k + 1 + (c - 1).toNat = n := by
  obtain ⟨hpred, hpos⟩ := count_pred hc
  omega

/-- The last transfer of a phase is the `n`-th. -/
theorem count_last {c : Len} {k n : Nat} (hc : c ≠ 0) (h : k + c.toNat = n) (h0 : c - 1 = 0) :
    k + 1 = n := by
  have hstep := count_step hc h
  rwa [h0] at hstep

/-! ## Every row keeps it -/

theorem polls_of_finish {j : Job} {o : OpOutcome} (h : j.finish = .poll o) : j.polls = true := by
  simp [Job.polls, h]

/-- The rows but `SEL_OFF` lead from one row of the table of 40_primitives.md R131 to another. -/
theorem Micro.keeps_seqOk {j : Job} {s t : State} (h : Micro j s t) (hj : s.job = some j)
    (hs : seqOk s = true) (hp : s.phase ≠ .selOff) : seqOk t = true := by
  cases h
  case selOn hp =>
    obtain ⟨hok, -, hf, hc, ho⟩ := (seqOk_selOn hp hj).1 hs
    exact Iff.mpr (seqOk_hdr_zero rfl hj) ⟨hok, rfl, hf, hc, ho⟩
  case hdr i b rest hp hh =>
    obtain ⟨hok, hsel, hl, hc, ho⟩ := seqOk_hdr hp hj hs
    by_cases hr : rest = []
    · exact seqOk_afterHeader hj (if_pos hr) hok hsel hc ho
    · refine Iff.mpr (seqOk_hdr_succ (i := i) (if_neg hr) hj) ⟨hok, hsel, hr, ?_, hc, ho⟩
      rw [hh, List.length_cons] at hl
      show rest.length + (i + 1) ≤ 4
      omega
  case dmyLast k hp hc0 =>
    obtain ⟨hok, hsel, -, -, ho⟩ := (seqOk_dmy hp hj).1 hs
    exact seqOk_firstPhase hj rfl hok hsel rfl ho
  case dmy k hp hc0 =>
    obtain ⟨hok, hsel, hc, hk, ho⟩ := (seqOk_dmy hp hj).1 hs
    exact Iff.mpr (seqOk_dmy rfl hj) ⟨hok, hsel, hc0, count_step hc hk, ho⟩
  case din k hp =>
    obtain ⟨hok, hsel, hc, hk, hr, ho⟩ := (seqOk_din hp hj).1 hs
    have ho' := State.capture_out_length (s := s.xfer s.cfg.fill s.fc) hr ho
      (s.answer s.cfg.fill s.fc)
    by_cases hc0 : s.cnt - 1 = 0
    · exact Iff.mpr (seqOk_selOff (if_pos hc0) (by simpa using hj))
        ⟨hok, by simpa using hsel, count_last hc hk hc0 ▸ ho'⟩
    · exact Iff.mpr (seqOk_din (k := k + 1) (if_neg hc0) (by simpa using hj))
        ⟨hok, by simpa using hsel, hc0, count_step hc hk, hr, ho'⟩
  case dout k data b hp hd hb =>
    obtain ⟨hok, hsel, hc, hk, hr, ho⟩ := (seqOk_dout hp hj).1 hs
    by_cases hc0 : s.cnt - 1 = 0
    · exact Iff.mpr (seqOk_selOff (if_pos hc0) hj)
        ⟨hok, hsel, by simp [ho, DataPhase.outLength_of_not_readsBack hr]⟩
    · exact Iff.mpr (seqOk_dout (k := k + 1) (if_neg hc0) hj)
        ⟨hok, hsel, hc0, count_step hc hk, hr, ho⟩
  case selOff hp' _ => exact absurd hp' hp
  case psOn hp =>
    obtain ⟨hok, hpoll, -⟩ := (seqOk_psOn hp hj).1 hs
    exact Iff.mpr (seqOk_ps (.inl rfl) hj) ⟨hok, hpoll, rfl⟩
  case psOpc hp | psB1 hp | psB2 hp =>
    exact Iff.mpr (seqOk_ps (by simp) hj) ((seqOk_ps (by simp [hp]) hj).1 hs)
  case psReady => exact Iff.mpr (seqOk_idle rfl rfl) rfl
  case psBusy hp o hf _ =>
    obtain ⟨hok, hpoll, -⟩ := (seqOk_ps (by simp [hp]) hj).1 hs
    exact Iff.mpr (seqOk_psOn rfl hj) ⟨hok, hpoll, rfl⟩

end Sys2Proof.Machine
end

section
/-! PROOFS. The invariant over the shared operations, and over a step. -/

namespace Sys2Proof.Machine

/-! ## The shared operations -/

/-- A reset with an admissible configuration leaves a state of the invariant, whoever answers. -/
@[simp] theorem machineInv_resetWith {c : Config} {requests : List (List Byte)} {l : Link}
    {trace : List Event} {delivered : List Delivery} :
    MachineInv (State.resetWith c requests l trace delivered) ↔ c.admissible = true ∧ l.ok :=
  ⟨fun h => ⟨h.admissible, h.link⟩, fun ⟨hc, hl⟩ => ⟨hc, nofun, rfl, rfl, hl⟩⟩

theorem MachineInv.applyReset {s : State} (h : MachineInv s) : MachineInv s.applyReset := by
  refine machineInv_resetWith.2 ⟨h.admissible, ?_⟩
  split
  · exact Link.onSel_ok h.link false
  · trivial

theorem MachineInv.withRequests {s : State} (h : MachineInv s) (rs : List (List Byte)) :
    MachineInv { s with requests := rs } :=
  ⟨h.admissible, h.density, h.sequencer, h.initialising, h.link⟩

theorem MachineInv.report {s : State} (h : MachineInv s) (o : OpOutcome) :
    MachineInv (s.report o) :=
  ⟨h.admissible, h.density, h.sequencer, h.initialising, h.link⟩

theorem MachineInv.invalidate {s : State} (h : MachineInv s) :
    MachineInv { s with valid := false } :=
  ⟨h.admissible, nofun, h.sequencer, h.initialising, h.link⟩

/-- An operation ends with select released. -/
@[simp] theorem machineInv_conclude {s : State} {o : OpOutcome} {bs : List Byte} :
    MachineInv (s.conclude o bs) ↔ s.cfg.admissible = true ∧
      (s.valid = true → decodable s.cfg s.dens = true) ∧ s.sel = false ∧ s.link.ok :=
  ⟨fun h => ⟨h.admissible, h.density, (h.idle rfl).2, h.link⟩,
    fun ⟨hc, hd, hsel, hl⟩ => ⟨hc, hd, Iff.mpr (seqOk_idle rfl rfl) hsel, rfl, hl⟩⟩

/-- An operation starts with select released, a frame that may open a transaction and a job of the
table; INIT's status transaction with a density the decode has given. -/
@[simp] theorem machineInv_load {s : State} {frame : List Byte} {fc : FreqClass} {j : Job} :
    MachineInv (s.load frame fc j) ↔ s.cfg.admissible = true ∧
      (s.valid = true → decodable s.cfg s.dens = true) ∧ s.sel = false ∧ s.link.ok ∧
      frameOk s.cfg frame = true ∧ j.ok = true ∧
      (j.finish = .initStatus → decodable s.cfg s.dens = true) := by
  have hseq : seqOk (s.load frame fc j) = true ↔
      j.ok = true ∧ s.sel = false ∧ frameOk s.cfg frame = true := by
    simp [seqOk_selOn (s := s.load frame fc j) rfl rfl]
  have hinit : initOk (s.load frame fc j) = true ↔
      (j.finish = .initStatus → decodable s.cfg s.dens = true) := by
    simp [initOk, imp_iff_not_or]
  constructor
  · intro h
    obtain ⟨hok, hsel, hf⟩ := hseq.1 h.sequencer
    exact ⟨h.admissible, h.density, hsel, h.link, hf, hok, hinit.1 h.initialising⟩
  · rintro ⟨hc, hd, hsel, hl, hf, hok, hi⟩
    exact ⟨hc, hd, hseq.2 ⟨hok, hsel, hf⟩, hinit.2 hi, hl⟩

/-! ## Accepting a request -/

theorem MachineInv.accepts {i : Instr} {s t : State} (h : MachineInv s) (hp : s.phase = .idle)
    (hi : i.wellFormed = true) (ha : Accepts i s t) : MachineInv t := by
  have hsel := (h.idle hp).2
  cases ha
  case unsupported | notInitialised | cached => exact h.report _
  case deinit => exact h.invalidate.report _
  case load frame fc j hj hf hs _ =>
    exact Iff.mpr machineInv_load
      ⟨h.admissible, h.density, hsel, h.link, hf, hj hi, fun hst => absurd hst hs⟩
  case init =>
    have hf : frameOk s.cfg (frameO s.cfg.opc.jedec) = true :=
      frameOk_frameO (by simp [Opcodes.openers, Opcodes.all])
    exact Iff.mpr machineInv_load ⟨h.admissible, nofun, hsel, h.link, hf, rfl, nofun⟩

/-! ## Closing a command transaction -/

/-- A density the decode gives is one of the table and is not 0 (45_ident_init.md R211). -/
theorem densityDecode_decodable {c : Config} {d0 d : Byte} (h : densityDecode c d0 = some d) :
    decodable c d = true := by
  unfold densityDecode at h
  split at h
  · split at h
    · cases h
    · cases h
      simp only [decodable, Bool.and_eq_true, decide_eq_true_eq]
      exact ⟨List.mem_of_getElem? ‹_›, ‹_›⟩
  · cases h

/-- What the invariant says of INIT's status transaction. -/
theorem MachineInv.initStatus {s : State} {j : Job} (h : MachineInv s) (hj : s.job = some j)
    (hf : j.finish = .initStatus) : decodable s.cfg s.dens = true := by
  simpa [initOk, hj, hf] using h.initialising

theorem MachineInv.closes {j : Job} {s t : State} (h : MachineInv s) (hj : s.job = some j)
    (hc : Closes j s t) : MachineInv t := by
  have hl : (s.link.onSel false).ok := Link.onSel_ok h.link false
  cases hc
  case deliver | query | refresh =>
    exact Iff.mpr machineInv_conclude ⟨h.admissible, h.density, rfl, hl⟩
  case poll o hf =>
    refine ⟨h.admissible, h.density, ?_, h.initialising, hl⟩
    exact Iff.mpr (seqOk_psOn rfl hj) ⟨h.job_ok hj, polls_of_finish hf, rfl⟩
  case invalid => exact Iff.mpr machineInv_conclude ⟨h.admissible, nofun, rfl, hl⟩
  case identify hd =>
    have hdec := densityDecode_decodable hd
    exact Iff.mpr machineInv_conclude ⟨h.admissible, fun _ => hdec, rfl, hl⟩
  case initIdent hd =>
    have hdec := densityDecode_decodable hd
    have hf : frameOk s.cfg (frameO s.cfg.opc.status) = true :=
      frameOk_frameO (by simp [Opcodes.openers, Opcodes.all])
    exact Iff.mpr machineInv_load
      ⟨h.admissible, fun _ => hdec, rfl, hl, hf, rfl, fun _ => hdec⟩
  case initStatus hf =>
    exact Iff.mpr machineInv_conclude ⟨h.admissible, fun _ => h.initStatus hj hf, rfl, hl⟩

/-! ## Every row of the micro-phase table -/

theorem MachineInv.micro {j : Job} {s t : State} (h : MachineInv s) (hj : s.job = some j)
    (hm : Micro j s t) : MachineInv t := by
  obtain ⟨hcfg, -, -⟩ := hm.frame
  rcases hm.closes_or_keeps with hc | ⟨hp, hdens, hvalid, hjob⟩
  · exact h.closes hj hc
  · have hdensity : t.valid = true → decodable t.cfg t.dens = true := by
      rw [hvalid, hcfg, hdens]
      exact h.density
    have hinit : initOk t = true := by
      rcases hjob with hjob | hjob
      · simpa only [initOk, hjob, hcfg, hdens] using h.initialising
      · simp [initOk, hjob]
    exact ⟨hcfg ▸ h.admissible, hdensity, hm.keeps_seqOk hj h.sequencer hp, hinit,
      hm.link_ok h.link⟩

end Sys2Proof.Machine
end

section
/-! PROOFS. The obligations of the model's scope (00_scope.md R7, R8). -/

open Sys2Proof.Machine

namespace Sys2Proof.Claims

/-- Settles O35: a reset, an accepted request and each row of the micro-phase table keep the
invariant. -/
theorem stepKeepsInvariant : Obligations.StepKeepsInvariant := by
  intro s t h ht
  rcases step_next ht with ⟨-, rfl⟩ | ⟨-, hp, r, rest, i, -, hd, hx⟩ | ⟨-, -, j, hj, hr⟩
  · exact h.applyReset
  · exact (h.withRequests rest).accepts hp (decode_wellFormed hd) (exec_accepts hx)
  · exact h.micro hj (runJob_next hr)

/-- Settles O37: reset keeps the configuration by definition, and of an accepted request and a
micro-step it is their frame. -/
theorem configurationIsConstant : Obligations.ConfigurationIsConstant := by
  intro s t ht
  rcases step_next ht with ⟨hr, rfl⟩ | ⟨hr, hp, r, rest, i, hq, -, hx⟩ | ⟨hr, hp, j, -, hj⟩
  · exact ⟨rfl, fun h => by simp [h] at hr⟩
  · obtain ⟨hcfg, hreq, hreset⟩ := (exec_accepts hx).frame
    exact ⟨hcfg, fun _ => ⟨hreset.trans hr, fun h => absurd hp h, fun _ => ⟨r, hreq ▸ hq⟩⟩⟩
  · obtain ⟨hcfg, hreq, hreset⟩ := (runJob_next hj).frame
    exact ⟨hcfg, fun _ => ⟨hreset.trans hr, fun _ => hreq, fun h => absurd h hp⟩⟩

/-- Settles O11: an admissible configuration has a width and a sector size for the density. -/
theorem wireAddressDefined : Obligations.WireAddressDefined := by
  intro s a hc hd
  obtain ⟨hmem, h0⟩ : s.dens ∈ s.cfg.densityTable ∧ s.dens ≠ 0 := by
    simpa [decodable] using hd
  obtain ⟨W, hW, -⟩ := pageBits_some hc hmem h0 s.psm
  obtain ⟨-, -, S, -, -, hS, -⟩ := admissible_tables hc hmem h0
  have hW : s.pageBits = some W := hW
  have hS : s.sectorLog = some S := hS
  simp [State.fullWire, State.pageWire, State.blockWire, State.sectorWire, State.bufWire, hW, hS]

/-- Settles O34: the default configuration is admissible, and a reset of any admissible one meets
the invariant. -/
theorem resetMeetsInvariant : Obligations.ResetMeetsInvariant :=
  machineInv_resetWith.2 ⟨by decide, trivial⟩

end Sys2Proof.Claims
end

section
/-! PROOFS. Which step writes which register (10_state.md R24 to R26, R30). -/

namespace Sys2Proof.Machine

/-! ## The Device registers -/

/-- Accepting a request writes no Device register but `VALID`, which INIT and DEINIT clear. -/
theorem Accepts.device {i : Instr} {s t : State} (h : Accepts i s t) :
    t.mfr = s.mfr ∧ t.did0 = s.did0 ∧ t.did1 = s.did1 ∧ t.dens = s.dens ∧ t.psm = s.psm ∧
      (t.valid = s.valid ∨ (t.valid = false ∧ (i = .init ∨ i = .deinit))) := by
  cases h
  case init hi => simp [hi]
  case deinit hi => simp [hi]
  all_goals simp

/-- The ID bytes and `DENS` are written where an identification closes, and nowhere else. -/
theorem Micro.id_kept {j : Job} {s t : State} (h : Micro j s t)
    (hn : ¬ (s.phase = .selOff ∧ (j.finish = .identify ∨ j.finish = .initIdent))) :
    t.mfr = s.mfr ∧ t.did0 = s.did0 ∧ t.did1 = s.did1 ∧ t.dens = s.dens := by
  cases h
  case selOff hp h =>
    have hf : ¬ (j.finish = .identify ∨ j.finish = .initIdent) := fun hf => hn ⟨hp, hf⟩
    cases h
    case invalid hf' _ _ _ _ _ => exact absurd hf' hf
    case identify hf' _ _ _ _ _ _ => exact absurd (.inl hf') hf
    case initIdent hf' _ _ _ _ _ _ => exact absurd (.inr hf') hf
    all_goals simp
  all_goals simp

/-- `PSM` is written where PSM.REFRESH or the status probe of INIT closes, and nowhere else. -/
theorem Micro.psm_kept {j : Job} {s t : State} (h : Micro j s t)
    (hn : ¬ (s.phase = .selOff ∧ (j.finish = .refresh ∨ j.finish = .initStatus))) :
    t.psm = s.psm := by
  cases h
  case selOff hp h =>
    have hf : ¬ (j.finish = .refresh ∨ j.finish = .initStatus) := fun hf => hn ⟨hp, hf⟩
    cases h
    case refresh hf' => exact absurd (.inl hf') hf
    case initStatus hf' => exact absurd (.inr hf') hf
    all_goals simp
  all_goals simp

/-- `VALID` is set where the status probe of INIT closes, cleared where an identification with no
valid density does, and kept by every other row. -/
theorem Micro.valid_cases {j : Job} {s t : State} (h : Micro j s t) :
    t.valid = s.valid ∨
    (s.phase = .selOff ∧ j.finish = .initStatus ∧ t.valid = true) ∨
    (s.phase = .selOff ∧ (j.finish = .identify ∨ j.finish = .initIdent) ∧ t.valid = false ∧
      densityDecode s.cfg t.did0 = none) := by
  cases h
  case selOff hp h =>
    cases h
    case invalid hf _ _ _ _ hd => exact .inr (.inr ⟨hp, hf, rfl, hd⟩)
    case initStatus hf => exact .inr (.inl ⟨hp, hf, rfl⟩)
    all_goals exact .inl rfl
  all_goals exact .inl (by simp)

/-! ## The device that is not selected -/

/-- `SEL(0)` leaves a device that is not selected as it is (60_exceptions.md R257). -/
theorem Device.onSel_deselected {e : Device} (h : e.xact = .deselected) : e.onSel false = e := by
  cases e
  cases h
  rfl

/-! ## The readiness register -/

theorem Accepts.rs {i : Instr} {s t : State} (h : Accepts i s t) : t.rs = s.rs := by
  cases h <;> rfl

/-- Of the transactions the closing of a snapshot writes `rs`, from its ready bit. -/
theorem Closes.rs {j : Job} {s t : State} (h : Closes j s t) (hok : j.ok = true) :
    t.rs = if j.data = .snapshot then readinessOf s.cfg s.sr1 else s.rs := by
  have hdata := Job.ok_snapshot hok
  cases h
  case query hf | refresh hf | initStatus hf => simp [hdata, hf]
  case invalid hf _ _ _ _ _ => rcases hf with hf | hf <;> simp [hdata, hf]
  case deliver hf | poll hf | identify hf _ _ _ _ _ _ | initIdent hf _ _ _ _ _ _ =>
    simp [hdata, hf]

/-- Of the rows of the micro-phase table `SEL_ON`, `SEL_OFF` and `PS_OFF` alone write `rs`. -/
theorem Micro.rs {j : Job} {s t : State} (h : Micro j s t) (hok : j.ok = true) :
    t.rs = if s.phase = .selOn then (if j.marksBusy then .busy else s.rs)
      else if s.phase = .selOff ∧ j.data = .snapshot ∨ s.phase = .psOff then
        readinessOf s.cfg s.sr1
      else s.rs := by
  cases h
  case selOff hp h => simpa [hp] using h.rs hok
  all_goals simp [*]

/-! ## Addressed operations -/

/-- Where the codec has no wire address, an addressed operation that passes its entry checks stops
by name (log 10). -/
theorem addressingUndefined_of_gate {i : Instr} {s : State} {c : Bool} {w : Option Wire}
    {k : Wire → Result} (hx : exec i s = gate c s (needInit s (withWire w k)))
    (hm : missingCapability s.cfg i = !c) (hn : needsValid i = true)
    (h : Claims.MayRun s i) (hw : w = none) : exec i s = .fault .addressingUndefined := by
  obtain ⟨hcap, hvalid, -⟩ := h
  obtain rfl : c = true := by simpa [hm] using hcap
  rw [hx, gate_true, needInit_valid (hvalid hn), hw, withWire]

end Sys2Proof.Machine
end

section
/-! PROOFS. The obligations of the registers: reset, and which step writes which (10_state.md R24 to
R26, R30, R41). -/

open Sys2Proof.Machine

namespace Sys2Proof.Claims

/-- Settles O1: the step is the reset, and each clause is a field of what it leaves. -/
theorem resetStep : Obligations.ResetStep := by
  intro s hr
  refine ⟨s.applyReset, step_reset hr, rfl, rfl, rfl, rfl, rfl, rfl, rfl, rfl, rfl, rfl,
    fun hp => if_neg hp, fun hp => ?_⟩
  have hlink : s.applyReset.link = s.link.onSel false := if_pos hp
  refine ⟨hlink, fun e he hx => ?_⟩
  rw [hlink, he, Link.onSel, Device.onSel_deselected hx]

/-- Settles O2 by evaluation: the default configuration is admissible. -/
theorem stateAfterReset : Obligations.StateAfterReset :=
  ⟨rfl, rfl, rfl, rfl, rfl, rfl, by decide⟩

/-- Settles O20: every operation of the lists but ERASE.CHIP, which has a frame, looks up a wire
address behind its entry checks. -/
theorem undefinedAddressingFaults : Obligations.UndefinedAddressingFaults := by
  intro s a n data
  simp only [readForms, bufferWriteForms, writeClassForms, issueForms, List.forall_mem_append,
    List.forall_mem_cons, List.not_mem_nil, false_imp_iff, implies_true, and_true,
    Option.map_eq_none_iff]
  have ungated {i : Instr} {w : Option Wire} {k : Wire → Result}
      (hx : exec i s = needInit s (withWire w k)) (hm : missingCapability s.cfg i = false) :=
    addressingUndefined_of_gate (c := true) hx hm
  refine ⟨⟨⟨⟨?fc0, ?fc1, ?fc2, ?fc3, ?pagerd, ?low1, ?low2, ?high1, ?high2⟩, ?bufwr1, ?bufwr2⟩,
    ?wtbE1, ?wtbE2, ?wtbN, ?wrbackE1, ?wrbackE2, ?wrbackN1, ?wrbackN2, ?page, ?block, ?sector,
    ?chip⟩, ?copy1, ?copy2, ?cmp1, ?cmp2⟩
  case fc3 | low2 | high2 | bufwr2 | wtbE2 | wrbackE2 | wrbackN2 | copy2 | cmp2 =>
    exact addressingUndefined_of_gate rfl rfl rfl
  case chip => exact fun _ => nofun
  all_goals exact ungated rfl rfl rfl

/-- Settles O38: of an accepted request and of each row of the micro-phase table it is known which
Device registers they write. -/
theorem deviceRegisterWriters : Obligations.DeviceRegisterWriters := by
  intro s t ht hr
  rcases step_next ht with ⟨hr', -⟩ | ⟨-, hp, r, rest, i, hq, hd, hx⟩ | ⟨-, -, j, hj, hm⟩
  · simp [hr] at hr'
  · have hacc := exec_accepts hx
    obtain ⟨hmfr, hdid0, hdid1, hdens, hpsm, hvalid⟩ := hacc.device
    obtain ⟨-, hreq, -⟩ := hacc.frame
    refine ⟨fun _ => ⟨hmfr, hdid0, hdid1, hdens⟩, fun _ => hpsm, fun h0 h1 => ?_, fun h1 h0 => ?_⟩
    · rcases hvalid with hv | ⟨hv, -⟩ <;> simp [hv, h0] at h1
    · rcases hvalid with hv | ⟨-, rfl | rfl⟩
      · simp [hv, h1] at h0
      · exact .inl ⟨hp, r, hreq ▸ hq, .inl hd⟩
      · exact .inl ⟨hp, r, hreq ▸ hq, .inr hd⟩
  · have hmicro := runJob_next hm
    refine ⟨fun h => hmicro.id_kept fun ⟨hp, hf⟩ => h ⟨hp, j, hj, hf⟩,
      fun h => hmicro.psm_kept fun ⟨hp, hf⟩ => h ⟨hp, j, hj, hf⟩, fun h0 h1 => ?_, fun h1 h0 => ?_⟩
    · rcases hmicro.valid_cases with hv | ⟨hp, hf, -⟩ | ⟨-, -, hv, -⟩
      · simp [hv, h0] at h1
      · exact ⟨hp, j, hj, hf⟩
      · simp [hv] at h1
    · rcases hmicro.valid_cases with hv | ⟨-, -, hv⟩ | ⟨hp, hf, -, hd⟩
      · simp [hv, h1] at h0
      · simp [hv] at h0
      · exact .inr ⟨hp, j, hj, hf, hd⟩

/-- Settles O39: an accepted request leaves `rs`, and the rows of the micro-phase table that write
it are `SEL_ON`, the closing of a snapshot and `PS_OFF`. -/
theorem readinessRegister : Obligations.ReadinessRegister := by
  intro s t hinv ht hr
  rcases step_next ht with ⟨hr', -⟩ | ⟨-, hp, r, rest, i, -, -, hx⟩ | ⟨-, hp, j, hj, hm⟩
  · simp [hr] at hr'
  · refine ⟨fun _ => (exec_accepts hx).rs, fun j hj => ?_⟩
    exact absurd hp (hinv.not_idle hj)
  · have hrs := (runJob_next hm).rs (hinv.job_ok hj)
    refine ⟨fun h => absurd h hp, fun j' hj' => ?_⟩
    obtain rfl : j = j' := by simpa [hj] using hj'
    refine ⟨fun h => by simpa [h] using hrs, fun h => ?_,
      fun h1 h2 h3 => by simpa [h1, h2, h3] using hrs⟩
    have hon : s.phase ≠ .selOn := by rcases h with ⟨h, -⟩ | h <;> simp [h]
    simpa [hon, h, readinessOf, readyBit] using hrs

end Sys2Proof.Claims
end

section
/-! PROOFS. Comparing the steps of two states: what accepting a request reads, the same for every
relation of states, and runs of related states. -/

open Sys2Proof.Claims

namespace Sys2Proof.Machine

/-! ## Related results -/

/-- Two results of one kind: the next states related, the reasons to stop the same. -/
inductive Lift (R : State → State → Prop) : Result → Result → Prop
  | next {t u : State} (h : R t u) : Lift R (.next t) (.next u)
  | fault (r : Fault) : Lift R (.fault r) (.fault r)
  | refused (r : Refusal) : Lift R (.refused r) (.refused r)

theorem Lift.imp {R Q : State → State → Prop} {a b : Result} (h : Lift R a b)
    (hi : ∀ t u, a = .next t → b = .next u → R t u → Q t u) : Lift Q a b := by
  cases h with
  | next h => exact .next (hi _ _ rfl rfl h)
  | fault r => exact .fault r
  | refused r => exact .refused r

theorem Lift.refl {R : State → State → Prop} {a : Result} (h : ∀ t, a = .next t → R t t) :
    Lift R a a := by
  cases a
  exacts [.next (h _ rfl), .fault _, .refused _]

theorem Lift.mapNext_eq {R : State → State → Prop} {a b : Result} {f g : State → State}
    (h : Lift R a b) (hfg : ∀ t u, R t u → f u = g t) : mapNext f b = mapNext g a := by
  cases h with
  | next h => exact congrArg Host.Outcome.next (hfg _ _ h)
  | fault r => rfl
  | refused r => rfl

/-- Results related by a function are those the function maps. -/
theorem lift_iff_mapNext {f : State → State} {a b : Result} :
    Lift (fun t u => u = f t) a b ↔ b = mapNext f a := by
  constructor
  · intro h
    cases h <;> simp [mapNext, *]
  · rintro rfl
    cases a
    exacts [.next rfl, .fault _, .refused _]

/-- A relation that steps keep holds along runs. -/
theorem lift_stepN {R : State → State → Prop} (hR : ∀ s u, R s u → Lift R (step s) (step u))
    (k : Nat) {s u : State} (h : R s u) : Lift R (stepN k s) (stepN k u) := by
  induction k generalizing s u with
  | zero => exact .next h
  | succ k ih =>
    have hstep := hR s u h
    simp only [stepN]
    generalize step s = a, step u = b at hstep
    cases hstep with
    | next h => exact ih h
    | fault r => exact .fault r
    | refused r => exact .refused r

theorem lift_fetch {R : State → State → Prop} {s u : State} (hreq : u.requests = s.requests)
    (hi : ∀ i rest,
      Lift R (exec i { s with requests := rest }) (exec i { u with requests := rest })) :
    Lift R (fetch s) (fetch u) := by
  unfold fetch
  rw [hreq]
  cases s.requests with
  | nil => exact .refused _
  | cons r rest =>
    dsimp only
    cases decode r with
    | error e => exact .refused _
    | ok i => exact hi i rest

/-- Two states with the same sequencer and port: their steps are related if their resets, the
requests they accept and their micro-steps are. -/
theorem lift_step {R : State → State → Prop} {s u : State} (hreset : u.resetReq = s.resetReq)
    (hphase : u.phase = s.phase) (hjob : u.job = s.job) (hreq : u.requests = s.requests)
    (hr : s.resetReq = true → R s.applyReset u.applyReset)
    (hi : s.resetReq = false → s.phase = .idle → ∀ i rest,
      Lift R (exec i { s with requests := rest }) (exec i { u with requests := rest }))
    (hm : s.resetReq = false → s.phase ≠ .idle → ∀ j, s.job = some j →
      Lift R (runJob j s) (runJob j u)) : Lift R (step s) (step u) := by
  cases hq : s.resetReq with
  | true =>
    rw [step_reset hq, step_reset (hreset.trans hq)]
    exact .next (hr hq)
  | false =>
    by_cases hp : s.phase = .idle
    · rw [step_idle hq hp, step_idle (hreset.trans hq) (hphase.trans hp)]
      exact lift_fetch hreq (hi hq hp)
    · simp only [step, microStep, hreset, hphase, hjob, hq, hp, if_false, Bool.false_eq_true]
      cases hj : s.job with
      | none => exact .fault _
      | some j => exact hm hq hp j hj

/-! ## What accepting a request reads -/

theorem lift_gate {R : State → State → Prop} {c : Bool} {s u : State} {k k' : Result}
    (hs : R (s.report .unsupported) (u.report .unsupported)) (hk : Lift R k k') :
    Lift R (gate c s k) (gate c u k') := by
  cases c
  exacts [.next hs, hk]

theorem lift_needInit {R : State → State → Prop} {s u : State} {k k' : Result}
    (hv : u.valid = s.valid) (hs : R (s.report .notInitialised) (u.report .notInitialised))
    (hk : s.valid = true → Lift R k k') : Lift R (needInit s k) (needInit u k') := by
  unfold needInit
  rw [hv]
  split
  exacts [hk ‹_›, .next hs]

theorem lift_withWire {R : State → State → Prop} {w w' : Option Wire} {k k' : Wire → Result}
    (hw : w' = w) (hk : ∀ x, Lift R (k x) (k' x)) : Lift R (withWire w k) (withWire w' k') := by
  subst hw
  cases w'
  exacts [.fault _, hk _]

/-- All that accepting a request reads: two capabilities, opcodes, dummies, the command class,
`VALID`, and at `VALID = 1` the page-size mode and what the tables give for the density. -/
structure SameEntry (s u : State) : Prop where
  second : u.cfg.cap.hasSecondBuffer = s.cfg.cap.hasSecondBuffer
  fast : u.cfg.cap.hasHighFrequencyRead = s.cfg.cap.hasHighFrequencyRead
  opc : u.cfg.opc = s.cfg.opc
  dummy : u.cfg.dummy = s.cfg.dummy
  fcCmd : u.cfg.fcCmd = s.cfg.fcCmd
  valid : u.valid = s.valid
  psm : s.valid = true → u.psm = s.psm
  pageBits : s.valid = true → u.pageBits = s.pageBits
  sectorLog : s.valid = true → u.sectorLog = s.sectorLog

section
variable {s u : State}

theorem SameEntry.offsetBits (h : SameEntry s u) (hv : s.valid = true) :
    u.offsetBits = s.offsetBits := by simp only [State.offsetBits, h.psm hv]

theorem SameEntry.fullWire (h : SameEntry s u) (hv : s.valid = true) (a : Addr) :
    u.fullWire a = s.fullWire a := by
  simp only [State.fullWire, h.pageBits hv, h.offsetBits hv]

theorem SameEntry.pageWire (h : SameEntry s u) (hv : s.valid = true) (a : Addr) :
    u.pageWire a = s.pageWire a := by
  simp only [State.pageWire, h.pageBits hv, h.offsetBits hv]

theorem SameEntry.blockWire (h : SameEntry s u) (hv : s.valid = true) (a : Addr) :
    u.blockWire a = s.blockWire a := by
  simp only [State.blockWire, h.pageBits hv, h.offsetBits hv]

theorem SameEntry.sectorWire (h : SameEntry s u) (hv : s.valid = true) (a : Addr) :
    u.sectorWire a = s.sectorWire a := by
  simp only [State.sectorWire, h.pageBits hv, h.sectorLog hv, h.offsetBits hv]

theorem SameEntry.bufWire (h : SameEntry s u) (hv : s.valid = true) (a : Addr) :
    u.bufWire a = s.bufWire a := by
  simp only [State.bufWire, h.offsetBits hv]

/-- Two states that agree in what accepting a request reads accept it alike. -/
theorem lift_exec {R : State → State → Prop} (h : SameEntry s u)
    (hreport : ∀ o, R (s.report o) (u.report o))
    (hload : ∀ f fc j, j.finish ≠ .initStatus → R (s.load f fc j) (u.load f fc j))
    (hdeinit : R ({ s with valid := false }.report .ok) ({ u with valid := false }.report .ok))
    (hinit : ∀ f fc j, j.finish ≠ .initStatus →
      R ({ s with valid := false }.load f fc j) ({ u with valid := false }.load f fc j))
    (i : Instr) : Lift R (exec i s) (exec i u) := by
  have hstart (f fc j) (hj : j.finish ≠ .initStatus) : Lift R (start s f fc j) (start u f fc j) :=
    .next (hload f fc j hj)
  have haddressed {w w' : Option Wire} {k k' : Wire → Result} (hw : s.valid = true → w' = w)
      (hk : ∀ x, Lift R (k x) (k' x)) :
      Lift R (needInit s (withWire w k)) (needInit u (withWire w' k')) :=
    lift_needInit h.valid (hreport _) fun hv => lift_withWire (hw hv) hk
  have hgate {c c' : Bool} {k k' : Result} (hc : c' = c) (hk : Lift R k k') :
      Lift R (gate c s k) (gate c' u k') := hc ▸ lift_gate (hreport _) hk
  cases i
  case readFc0 | readFc1 | readFc2 | pagerd | wtbE1 | wtbN =>
    exact haddressed (h.fullWire · _) fun _ => by
      simpa only [readCommon, programThrough, h.opc, h.dummy, h.fcCmd] using hstart _ _ _ (by simp)
  case readFc3 =>
    exact hgate h.fast <| haddressed (h.fullWire · _) fun _ => by
      simpa only [readCommon, h.opc, h.dummy] using hstart _ _ _ (by simp)
  case wtbE2 =>
    exact hgate h.second <| haddressed (h.fullWire · _) fun _ => by
      simpa only [programThrough, h.opc, h.fcCmd] using hstart _ _ _ (by simp)
  case bufrdLow1 | bufrdHigh1 | bufwr1 =>
    exact haddressed (h.bufWire · _) fun _ => by
      simpa only [readCommon, bufferWrite, h.opc, h.dummy, h.fcCmd] using hstart _ _ _ (by simp)
  case bufrdLow2 | bufrdHigh2 | bufwr2 =>
    exact hgate h.second <| haddressed (h.bufWire · _) fun _ => by
      simpa only [readCommon, bufferWrite, h.opc, h.dummy, h.fcCmd] using hstart _ _ _ (by simp)
  case wrbackE1 | wrbackN1 | copy1 | cmp1 | erasePage =>
    exact haddressed (h.pageWire · _) fun _ => by
      simpa only [command, issue, h.opc, h.fcCmd] using hstart _ _ _ (by simp)
  case wrbackE2 | wrbackN2 | copy2 | cmp2 =>
    exact hgate h.second <| haddressed (h.pageWire · _) fun _ => by
      simpa only [command, issue, h.opc, h.fcCmd] using hstart _ _ _ (by simp)
  case eraseBlock =>
    exact haddressed (h.blockWire · _) fun _ => by
      simpa only [command, h.opc, h.fcCmd] using hstart _ _ _ (by simp)
  case eraseSector =>
    exact haddressed (h.sectorWire · _) fun _ => by
      simpa only [command, h.opc, h.fcCmd] using hstart _ _ _ (by simp)
  case cmpres | ready | epe | psmRefresh =>
    simpa only [exec, execCmpres, execReady, execEpe, execPsmRefresh, snapshot, h.opc, h.fcCmd]
      using hstart _ _ _ (by simp [snapshotJob])
  case eraseChip =>
    simpa only [exec, execEraseChip, h.opc, h.fcCmd] using hstart _ _ _ (by simp)
  case identify =>
    simpa only [exec, execIdentify, identification, h.opc, h.fcCmd] using hstart _ _ _ (by simp)
  case init =>
    simpa only [exec, execInit, identification, start, h.opc, h.fcCmd]
      using .next (hinit _ _ _ (by simp))
  case deinit => exact .next hdeinit
  case psmCached =>
    refine lift_needInit h.valid (hreport _) fun hv => ?_
    rw [h.psm hv]
    exact .next (hreport _)

end

/-! ## What the rows of the micro-phase table read -/

section
variable {R : State → State → Prop} {s u : State} {j : Job}

theorem lift_stepHdr {i : Nat} (hhdr : u.hdr = s.hdr)
    (h : ∀ b rest, R
      { s.xfer b s.fc with
        hdr := rest, phase := if rest = [] then j.afterHeader else .hdr (i + 1) }
      { u.xfer b u.fc with
        hdr := rest, phase := if rest = [] then j.afterHeader else .hdr (i + 1) }) :
    Lift R (stepHdr j i s) (stepHdr j i u) := by
  unfold stepHdr
  rw [hhdr]
  cases s.hdr
  exacts [.fault _, .next (h _ _)]

theorem lift_stepDmy {k : Nat} (hcnt : u.cnt = s.cnt)
    (hlast : R
      { s.xfer s.cfg.fill s.fc with cnt := j.data.count, phase := j.data.firstPhase }
      { u.xfer u.cfg.fill u.fc with cnt := j.data.count, phase := j.data.firstPhase })
    (h : R { s.xfer s.cfg.fill s.fc with cnt := s.cnt - 1, phase := .dmy (k + 1) }
      { u.xfer u.cfg.fill u.fc with cnt := s.cnt - 1, phase := .dmy (k + 1) }) :
    Lift R (stepDmy j k s) (stepDmy j k u) := by
  unfold stepDmy
  rw [hcnt]
  split
  exacts [.next hlast, .next h]

theorem lift_stepDout {k : Nat}
    (h : ∀ data b, j.data = .payload data → R
      { s.xfer b s.fc with
        cnt := s.cnt - 1, phase := if s.cnt - 1 = 0 then .selOff else .dout (k + 1) }
      { u.xfer b u.fc with
        cnt := u.cnt - 1, phase := if u.cnt - 1 = 0 then .selOff else .dout (k + 1) }) :
    Lift R (stepDout j k s) (stepDout j k u) := by
  unfold stepDout
  cases hd : j.data with
  | payload data =>
    dsimp only
    cases data[k]? with
    | none => exact .fault _
    | some b => exact .next (h data b hd)
  | none | read | snapshot | ident => exact .fault _

theorem lift_closeIdentify (hout : u.out = s.out) (hcfg : densityDecode u.cfg = densityDecode s.cfg)
    (hbad : ∀ m d0 d1, R
      ({ s.storeId m d0 d1 with valid := false }.conclude .invalidDensity [])
      ({ u.storeId m d0 d1 with valid := false }.conclude .invalidDensity []))
    (hgood : ∀ m d0 d1 d, R
      ({ s.storeId m d0 d1 with dens := d }.conclude .ok [])
      ({ u.storeId m d0 d1 with dens := d }.conclude .ok [])) :
    Lift R (closeIdentify s) (closeIdentify u) := by
  unfold closeIdentify
  rw [hout, hcfg]
  rcases s.out with _ | ⟨m, _ | ⟨d0, _ | ⟨d1, _ | _⟩⟩⟩
  case cons.cons.cons.nil =>
    dsimp only
    cases densityDecode s.cfg d0
    exacts [.next (hbad _ _ _), .next (hgood _ _ _ _)]
  all_goals exact .fault _

theorem lift_closeInitIdent (hout : u.out = s.out)
    (hcfg : densityDecode u.cfg = densityDecode s.cfg)
    (hbad : ∀ m d0 d1, R
      ({ s.storeId m d0 d1 with valid := false }.conclude .invalidDensity [])
      ({ u.storeId m d0 d1 with valid := false }.conclude .invalidDensity []))
    (hgood : ∀ m d0 d1 d, R
      ({ s.storeId m d0 d1 with dens := d }.load (frameO s.cfg.opc.status) s.cfg.fcCmd
        (snapshotJob .initStatus))
      ({ u.storeId m d0 d1 with dens := d }.load (frameO u.cfg.opc.status) u.cfg.fcCmd
        (snapshotJob .initStatus))) :
    Lift R (closeInitIdent s) (closeInitIdent u) := by
  unfold closeInitIdent
  rw [hout, hcfg]
  rcases s.out with _ | ⟨m, _ | ⟨d0, _ | ⟨d1, _ | _⟩⟩⟩
  case cons.cons.cons.nil =>
    dsimp only
    cases densityDecode s.cfg d0
    exacts [.next (hbad _ _ _), .next (hgood _ _ _ _)]
  all_goals exact .fault _

theorem lift_stepPsOff (hready : readyBit u.cfg u.sr1 = readyBit s.cfg s.sr1)
    (hdone : ∀ o, R
      ((s.select false).observe.conclude (if errorBit s.cfg s.sr2 then .fail else o) [])
      ((u.select false).observe.conclude (if errorBit u.cfg u.sr2 then .fail else o) []))
    (hbusy : R { (s.select false).observe with phase := .psOn }
      { (u.select false).observe with phase := .psOn }) :
    Lift R (stepPsOff j s) (stepPsOff j u) := by
  unfold stepPsOff
  rw [hready]
  cases j.finish with
  | poll o =>
    dsimp only
    split
    exacts [.next (hdone o), .next hbusy]
  | deliver | query | refresh | identify | initIdent | initStatus => exact .fault _

end

end Sys2Proof.Machine
end

section
/-! PROOFS. The configuration fields that no rule reads (10_state.md R32, R35). -/

open Sys2Proof.Machine

namespace Sys2Proof.Claims

section
variable (s : State) (dual quad suspend : Bool) (density : Byte) (prot : Fin 8)

theorem exec_withUnread (i : Instr) :
    Lift (fun t u => u = withUnread t dual quad suspend density prot) (exec i s)
      (exec i (withUnread s dual quad suspend density prot)) := by
  refine lift_exec ?_ (fun _ => ?_) (fun _ _ _ _ => ?_) ?_ (fun _ _ _ _ => ?_) i
  · exact ⟨rfl, rfl, rfl, rfl, rfl, rfl, fun _ => rfl, fun _ => rfl, fun _ => rfl⟩
  all_goals rfl

theorem runJob_withUnread (j : Job) :
    Lift (fun t u => u = withUnread t dual quad suspend density prot) (runJob j s)
      (runJob j (withUnread s dual quad suspend density prot)) := by
  have hphase : (withUnread s dual quad suspend density prot).phase = s.phase := rfl
  unfold runJob
  rw [hphase]
  cases s.phase
  case idle => exact .fault _
  case selOn | psOn | psOpc | psB1 | psB2 => exact .next rfl
  case hdr => exact lift_stepHdr rfl fun _ _ => rfl
  case dmy => exact lift_stepDmy rfl rfl rfl
  case din k =>
    unfold stepDin
    cases j.data <;> cases k <;> exact .next rfl
  case dout => exact lift_stepDout fun _ _ _ => rfl
  case selOff =>
    dsimp only [stepSelOff]
    cases j.finish
    case deliver | poll | query | refresh | initStatus => exact .next rfl
    case identify => exact lift_closeIdentify rfl rfl (fun _ _ _ => rfl) fun _ _ _ _ => rfl
    case initIdent => exact lift_closeInitIdent rfl rfl (fun _ _ _ => rfl) fun _ _ _ _ => rfl
  case psOff => exact lift_stepPsOff rfl (fun _ => rfl) rfl

end

/-- Settles O43: a reset, an accepted request and each row of the micro-phase table read none of
these fields. -/
theorem unreadConfigurationFields : Obligations.UnreadConfigurationFields := by
  intro s dual quad suspend density prot
  exact lift_iff_mapNext.1 <| lift_step rfl rfl rfl rfl (fun _ => rfl)
    (fun _ _ i rest => exec_withUnread { s with requests := rest } dual quad suspend density prot i)
    (fun _ _ j _ => runJob_withUnread s dual quad suspend density prot j)

end Sys2Proof.Claims
end

section
/-! PROOFS. How INIT comes to its status probe (45_ident_init.md R212). -/

namespace Sys2Proof.Machine

theorem Micro.closes {j : Job} {s t : State} (h : Micro j s t) (hp : s.phase = .selOff) :
    Closes j s t := by
  cases h
  case selOff h => exact h
  all_goals simp_all

/-- The status probe sets `PSM` from its snapshot. -/
theorem Closes.psm_of_initStatus {j : Job} {s t : State} (h : Closes j s t)
    (hf : j.finish = .initStatus) : t.psm = pageSizeBit s.sr1 := by
  cases h
  case initStatus => rfl
  case invalid hf' _ _ _ _ _ => rcases hf' with hf' | hf' <;> simp [hf] at hf'
  case deliver hf' | poll hf' | query hf' | refresh hf' | identify hf' _ _ _ _ _ _
      | initIdent hf' _ _ _ _ _ _ => simp [hf] at hf'

/-- A request other than the one in progress starts no status probe. -/
theorem Accepts.probe_kept {i : Instr} {s t : State} {j : Job} (h : Accepts i s t)
    (hj : t.job = some j) (hf : j.finish = .initStatus) : s.job = some j := by
  cases h
  case load hs _ => cases hj; exact absurd hf hs
  case init => cases hj; cases hf
  all_goals exact hj

/-- After a micro-step the same request runs, or the status probe of INIT, which starts when the
identification has written the ID bytes and `DENS`. -/
theorem Micro.starts_probe {j j' : Job} {s t : State} (h : Micro j s t) (hj : s.job = some j)
    (hj' : t.job = some j') : j' = j ∨
      (s.out = [t.mfr, t.did0, t.did1] ∧ densityDecode s.cfg t.did0 = some t.dens) := by
  have hkept (hjob : t.job = s.job) : j' = j := by simpa [hjob, hj, eq_comm] using hj'
  rcases h.closes_or_keeps with hc | ⟨-, -, -, hjob | hjob⟩
  · cases hc
    case initIdent ho hd => exact .inr ⟨ho, hd⟩
    case poll => exact .inl (hkept rfl)
    all_goals cases hj'
  · exact .inl (hkept hjob)
  · simp [hjob] at hj'

end Sys2Proof.Machine
end

section
/-! PROOFS. The Device registers that reset leaves without a value (10_state.md R25, R41). -/

open Sys2Proof.Machine

namespace Sys2Proof.Claims

/-! ## Other values in the Device registers -/

/-- After a step from `s`, and from `s` with other values in the Device registers: each of these was
written with one value in both, or was not written. -/
structure UnsetCarried (s : State) (mfr did0 did1 dens : Byte) (psm : Bool) (t u : State) :
    Prop where
  same : u = withDevice t u.mfr u.did0 u.did1 u.dens u.psm
  mfr : u.mfr = t.mfr ∨ t.mfr = s.mfr ∧ u.mfr = mfr
  did0 : u.did0 = t.did0 ∨ t.did0 = s.did0 ∧ u.did0 = did0
  did1 : u.did1 = t.did1 ∨ t.did1 = s.did1 ∧ u.did1 = did1
  dens : u.dens = t.dens ∨ t.dens = s.dens ∧ u.dens = dens
  psm : u.psm = t.psm ∨ t.psm = s.psm ∧ u.psm = psm

section
variable {s : State} {mfr did0 did1 dens : Byte} {psm : Bool}

theorem UnsetCarried.refl (t : State) : UnsetCarried s mfr did0 did1 dens psm t t :=
  ⟨rfl, .inl rfl, .inl rfl, .inl rfl, .inl rfl, .inl rfl⟩

/-- Where none of the five is written, the values they had stay. -/
theorem unsetCarried_withDevice {t : State} (hm : t.mfr = s.mfr) (h0 : t.did0 = s.did0)
    (h1 : t.did1 = s.did1) (hd : t.dens = s.dens) (hp : t.psm = s.psm) :
    UnsetCarried s mfr did0 did1 dens psm t (withDevice t mfr did0 did1 dens psm) :=
  ⟨rfl, .inr ⟨hm, rfl⟩, .inr ⟨h0, rfl⟩, .inr ⟨h1, rfl⟩, .inr ⟨hd, rfl⟩, .inr ⟨hp, rfl⟩⟩

/-- While `VALID = 0`, accepting a request neither reads nor writes the five. -/
theorem exec_withDevice (hv : s.valid = false) (i : Instr) :
    Lift (fun t u => u = withDevice t mfr did0 did1 dens psm) (exec i s)
      (exec i (withDevice s mfr did0 did1 dens psm)) := by
  have hinvalid : ¬ s.valid = true := by simp [hv]
  refine lift_exec ?_ (fun _ => ?_) (fun _ _ _ _ => ?_) ?_ (fun _ _ _ _ => ?_) i
  · exact ⟨rfl, rfl, rfl, rfl, rfl, rfl, (absurd · hinvalid), (absurd · hinvalid),
      (absurd · hinvalid)⟩
  all_goals rfl

/-- No row of the micro-phase table reads the five. -/
theorem runJob_withDevice (j : Job) :
    Lift (UnsetCarried s mfr did0 did1 dens psm) (runJob j s)
      (runJob j (withDevice s mfr did0 did1 dens psm)) := by
  have hphase : (withDevice s mfr did0 did1 dens psm).phase = s.phase := rfl
  have kept {t : State} := unsetCarried_withDevice (s := s) (mfr := mfr) (did0 := did0)
    (did1 := did1) (dens := dens) (psm := psm) (t := t)
  unfold runJob
  rw [hphase]
  cases s.phase
  case idle => exact .fault _
  case selOn | psOn | psOpc | psB1 | psB2 => exact .next (kept rfl rfl rfl rfl rfl)
  case hdr => exact lift_stepHdr rfl fun _ _ => kept rfl rfl rfl rfl rfl
  case dmy => exact lift_stepDmy rfl (kept rfl rfl rfl rfl rfl) (kept rfl rfl rfl rfl rfl)
  case din k =>
    unfold stepDin
    cases j.data <;> cases k <;> exact .next (kept rfl rfl rfl rfl rfl)
  case dout => exact lift_stepDout fun _ _ _ => kept rfl rfl rfl rfl rfl
  case selOff =>
    unfold stepSelOff
    cases j.finish
    case deliver | poll | query => exact .next (kept rfl rfl rfl rfl rfl)
    case refresh | initStatus =>
      exact .next ⟨rfl, .inr ⟨rfl, rfl⟩, .inr ⟨rfl, rfl⟩, .inr ⟨rfl, rfl⟩, .inr ⟨rfl, rfl⟩,
        .inl rfl⟩
    case identify =>
      exact lift_closeIdentify rfl rfl
        (fun _ _ _ => ⟨rfl, .inl rfl, .inl rfl, .inl rfl, .inr ⟨rfl, rfl⟩, .inr ⟨rfl, rfl⟩⟩)
        fun _ _ _ _ => ⟨rfl, .inl rfl, .inl rfl, .inl rfl, .inl rfl, .inr ⟨rfl, rfl⟩⟩
    case initIdent =>
      exact lift_closeInitIdent rfl rfl
        (fun _ _ _ => ⟨rfl, .inl rfl, .inl rfl, .inl rfl, .inr ⟨rfl, rfl⟩, .inr ⟨rfl, rfl⟩⟩)
        fun _ _ _ _ => ⟨rfl, .inl rfl, .inl rfl, .inl rfl, .inl rfl, .inr ⟨rfl, rfl⟩⟩
  case psOff =>
    exact lift_stepPsOff rfl (fun _ => kept rfl rfl rfl rfl rfl) (kept rfl rfl rfl rfl rfl)

/-- While `VALID = 0`, no step reads the five. -/
theorem step_withDevice (hv : s.valid = false) :
    Lift (UnsetCarried s mfr did0 did1 dens psm) (step s)
      (step (withDevice s mfr did0 did1 dens psm)) := by
  refine lift_step rfl rfl rfl rfl (fun _ => .refl _) (fun _ _ i rest => ?_)
    fun _ _ j _ => runJob_withDevice j
  refine (exec_withDevice (s := { s with requests := rest }) hv i).imp fun t u ht _ hu => ?_
  obtain ⟨hm, h0, h1, hd, hp, -⟩ := (exec_accepts ht).device
  exact hu ▸ unsetCarried_withDevice hm h0 h1 hd hp

end

/-- Settles O41: accepting a request at `VALID = 0` and the rows of the micro-phase table do not
read the five registers, and write them or not whatever they hold. -/
theorem unsetRegistersAreNotRead : Obligations.UnsetRegistersAreNotRead := by
  intro s mfr did0 did1 dens psm hv
  have hstep := step_withDevice (mfr := mfr) (did0 := did0) (did1 := did1) (dens := dens)
    (psm := psm) hv
  refine ⟨fun i => lift_iff_mapNext.1 (exec_withDevice hv i), ?_, fun t u ht hu => ?_⟩
  · exact hstep.mapNext_eq fun t u h => by rw [h.same]; rfl
  · rw [ht, hu] at hstep
    cases hstep with
    | next h => exact ⟨h.mfr, h.did0, h.did1, h.dens, h.psm⟩

/-! ## Runs -/

/-- Two states of two runs that differ in the five registers while `VALID = 0`: they agree from
`VALID = 1` on, and in what the identification of INIT wrote from its end on. -/
structure UnsetApart (s u : State) : Prop where
  same : u = withDevice s u.mfr u.did0 u.did1 u.dens u.psm
  valid : s.valid = true → u = s
  probing : ∀ j, s.job = some j → j.finish = .initStatus →
    u.mfr = s.mfr ∧ u.did0 = s.did0 ∧ u.did1 = s.did1 ∧ u.dens = s.dens

theorem UnsetApart.refl (s : State) : UnsetApart s s :=
  ⟨rfl, fun _ => rfl, fun _ _ _ => ⟨rfl, rfl, rfl, rfl⟩⟩

theorem UnsetCarried.ids_agree {s u t t' : State}
    (hc : UnsetCarried s u.mfr u.did0 u.did1 u.dens u.psm t t') (hm : u.mfr = s.mfr)
    (h0 : u.did0 = s.did0) (h1 : u.did1 = s.did1) (hd : u.dens = s.dens) :
    t'.mfr = t.mfr ∧ t'.did0 = t.did0 ∧ t'.did1 = t.did1 ∧ t'.dens = t.dens :=
  ⟨hc.mfr.elim id fun ⟨ht, hu⟩ => hu.trans (hm.trans ht.symm),
    hc.did0.elim id fun ⟨ht, hu⟩ => hu.trans (h0.trans ht.symm),
    hc.did1.elim id fun ⟨ht, hu⟩ => hu.trans (h1.trans ht.symm),
    hc.dens.elim id fun ⟨ht, hu⟩ => hu.trans (hd.trans ht.symm)⟩

/-- A micro-step of two such states: INIT reads the same identification bytes and the same snapshot
in both, so that its registers agree when it sets `VALID`. -/
theorem UnsetApart.micro {s u t t' : State} {j : Job} (h : UnsetApart s u) (hv : s.valid = false)
    (hj : s.job = some j) (hs : Micro j s t) (hu : Micro j u t')
    (hc : UnsetCarried s u.mfr u.did0 u.did1 u.dens u.psm t t') : UnsetApart t t' := by
  have hcfg : u.cfg = s.cfg := by rw [h.same]; rfl
  have hphase : u.phase = s.phase := by rw [h.same]; rfl
  have hsr1 : u.sr1 = s.sr1 := by rw [h.same]; rfl
  have hout : u.out = s.out := by rw [h.same]; rfl
  have hjob : u.job = s.job := by rw [h.same]; rfl
  have htjob : t'.job = t.job := by rw [hc.same]; rfl
  have hagree (hf : j.finish = .initStatus) :=
    have ⟨hm, h0, h1, hd⟩ := h.probing j hj hf
    hc.ids_agree hm h0 h1 hd
  refine ⟨hc.same, fun hvt => ?_, fun j' hj' hf' => ?_⟩
  · obtain ⟨hp, hf⟩ : s.phase = .selOff ∧ j.finish = .initStatus := by
      rcases hs.valid_cases with hvt' | ⟨hp, hf, -⟩ | ⟨-, -, hvt', -⟩
      · simp [hvt', hv] at hvt
      · exact ⟨hp, hf⟩
      · simp [hvt'] at hvt
    have hpsm : t'.psm = t.psm := by
      rw [(hs.closes hp).psm_of_initStatus hf,
        (hu.closes (hphase.trans hp)).psm_of_initStatus hf, hsr1]
    obtain ⟨hm, h0, h1, hd⟩ := hagree hf
    rw [hc.same, hm, h0, h1, hd, hpsm]
    rfl
  · rcases hs.starts_probe hj hj' with rfl | ⟨ho, hd⟩
    · exact hagree hf'
    · rcases hu.starts_probe (hjob.trans hj) (htjob.trans hj') with rfl | ⟨ho', hd'⟩
      · exact hagree hf'
      · rw [hout, ho] at ho'
        obtain ⟨hm, h0, h1⟩ : t.mfr = t'.mfr ∧ t.did0 = t'.did0 ∧ t.did1 = t'.did1 := by
          simpa using ho'
        rw [hcfg, ← h0, hd] at hd'
        exact ⟨hm.symm, h0.symm, h1.symm, (Option.some.inj hd').symm⟩

theorem UnsetApart.step {s u : State} (h : UnsetApart s u) :
    Lift UnsetApart (step s) (step u) := by
  cases hv : s.valid with
  | true =>
    rw [h.valid hv]
    exact Lift.refl fun t _ => .refl t
  | false =>
    have hstep := step_withDevice (mfr := u.mfr) (did0 := u.did0) (did1 := u.did1)
      (dens := u.dens) (psm := u.psm) hv
    rw [← h.same] at hstep
    refine hstep.imp fun t t' ht ht' hc => ?_
    rcases step_next ht with ⟨-, rfl⟩ | ⟨-, -, r, rest, i, -, -, hx⟩ | ⟨hr, hp, j, hj, hm⟩
    · exact ⟨hc.same, nofun, nofun⟩
    · have hacc := exec_accepts hx
      refine ⟨hc.same, fun hvt => ?_, fun j hj hf => ?_⟩
      · obtain ⟨-, -, -, -, -, hvt' | ⟨hvt', -⟩⟩ := hacc.device <;> simp [hvt', hv] at hvt
      · obtain ⟨hm, h0, h1, hd⟩ := h.probing j (hacc.probe_kept hj hf) hf
        exact hc.ids_agree hm h0 h1 hd
    · have hr' : u.resetReq = false := by rw [h.same]; exact hr
      have hp' : u.phase ≠ .idle := by rw [h.same]; exact hp
      have hj' : u.job = some j := by rw [h.same]; exact hj
      exact h.micro hv hj (runJob_next hm) (runJob_next (step_job hr' hp' hj' ▸ ht')) hc

/-- Settles O53: the two runs stay apart in the five registers alone, until INIT has written them
all. -/
theorem unsetRegistersNeverShow : Obligations.UnsetRegistersNeverShow := by
  intro s mfr did0 did1 dens psm k hinv hp hv
  have hapart : UnsetApart s (withDevice s mfr did0 did1 dens psm) :=
    ⟨rfl, by simp [hv], by simp [(hinv.idle hp).1]⟩
  refine (lift_stepN (fun _ _ h => UnsetApart.step h) k hapart).mapNext_eq fun t u h => ?_
  cases ht : t.valid with
  | true => rw [h.valid ht]
  | false =>
    have hu : u.valid = false := by rw [h.same]; exact ht
    simp only [hideUnset, ht, hu, Bool.false_eq_true, if_false]
    rw [h.same]
    rfl

end Sys2Proof.Claims
end

section
/-! PROOFS. The scratch registers carry nothing from one operation to the next (10_state.md R20,
R31). -/

open Sys2Proof.Machine

namespace Sys2Proof.Claims

/-! ## Two runs that differ in the scratch registers -/

/-- The state with another snapshot. -/
def withSnapshot (s : State) (sr1 sr2 : Byte) : State := { s with sr1 := sr1, sr2 := sr2 }

/-- In this phase of an operation with this data phase the operation has captured `sr1`, and its
closing may read it. -/
def holdsSr1 : Phase → DataPhase → Bool
  | .din (_ + 1), .snapshot | .selOff, .snapshot | .psB2, _ | .psOff, _ => true
  | _, _ => false

/-- The same of `sr2`. -/
def holdsSr2 : Phase → DataPhase → Bool
  | .selOff, .snapshot | .psOff, _ => true
  | _, _ => false

/-- Between operations the two states differ in the scratch registers; an operation in progress has
written all of them but those of its snapshot that it has not captured. -/
inductive ScratchApart (s u : State) : Prop
  | idle (hdr : List Byte) (cnt : Len) (fc : FreqClass) (sr1 sr2 : Byte) (out : List Byte)
      (hu : u = withScratch s hdr cnt fc sr1 sr2 out) (hp : s.phase = .idle)
  | running (sr1 sr2 : Byte) (hu : u = withSnapshot s sr1 sr2)
      (h1 : ∀ j, s.job = some j → holdsSr1 s.phase j.data = true → sr1 = s.sr1)
      (h2 : ∀ j, s.job = some j → holdsSr2 s.phase j.data = true → sr2 = s.sr2)

theorem ScratchApart.refl (s : State) : ScratchApart s s :=
  .running s.sr1 s.sr2 rfl (fun _ _ _ => rfl) fun _ _ _ => rfl

theorem holdsSr1_of_holdsSr2 {p : Phase} {d : DataPhase} (h : holdsSr2 p d = true) :
    holdsSr1 p d = true := by
  unfold holdsSr2 at h
  split at h
  case h_1 | h_2 => rfl
  case h_3 => cases h

/-- In a phase that holds no snapshot any two may differ in it. -/
theorem ScratchApart.of_not_holds {s u : State} {j : Job} (sr1 sr2 : Byte)
    (hu : u = withSnapshot s sr1 sr2) (hj : s.job = some j)
    (h : holdsSr1 s.phase j.data = false) : ScratchApart s u := by
  have hnone (j') (hj' : s.job = some j') : holdsSr1 s.phase j'.data ≠ true := by
    obtain rfl : j = j' := by simpa [hj] using hj'
    simp [h]
  exact .running sr1 sr2 hu (fun j' hj' hs => absurd hs (hnone j' hj'))
    fun j' hj' hs => absurd (holdsSr1_of_holdsSr2 hs) (hnone j' hj')

theorem ScratchApart.of_idle {s u : State} (sr1 sr2 : Byte) (hu : u = withSnapshot s sr1 sr2)
    (hp : s.phase = .idle) : ScratchApart s u :=
  .idle s.hdr s.cnt s.fc sr1 sr2 s.out hu hp

theorem holdsSr1_firstPhase (d : DataPhase) : holdsSr1 d.firstPhase d = false := by
  cases d
  case snapshot => rfl
  all_goals
    unfold DataPhase.firstPhase
    split <;> rfl

theorem holdsSr1_afterHeader (j : Job) : holdsSr1 j.afterHeader j.data = false := by
  unfold Job.afterHeader
  split
  · exact holdsSr1_firstPhase _
  · rfl

/-- A snapshot takes two transfers (40_primitives.md R127). -/
theorem snapshot_cnt {s : State} {j : Job} {k : Nat} (h : MachineInv s)
    (hp : s.phase = .din k) (hj : s.job = some j) (hd : j.data = .snapshot) :
    k + s.cnt.toNat = 2 := by
  obtain ⟨-, -, -, hk, -⟩ := (seqOk_din hp hj).1 h.sequencer
  simpa [hd, DataPhase.count] using hk

/-- Transfers of a data phase: a snapshot's first one writes `sr1` in both states, its second one
`sr2`. -/
theorem stepDin_withSnapshot {s : State} {j : Job} {k : Nat} (h : MachineInv s)
    (hp : s.phase = .din k) (hj : s.job = some j) {sr1 sr2 : Byte}
    (h1 : holdsSr1 s.phase j.data = true → sr1 = s.sr1) :
    Lift ScratchApart (stepDin j k s) (stepDin j k (withSnapshot s sr1 sr2)) := by
  unfold stepDin
  cases hd : j.data
  case snapshot =>
    cases k with
    | zero =>
      have hcnt : s.cnt - 1 ≠ 0 := by
        have := snapshot_cnt h hp hj hd
        bv_omega
      refine .next (.running _ sr2 rfl (fun _ _ _ => rfl) fun j' hj' hs => ?_)
      rw [if_neg hcnt] at hs
      simp [holdsSr2] at hs
    | succ k =>
      have hsr1 : sr1 = s.sr1 := h1 (by simp [hp, hd, holdsSr1])
      exact .next (.running sr1 _ rfl (fun _ _ _ => hsr1) fun _ _ _ => rfl)
  case none | read | payload | ident =>
    refine .next (.of_not_holds sr1 sr2 rfl hj ?_)
    rw [hd]
    dsimp only
    split <;> rfl

/-- The closing of a transaction reads the snapshot of its own alone. -/
theorem stepSelOff_withSnapshot {s : State} {j : Job} (hok : j.ok = true)
    (hj : s.job = some j) (hd : j.data ≠ .snapshot) (sr1 sr2 : Byte) :
    Lift ScratchApart (stepSelOff j s) (stepSelOff j (withSnapshot s sr1 sr2)) := by
  have hdata := mt (Job.ok_snapshot hok).2 hd
  unfold stepSelOff
  cases hf : j.finish
  case query | refresh | initStatus => simp [hf] at hdata
  case deliver => exact .next (.of_idle sr1 sr2 rfl rfl)
  case poll => exact .next (.of_not_holds sr1 sr2 rfl hj rfl)
  case identify =>
    exact lift_closeIdentify rfl rfl (fun _ _ _ => .of_idle sr1 sr2 rfl rfl)
      fun _ _ _ _ => .of_idle sr1 sr2 rfl rfl
  case initIdent =>
    exact lift_closeInitIdent rfl rfl (fun _ _ _ => .of_idle sr1 sr2 rfl rfl)
      fun _ _ _ _ => .of_not_holds sr1 sr2 rfl rfl rfl

theorem runJob_withSnapshot {s : State} {j : Job} (h : MachineInv s) (hj : s.job = some j)
    {sr1 sr2 : Byte} (h1 : holdsSr1 s.phase j.data = true → sr1 = s.sr1)
    (h2 : holdsSr2 s.phase j.data = true → sr2 = s.sr2) :
    Lift ScratchApart (runJob j s) (runJob j (withSnapshot s sr1 sr2)) := by
  have hphase : (withSnapshot s sr1 sr2).phase = s.phase := rfl
  unfold runJob
  rw [hphase]
  cases hp : s.phase
  case idle => exact .fault _
  case selOn | psOn | psOpc => exact .next (.of_not_holds sr1 sr2 rfl hj rfl)
  case hdr =>
    refine lift_stepHdr rfl fun _ rest => .of_not_holds sr1 sr2 rfl hj ?_
    dsimp only
    split
    exacts [holdsSr1_afterHeader j, rfl]
  case dmy =>
    exact lift_stepDmy rfl (.of_not_holds sr1 sr2 rfl hj (holdsSr1_firstPhase _))
      (.of_not_holds sr1 sr2 rfl hj rfl)
  case din k => exact stepDin_withSnapshot h hp hj h1
  case dout =>
    refine lift_stepDout fun data b hd => .of_not_holds sr1 sr2 rfl hj ?_
    rw [hd]
    dsimp only
    split <;> rfl
  case selOff =>
    by_cases hd : j.data = .snapshot
    · have hsame : withSnapshot s sr1 sr2 = s := by
        rw [h1 (by rw [hp, hd]; rfl), h2 (by rw [hp, hd]; rfl)]
        rfl
      rw [hsame]
      exact Lift.refl fun t _ => .refl t
    · exact stepSelOff_withSnapshot (h.job_ok hj) hj hd sr1 sr2
  case psB1 => exact .next (.running _ sr2 rfl (fun _ _ _ => rfl) nofun)
  case psB2 =>
    have hsr1 : sr1 = s.sr1 := h1 (by rw [hp]; rfl)
    exact .next (.running sr1 _ rfl (fun _ _ _ => hsr1) fun _ _ _ => rfl)
  case psOff =>
    have hsame : withSnapshot s sr1 sr2 = s := by
      rw [h1 (by rw [hp]; rfl), h2 (by rw [hp]; rfl)]
      rfl
    rw [hsame]
    exact Lift.refl fun t _ => .refl t

/-- An operation starts with `hdr`, `cnt`, `fc` and `out` written. -/
theorem exec_withScratch {s : State} (hp : s.phase = .idle) (hdr : List Byte) (cnt : Len)
    (fc : FreqClass) (sr1 sr2 : Byte) (out : List Byte) (i : Instr) :
    Lift ScratchApart (exec i s) (exec i (withScratch s hdr cnt fc sr1 sr2 out)) := by
  refine lift_exec ?_ (fun _ => ?_) (fun _ _ _ _ => ?_) ?_ (fun _ _ _ _ => ?_) i
  · exact ⟨rfl, rfl, rfl, rfl, rfl, rfl, fun _ => rfl, fun _ => rfl, fun _ => rfl⟩
  · exact .idle hdr cnt fc sr1 sr2 out rfl hp
  · exact .of_not_holds sr1 sr2 rfl rfl rfl
  · exact .idle hdr cnt fc sr1 sr2 out rfl hp
  · exact .of_not_holds sr1 sr2 rfl rfl rfl

theorem ScratchApart.step {s u : State} (hinv : MachineInv s) (h : ScratchApart s u) :
    Lift ScratchApart (step s) (step u) := by
  cases h with
  | idle hdr cnt fc sr1 sr2 out hu hp =>
    subst hu
    exact lift_step rfl rfl rfl rfl (fun _ => .refl _)
      (fun _ _ i rest => exec_withScratch (s := { s with requests := rest }) hp hdr cnt fc sr1 sr2
        out i)
      fun _ hp' => absurd hp hp'
  | running sr1 sr2 hu h1 h2 =>
    subst hu
    exact lift_step rfl rfl rfl rfl (fun _ => .refl _)
      (fun _ hp i rest => exec_withScratch (s := { s with requests := rest }) hp s.hdr s.cnt s.fc
        sr1 sr2 s.out i)
      fun _ _ j hj => runJob_withSnapshot hinv hj (h1 j hj) (h2 j hj)

/-- Settles O42: the two runs stay apart in scratch registers alone, which an operation writes
before it reads them. -/
theorem scratchIsNotCarriedOver : Obligations.ScratchIsNotCarriedOver := by
  intro s hdr cnt fc sr1 sr2 out k hinv hp
  have hkeeps (t u : State) (h : MachineInv t ∧ ScratchApart t u) :
      Lift (fun t u => MachineInv t ∧ ScratchApart t u) (step t) (step u) :=
    (h.2.step h.1).imp fun t' _ ht _ ha => ⟨stepKeepsInvariant t t' h.1 ht, ha⟩
  have hrun := lift_stepN hkeeps k ⟨hinv, .idle hdr cnt fc sr1 sr2 out rfl hp⟩
  refine hrun.mapNext_eq fun t u ⟨_, h⟩ => ?_
  cases h with
  | idle _ _ _ _ _ _ hu _ | running _ _ hu _ _ => rw [hu]; rfl

end Sys2Proof.Claims
end

section
/-! PROOFS. The fields of a wire address (20_memory.md R61). -/

namespace Sys2Proof.Machine

/-- The widths of a density the decode can yield (00_scope.md R8). -/
theorem pageBits_le {c : Config} {d : Byte} {m : Bool} {W : Nat} (hc : c.admissible = true)
    (hd : decodable c d = true) (hW : pageBits c d m = some W) :
    W + offsetBits m ≤ 24 ∧ (m = true → W ≤ 13) ∧ W ≤ 14 := by
  obtain ⟨hmem, h0⟩ : d ∈ c.densityTable ∧ d ≠ 0 := by simpa [decodable] using hd
  obtain ⟨V, hV, hbounds⟩ := pageBits_some hc hmem h0 m
  obtain rfl : V = W := Option.some.inj (hV.symm.trans hW)
  exact hbounds

theorem wireFull_lt {B W : Nat} (h : W + B ≤ 24) (a : Addr) :
    (wireFull B W a).toNat < 2 ^ (W + B) := by
  rw [wireFull_toNat h]
  exact fields_lt B W a

/-- Above the offset stands the page index. -/
theorem wireFull_div {B W : Nat} (h : W + B ≤ 24) (a : Addr) :
    (wireFull B W a).toNat / 2 ^ B = pageIndex B W a := by
  rw [wireFull_toNat h, Nat.add_comm, Nat.add_mul_div_right _ _ (Nat.two_pow_pos B),
    Nat.div_eq_of_lt (offsetOf_lt B a), Nat.zero_add]

theorem wireFull_mod {B W : Nat} (h : W + B ≤ 24) (a : Addr) :
    (wireFull B W a).toNat % 2 ^ B = offsetOf B a := by
  rw [wireFull_toNat h, Nat.mul_add_mod_self_right, Nat.mod_eq_of_lt (offsetOf_lt B a)]

/-- The bits above both fields are 0. -/
theorem getLsbD_wireFull_of_le {B W i : Nat} (h : W + B ≤ 24) (hi : W + B ≤ i) (a : Addr) :
    (wireFull B W a).getLsbD i = false :=
  Nat.testBit_lt_two_pow ((wireFull_lt h a).trans_le (Nat.pow_le_pow_right (by omega) hi))

end Sys2Proof.Machine
end

section
/-! PROOFS. The obligations of the memory rules (20_memory.md R61). -/

open Sys2Proof.Machine

namespace Sys2Proof.Claims

/-- Settles O9: the wire address is the page index above the offset, and in power-of-2 mode the two
fields have at most 13 + 9 bits. -/
theorem wireAddressFields : Obligations.WireAddressFields := by
  rintro c d m W a hc hd hW _ rfl
  obtain ⟨hfit, h13, h14⟩ := pageBits_le hc hd hW
  have hpage := (wireFull_div hfit a).trans (pageIndex_eq _ W a)
  have hoffset := (wireFull_mod hfit a).trans (offsetOf_eq _ a)
  have hhigh (hm : m = true) : W + offsetBits m ≤ 22 := by
    subst hm
    exact Nat.add_le_add_right (h13 rfl) 9
  refine ⟨fun hm => ⟨by rw [hm]; rfl, h14⟩, fun hm => ⟨by rw [hm]; rfl, h13 hm⟩,
    Nat.div_eq_of_lt (wireFull_lt hfit a), hpage, hoffset, fun hm => ⟨?_, ?_⟩⟩
  · exact getLsbD_wireFull_of_le hfit ((hhigh hm).trans (by decide)) a
  · exact getLsbD_wireFull_of_le hfit (hhigh hm) a

end Sys2Proof.Claims
end

section
/-! PROOFS. What the decoder accepts, form by form, and that it is what the encoder writes
(30_encoding.md R97, R100; the layout is the model's, logs 1 and 2). -/

namespace Sys2Proof

/-- The operand bytes of a form and the request they stand for: what may follow a request code. -/
inductive Form.Operands : Form → List Byte → Instr → Prop
  | read (mk : Addr → Len → Instr) (a : Addr) (n : Len) :
      Form.Operands (.read mk) (addrBytes a ++ lenBytes n) (mk a n)
  | write (mk : Addr → List Byte → Instr) (a : Addr) (data : List Byte)
      (h : data.length < 2 ^ 32) :
      Form.Operands (.write mk) (addrBytes a ++ lenBytes (BitVec.ofNat 32 data.length) ++ data)
        (mk a data)
  | addressed (mk : Addr → Instr) (a : Addr) :
      Form.Operands (.addressed mk) (addrBytes a) (mk a)
  | magic : Form.Operands .magic [0x94, 0x80, 0x9A] .eraseChip
  | select (l : List Instr) (k : Byte) (i : Instr) (h : l[k.toNat]? = some i) :
      Form.Operands (.select l) [k] i

/-! ## The decoder accepts exactly the operands of the form -/

theorem Form.Operands.decodeForm_eq {f : Form} {bs : List Byte} {i : Instr}
    (h : f.Operands bs i) : decodeForm f bs = .ok i := by
  cases h
  case read mk a n =>
    have hlen : takeLen (lenBytes n) = .ok (n, []) := by simpa using takeLen_lenBytes n []
    simp [decodeForm, hlen, finish]
  case write mk a data hd =>
    have hn : data.length % 4294967296 = data.length := Nat.mod_eq_of_lt hd
    simp [decodeForm, List.append_assoc, hn]
  case addressed mk a =>
    have haddr : takeAddr (addrBytes a) = .ok (a, []) := by simpa using takeAddr_addrBytes a []
    simp [decodeForm, haddr, finish]
  case magic => rfl
  case select l k h => simp [decodeForm, h, finish]

/-- The bytes after 0xC7 that ERASE.CHIP accepts are the rest of the magic sequence
(30_encoding.md R82). -/
theorem bytes_of_magic {b2 b1 b0 : Byte} (h : word32 0xC7 b2 b1 b0 = 0xC794809A#32) :
    b2 = 0x94 ∧ b1 = 0x80 ∧ b0 = 0x9A := by
  obtain ⟨-, h2, h1, h0⟩ := bytes_word32 0xC7 b2 b1 b0
  rw [h] at h2 h1 h0
  exact ⟨h2.symm, h1.symm, h0.symm⟩

theorem operands_of_decodeForm {f : Form} {bs : List Byte} {i : Instr}
    (h : decodeForm f bs = .ok i) : f.Operands bs i := by
  unfold decodeForm at h
  split at h
  case h_1 =>
    split at h <;> try cases h
    next a rest haddr =>
    split at h <;> try cases h
    next n rest hlen =>
    obtain ⟨rfl, rfl⟩ := finish_ok h
    rw [takeAddr_ok haddr, takeLen_ok hlen, List.append_nil]
    exact .read _ a n
  case h_2 mk =>
    split at h <;> try cases h
    next a rest haddr =>
    split at h <;> try cases h
    next n data hlen =>
    split at h <;> try cases h
    split at h <;> cases h
    have hn : data.length = n.toNat := by omega
    have hwrite := Form.Operands.write mk a data (hn ▸ n.isLt)
    rwa [hn, BitVec.ofNat_toNat, BitVec.setWidth_eq, List.append_assoc, ← takeLen_ok hlen,
      ← takeAddr_ok haddr] at hwrite
  case h_3 =>
    split at h <;> try cases h
    next a rest haddr =>
    obtain ⟨rfl, rfl⟩ := finish_ok h
    rw [takeAddr_ok haddr, List.append_nil]
    exact .addressed _ a
  case h_4 =>
    split at h <;> try cases h
    next hmagic =>
    obtain ⟨rfl, rfl⟩ := finish_ok h
    obtain ⟨rfl, rfl, rfl⟩ := bytes_of_magic hmagic
    exact .magic
  case h_5 => cases h
  case h_6 =>
    split at h <;> try cases h
    next hget =>
    obtain ⟨rfl, rfl⟩ := finish_ok h
    exact .select _ _ _ hget
  case h_7 => cases h

theorem decode_cons_of_operands {b : Byte} {f : Form} {bs : List Byte} {i : Instr}
    (hf : formOf b = some f) (h : f.Operands bs i) : decode (b :: bs) = .ok i := by
  simp [decode, hf, h.decodeForm_eq]

theorem operands_of_decode {bs : List Byte} {i : Instr} (h : decode bs = .ok i) :
    ∃ b f rest, bs = b :: rest ∧ formOf b = some f ∧ f.Operands rest i := by
  unfold decode at h
  split at h <;> try cases h
  split at h <;> try cases h
  exact ⟨_, _, _, rfl, ‹_›, operands_of_decodeForm h⟩

/-! ## The encoder writes the request code of the form and its operands -/

/-- The encoder writes each operation of the form as this request code and its operands. -/
def Form.EncodedWith (b : Byte) : Form → Prop
  | .read mk => ∀ a n, encode (mk a n) = encodeRead b a n
  | .write mk => ∀ a data, encode (mk a data) = encodeWrite b a data
  | .addressed mk => ∀ a, encode (mk a) = encodeAddressed b a
  | .magic => b = 0xC7
  | .select l => l.map encode = (List.range l.length).map fun k => [b, BitVec.ofNat 8 k]

theorem formOf_encodedWith {b : Byte} {f : Form} (h : formOf b = some f) : f.EncodedWith b := by
  unfold formOf at h
  split at h <;> cases h
  all_goals
    next hb =>
    obtain ⟨-, hb⟩ := BitVec.toNat_eq_nat.1 hb
    simp [Form.EncodedWith, encode, hb, List.range_succ]

theorem Form.EncodedWith.encode_eq {b : Byte} {f : Form} {bs : List Byte} {i : Instr}
    (h : f.EncodedWith b) (hi : f.Operands bs i) : encode i = b :: bs := by
  cases hi
  case read => exact h _ _
  case write => exact h _ _
  case addressed => exact h _
  case magic => rw [show b = 0xC7 from h]; rfl
  case select k hk =>
    obtain ⟨hlt, rfl⟩ := List.getElem?_eq_some_iff.1 hk
    simpa [hlt] using congrArg (·[k.toNat]?) (show _ = _ from h)

end Sys2Proof
end

section
/-! PROOFS. The obligations of the request layout and of refused requests (30_encoding.md R92, R97,
R100). -/

open Sys2Proof.Machine

namespace Sys2Proof.Claims

/-- Settles O6: the bytes of a request are the request code of its form and the form's operands. -/
theorem decodeOfEncode : Obligations.DecodeOfEncode := by
  intro i hi
  cases i
  case readFc0 a n | readFc1 a n | readFc2 a n | readFc3 a n | pagerd a n | bufrdLow1 a n
      | bufrdLow2 a n | bufrdHigh1 a n | bufrdHigh2 a n =>
    exact decode_cons_of_operands rfl (.read _ a n)
  case bufwr1 a data | bufwr2 a data | wtbE1 a data | wtbE2 a data | wtbN a data =>
    exact decode_cons_of_operands rfl (.write _ a data (payload_lt hi))
  case wrbackE1 a | wrbackE2 a | wrbackN1 a | wrbackN2 a | copy1 a | copy2 a | cmp1 a | cmp2 a
      | erasePage a | eraseBlock a | eraseSector a =>
    exact decode_cons_of_operands rfl (.addressed _ a)
  case eraseChip => exact decode_cons_of_operands rfl .magic
  case cmpres | identify | init | deinit | ready | psmRefresh | psmCached | epe =>
    exact decode_cons_of_operands rfl (.select _ _ _ rfl)

/-- Settles O7: what the decoder accepts is a request code and operands of its form, which is what
the encoder writes. -/
theorem encodeOfDecode : Obligations.EncodeOfDecode := by
  intro bs i h
  obtain ⟨b, f, rest, rfl, hf, hops⟩ := operands_of_decode h
  exact ⟨decode_wellFormed h, (formOf_encodedWith hf).encode_eq hops⟩

/-- Settles O4: in `IDLE` a step is a fetch, which refuses both. -/
theorem noStepWithoutARequest : Obligations.NoStepWithoutARequest := by
  intro s hr hp
  rw [step_idle hr hp]
  refine ⟨fun hq => ?_, fun r rest e hq hd => ?_⟩
  · simp [fetch, hq]
  · simp [fetch, hq, hd]

/-- Settles O5: the words are closed, and the decoder evaluates on them. -/
theorem tableWordsDecode : Obligations.TableWordsDecode := by
  unfold Obligations.TableWordsDecode
  decide

end Sys2Proof.Claims
end

section
/-! PROOFS. The granular wire addresses as roundings of the full one (30_encoding.md R86 to R91). -/

namespace Sys2Proof.Machine

/-- In the low `W + B` bits of an address the page index stands above the offset. -/
theorem mod_div_eq_pageIndex (B W : Nat) (a : Addr) :
    a.toNat % 2 ^ (W + B) / 2 ^ B = pageIndex B W a := by
  rw [pageIndex_eq, Nat.add_comm, Nat.pow_add, Nat.mod_mul_right_div_self]

/-- The number of a group of `2 ^ k` pages, from the page index and from the address. -/
theorem pageIndex_div (B W k : Nat) (a : Addr) :
    pageIndex B W a / 2 ^ k = a.toNat % 2 ^ (W + B) / 2 ^ (B + k) := by
  rw [← mod_div_eq_pageIndex, Nat.div_div_eq_div_mul, ← Nat.pow_add]

/-- The offset width is that of the page-size mode in force (30_encoding.md R84). -/
theorem State.offsetBits_eq (s : State) : s.offsetBits = if s.psm then 9 else 10 := rfl

theorem State.pg_toNat (s : State) {p o : Nat} (h : (p <<< s.offsetBits) ||| o < 2 ^ 32) :
    (s.pg p o).toNat = (p <<< s.offsetBits) ||| o := by
  rw [State.pg, BitVec.toNat_ofNat, Nat.mod_eq_of_lt h]

end Sys2Proof.Machine
end

section
/-! PROOFS. The obligations of the address codec (30_encoding.md R84 to R91). -/

open Sys2Proof.Machine

namespace Sys2Proof.Claims

/-- Settles O8: decoding keeps the number, and the two fields of a wire address are the address
modulo `2 ^ W * 2 ^ B`. -/
theorem codecRoundTrip : Obligations.CodecRoundTrip := by
  rintro c d m W hc hd hW _ rfl
  obtain ⟨hfit, -⟩ := pageBits_le hc hd hW
  refine ⟨wireDecode_toNat _, fun a => ?_⟩
  rw [wireDecode_toNat, wireFull_toNat hfit, fields_eq]

/-- Settles O10: rounding an address down to a group of pages is rounding its page index. -/
theorem granularWireAddresses : Obligations.GranularWireAddresses := by
  rintro c d m W S a hc hd hW - _ rfl _ rfl
  obtain ⟨hfit, -⟩ := pageBits_le hc hd hW
  refine ⟨?full, ?page, ?block, ?sector, ?buf⟩
  case full => rw [wireFull_toNat hfit, fields_eq, Nat.pow_add]
  case page => rw [wirePage_toNat hfit, mod_div_eq_pageIndex]
  case block => rw [wireBlock_toNat hfit, pageIndex_div]
  case sector => rw [wireSector_toNat hfit, pageIndex_div]
  case buf => rw [wireBuf_toNat (by omega), offsetOf_eq]

/-- Settles O57: each wire address is made with `State.offsetBits`, which reads `PSM`. -/
theorem offsetWidthFollowsPsm : Obligations.OffsetWidthFollowsPsm := by
  refine ⟨rfl, rfl, ?_⟩
  intro s a B hB
  obtain rfl : B = s.offsetBits := hB.trans s.offsetBits_eq.symm
  have hmap {f : Nat → Wire} (w : Wire) (h : s.pageBits.map f = some w) :
      ∃ W, s.pageBits = some W ∧ w = f W := by
    obtain ⟨W, hW, hw⟩ := Option.map_eq_some_iff.1 h
    exact ⟨W, hW, hw.symm⟩
  refine ⟨hmap, hmap, hmap, fun w h => ?_, rfl, fun p o => s.pg_toNat⟩
  unfold State.sectorWire at h
  split at h <;> cases h
  exact ⟨_, _, ‹_›, ‹_›, rfl⟩

end Sys2Proof.Claims
end

section
/-! PROOFS. The byte that opens a transaction (30_encoding.md R92, R96). -/

namespace Sys2Proof.Machine

/-- A frame that may open a transaction begins with an opener. -/
theorem frameOk_cons {c : Config} {b : Byte} {rest : List Byte}
    (h : frameOk c (b :: rest) = true) : b ∈ c.opc.openers := by
  unfold frameOk at h
  split at h <;> simp_all

end Sys2Proof.Machine
end

section
/-! PROOFS. The obligation of the opening byte (30_encoding.md R96). -/

open Sys2Proof.Machine

namespace Sys2Proof.Claims

/-- Settles O15: `HDR(0)` sends the first byte of a frame the invariant knows, `PS_OPC` the status
opcode. -/
theorem transactionsOpenWithAKnownOpcode : Obligations.TransactionsOpenWithAKnownOpcode := by
  intro s t e hinv ht hr htrace hp
  have hidle : s.phase ≠ .idle := by rcases hp with hp | hp <;> simp [hp]
  obtain ⟨j, hj⟩ := hinv.job_some hidle
  rw [step_job hr hidle hj] at ht
  cases runJob_next ht
  case hdr k b rest hk hh =>
    obtain rfl : k = 0 := by simpa [hk] using hp
    obtain ⟨-, -, hframe, -⟩ := (seqOk_hdr_zero hk hj).1 hinv.sequencer
    exact ⟨b, _, _, by simpa using htrace.symm, frameOk_cons (hh ▸ hframe)⟩
  case psOpc =>
    exact ⟨s.cfg.opc.status, _, _, by simpa using htrace.symm,
      by simp [Opcodes.openers, Opcodes.all]⟩
  all_goals simp [*] at hp

end Sys2Proof.Claims
end

section
/-! PROOFS. The bus event of a step, the outcome it delivers, and the level of select
(40_primitives.md R120, R121, R131). -/

namespace Sys2Proof.Machine

/-! ## The level of select -/

/-- Select is asserted while the machine stands in this phase. -/
def Phase.selected : Phase → Bool
  | .idle | .selOn | .psOn => false
  | .hdr _ | .dmy _ | .din _ | .dout _ | .selOff | .psOpc | .psB1 | .psB2 | .psOff => true

/-- The phase determines `sel` (10_state.md R29). -/
theorem MachineInv.sel_eq {s : State} (h : MachineInv s) : s.sel = s.phase.selected := by
  by_cases hidle : s.phase = .idle
  · rw [hidle]
    exact (h.idle hidle).2
  obtain ⟨j, hj⟩ := h.job_some hidle
  have hs := h.sequencer
  cases hp : s.phase
  case idle => exact absurd hp hidle
  case selOn => obtain ⟨-, hsel, -⟩ := (seqOk_selOn hp hj).1 hs; exact hsel
  case hdr => obtain ⟨-, hsel, -⟩ := seqOk_hdr hp hj hs; exact hsel
  case dmy => obtain ⟨-, hsel, -⟩ := (seqOk_dmy hp hj).1 hs; exact hsel
  case din => obtain ⟨-, hsel, -⟩ := (seqOk_din hp hj).1 hs; exact hsel
  case dout => obtain ⟨-, hsel, -⟩ := (seqOk_dout hp hj).1 hs; exact hsel
  case selOff => obtain ⟨-, hsel, -⟩ := (seqOk_selOff hp hj).1 hs; exact hsel
  case psOn => obtain ⟨-, -, hsel⟩ := (seqOk_psOn hp hj).1 hs; exact hsel
  case psOpc | psB1 | psB2 | psOff =>
    obtain ⟨-, -, hsel⟩ := (seqOk_ps (by simp [hp]) hj).1 hs
    exact hsel

/-! ## The bus event -/

/-- A step from `s` to `t` may perform this event: `SEL(v)` in a phase of the other level, which
sets `sel`, or a transfer in a phase with select asserted, which leaves `sel` and takes its answer
from the link. -/
inductive BusEvent (s t : State) : Event → Prop
  | sel (v : Bool) (hp : s.phase.selected = !v) (hsel : t.sel = v)
      (hlink : t.link = s.link.onSel v) : BusEvent s t (.sel v)
  | xfer (o : Byte) (fc : FreqClass) (hp : s.phase.selected = true) (hsel : t.sel = s.sel)
      (hlink : t.link = s.link.onXfer s.cfg o (s.freeByte o fc)) :
      BusEvent s t (.xfer o fc (s.answer o fc))

/-- Every row of the table of 40_primitives.md R131 after IDLE performs one bus event. -/
theorem Micro.event {j : Job} {s t : State} (h : Micro j s t) :
    ∃ e, t.trace = s.trace ++ [e] ∧ BusEvent s t e := by
  cases h
  case selOff hp h =>
    obtain ⟨hsel, htrace, hlink, -⟩ := h.frame
    exact ⟨_, htrace, .sel false (by rw [hp]; rfl) hsel hlink⟩
  case selOn hp | psOn hp => exact ⟨_, rfl, .sel true (by rw [hp]; rfl) rfl rfl⟩
  case psReady hp _ _ _ | psBusy hp _ _ _ =>
    exact ⟨_, rfl, .sel false (by rw [hp]; rfl) rfl rfl⟩
  case din k hp =>
    exact ⟨_, by simp, .xfer s.cfg.fill s.fc (by rw [hp]; rfl) (by simp) (by simp)⟩
  case hdr hp _ | dmyLast hp _ | dmy hp _ | dout hp _ _ | psOpc hp | psB1 hp | psB2 hp =>
    exact ⟨_, rfl, .xfer _ _ (by rw [hp]; rfl) rfl rfl⟩

/-- Accepting a request performs no bus event. -/
theorem Accepts.bus {i : Instr} {s t : State} (h : Accepts i s t) :
    t.trace = s.trace ∧ t.sel = s.sel := by
  cases h <;> exact ⟨rfl, rfl⟩

/-! ## The outcome delivered -/

/-- Accepting a request delivers an outcome at once, or starts the operation. -/
theorem Accepts.delivered {i : Instr} {s t : State} (h : Accepts i s t) :
    t.delivered = s.delivered ∨ ∃ d, t.delivered = s.delivered ++ [d] := by
  cases h
  case load | init => exact .inl rfl
  case unsupported | notInitialised | cached | deinit => exact .inr ⟨_, rfl⟩

/-- Closing a command transaction delivers an outcome, or goes on with the poll loop or with INIT's
second transaction. -/
theorem Closes.delivered {j : Job} {s t : State} (h : Closes j s t) :
    t.delivered = s.delivered ∨ ∃ d, t.delivered = s.delivered ++ [d] := by
  cases h
  case poll | initIdent => exact .inl rfl
  case deliver | query | refresh | invalid | identify | initStatus => exact .inr ⟨_, rfl⟩

/-- Of the rows of the micro-phase table `SEL_OFF` and `PS_OFF` alone deliver. -/
theorem Micro.delivered {j : Job} {s t : State} (h : Micro j s t) :
    t.delivered = s.delivered ∨ ∃ d, t.delivered = s.delivered ++ [d] := by
  cases h
  case selOff h => exact h.delivered
  case psReady => exact .inr ⟨_, rfl⟩
  all_goals exact .inl (by simp)

end Sys2Proof.Machine
end

section
/-! PROOFS. A step exists: the entry checks and the micro-steps never fault under the invariant
(40_primitives.md R132, logs 10 and 11). -/

namespace Sys2Proof.Machine

/-! ## Accepting a request -/

/-- A gate answers a next state when what it guards does. -/
theorem gate_defined {c : Bool} {s : State} {k : Result} (hk : ∃ t, k = .next t) :
    ∃ t, gate c s k = .next t := by
  cases c
  · exact ⟨_, gate_false s k⟩
  · exact hk

/-- An operation on an address answers a next state when there is a wire address at `VALID = 1`. -/
theorem needInit_withWire_defined {s : State} {w : Option Wire} {k : Wire → Result}
    (hw : s.valid = true → ∃ x, w = some x) (hk : ∀ x, ∃ t, k x = .next t) :
    ∃ t, needInit s (withWire w k) = .next t := by
  cases hv : s.valid
  · exact ⟨_, needInit_invalid hv _⟩
  · obtain ⟨x, rfl⟩ := hw hv
    obtain ⟨t, ht⟩ := hk x
    exact ⟨t, (needInit_valid hv _).trans ht⟩

/-- Every operation is accepted, if only to deliver an error. -/
theorem MachineInv.exec_defined {s : State} (h : MachineInv s) (i : Instr) :
    ∃ t, exec i s = .next t := by
  have wires (a : Addr) (hv : s.valid = true) :=
    Claims.wireAddressDefined s a h.admissible (h.density hv)
  have full (a : Addr) (hv : s.valid = true) : ∃ x, s.fullWire a = some x :=
    let ⟨x, _, _, _, _, hx, _⟩ := wires a hv; ⟨x, hx⟩
  have page (a : Addr) (hv : s.valid = true) : ∃ x, s.pageWire a = some x :=
    let ⟨_, x, _, _, _, _, hx, _⟩ := wires a hv; ⟨x, hx⟩
  have block (a : Addr) (hv : s.valid = true) : ∃ x, s.blockWire a = some x :=
    let ⟨_, _, x, _, _, _, _, hx, _⟩ := wires a hv; ⟨x, hx⟩
  have sector (a : Addr) (hv : s.valid = true) : ∃ x, s.sectorWire a = some x :=
    let ⟨_, _, _, x, _, _, _, _, hx, _⟩ := wires a hv; ⟨x, hx⟩
  have buf (a : Addr) (hv : s.valid = true) : ∃ x, s.bufWire a = some x :=
    let ⟨_, _, _, _, x, _, _, _, _, hx⟩ := wires a hv; ⟨x, hx⟩
  cases i
  case readFc0 a _ | readFc1 a _ | readFc2 a _ | pagerd a _ | wtbE1 a _ | wtbN a _ =>
    exact needInit_withWire_defined (full a) fun _ => ⟨_, rfl⟩
  case readFc3 a _ | wtbE2 a _ =>
    exact gate_defined (needInit_withWire_defined (full a) fun _ => ⟨_, rfl⟩)
  case bufrdLow1 a _ | bufrdHigh1 a _ | bufwr1 a _ =>
    exact needInit_withWire_defined (buf a) fun _ => ⟨_, rfl⟩
  case bufrdLow2 a _ | bufrdHigh2 a _ | bufwr2 a _ =>
    exact gate_defined (needInit_withWire_defined (buf a) fun _ => ⟨_, rfl⟩)
  case wrbackE1 a | wrbackN1 a | copy1 a | cmp1 a | erasePage a =>
    exact needInit_withWire_defined (page a) fun _ => ⟨_, rfl⟩
  case wrbackE2 a | wrbackN2 a | copy2 a | cmp2 a =>
    exact gate_defined (needInit_withWire_defined (page a) fun _ => ⟨_, rfl⟩)
  case eraseBlock a => exact needInit_withWire_defined (block a) fun _ => ⟨_, rfl⟩
  case eraseSector a => exact needInit_withWire_defined (sector a) fun _ => ⟨_, rfl⟩
  case cmpres | eraseChip | identify | init | deinit | ready | psmRefresh | epe => exact ⟨_, rfl⟩
  case psmCached =>
    cases hv : s.valid
    · exact ⟨_, needInit_invalid hv _⟩
    · exact ⟨_, needInit_valid hv _⟩

/-! ## The rows that could fault -/

/-- `HDR(i)` has a byte to send. -/
theorem MachineInv.hdr_ne_nil {s : State} {i : Nat} (h : MachineInv s) (hp : s.phase = .hdr i) :
    s.hdr ≠ [] := by
  obtain ⟨j, hj⟩ := h.job_some (by simp [hp])
  cases i with
  | zero =>
    obtain ⟨-, -, hf, -⟩ := (seqOk_hdr_zero hp hj).1 h.sequencer
    intro hnil
    simp [frameOk, hnil] at hf
  | succ i =>
    obtain ⟨-, -, hne, -⟩ := (seqOk_hdr_succ hp hj).1 h.sequencer
    exact hne

/-- `DOUT(k)` has the payload byte `data[k]`. -/
theorem MachineInv.dout_payload {s : State} {j : Job} {k : Nat} (h : MachineInv s)
    (hj : s.job = some j) (hp : s.phase = .dout k) :
    ∃ data b, j.data = .payload data ∧ data[k]? = some b := by
  obtain ⟨-, -, hc, hk, hread, -⟩ := (seqOk_dout hp hj).1 h.sequencer
  obtain ⟨-, hpos⟩ := count_pred hc
  cases hd : j.data
  case read | snapshot | ident => simp [hd, DataPhase.readsBack] at hread
  case none =>
    have hzero : j.data.count.toNat = 0 := by rw [hd]; rfl
    omega
  case payload data =>
    have hle : j.data.count.toNat ≤ data.length := by
      rw [hd]
      exact (BitVec.toNat_ofNat ..).le.trans (Nat.mod_le ..)
    exact ⟨data, _, rfl, List.getElem?_eq_getElem (by omega)⟩

/-- An identification that closes has captured its three bytes. -/
theorem MachineInv.ident_out {s : State} {j : Job} (h : MachineInv s) (hj : s.job = some j)
    (hp : s.phase = .selOff) (hf : j.finish = .identify ∨ j.finish = .initIdent) :
    ∃ m d0 d1, s.out = [m, d0, d1] := by
  obtain ⟨hok, -, hout⟩ := (seqOk_selOff hp hj).1 h.sequencer
  rw [(Job.ok_ident hok).2 hf] at hout
  exact List.length_eq_three.1 hout

/-- The row PS_OFF belongs to an operation that polls. -/
theorem MachineInv.psOff_finish {s : State} {j : Job} (h : MachineInv s) (hj : s.job = some j)
    (hp : s.phase = .psOff) : ∃ o, j.finish = .poll o := by
  obtain ⟨-, hpoll, -⟩ := (seqOk_ps (by simp [hp]) hj).1 h.sequencer
  unfold Job.polls at hpoll
  split at hpoll
  · exact ⟨_, ‹_›⟩
  all_goals cases hpoll

/-! ## Every row -/

/-- Closing the command transaction of an operation in progress. -/
theorem MachineInv.stepSelOff_defined {s : State} {j : Job} (h : MachineInv s)
    (hj : s.job = some j) (hp : s.phase = .selOff) : ∃ t, stepSelOff j s = .next t := by
  unfold stepSelOff
  cases hf : j.finish
  case deliver | poll | query | refresh | initStatus => exact ⟨_, rfl⟩
  case identify =>
    obtain ⟨m, d0, d1, hout⟩ := h.ident_out hj hp (.inl hf)
    simp only [closeIdentify, State.select_out, hout]
    split <;> exact ⟨_, rfl⟩
  case initIdent =>
    obtain ⟨m, d0, d1, hout⟩ := h.ident_out hj hp (.inr hf)
    simp only [closeInitIdent, State.select_out, hout]
    split <;> exact ⟨_, rfl⟩

/-- An operation in progress has a micro-step. -/
theorem MachineInv.runJob_defined {s : State} {j : Job} (h : MachineInv s) (hj : s.job = some j) :
    ∃ t, runJob j s = .next t := by
  cases hp : s.phase <;> simp only [runJob, hp]
  case idle => exact absurd hp (h.not_idle hj)
  case hdr i =>
    obtain ⟨b, rest, hh⟩ := List.exists_cons_of_ne_nil (h.hdr_ne_nil hp)
    simp only [stepHdr, hh]
    exact ⟨_, rfl⟩
  case dmy => unfold stepDmy; split <;> exact ⟨_, rfl⟩
  case dout k =>
    obtain ⟨data, b, hd, hb⟩ := h.dout_payload hj hp
    simp only [stepDout, hd, hb]
    exact ⟨_, rfl⟩
  case selOff => exact h.stepSelOff_defined hj hp
  case psOff =>
    obtain ⟨o, hf⟩ := h.psOff_finish hj hp
    simp only [stepPsOff, hf]
    split <;> exact ⟨_, rfl⟩
  case selOn | din | psOn | psOpc | psB1 | psB2 => exact ⟨_, rfl⟩

/-! ## The step -/

/-- In `IDLE` the request at the head of the port is taken off it and run. -/
theorem step_request {s : State} {r : List Byte} {rest : List (List Byte)} {i : Instr}
    (hr : s.resetReq = false) (hp : s.phase = .idle) (hq : s.requests = r :: rest)
    (hd : decode r = .ok i) : step s = exec i { s with requests := rest } := by
  rw [step_idle hr hp]
  simp [fetch, hq, hd]

/-- With a reset asked for, an operation in progress or a request offered there is a step. -/
theorem MachineInv.step_defined {s : State} (h : MachineInv s)
    (hc : s.resetReq = true ∨ s.phase ≠ .idle ∨
      ∃ r rest i, s.requests = r :: rest ∧ decode r = .ok i) : ∃ t, step s = .next t := by
  cases hr : s.resetReq
  case true => exact ⟨_, step_reset hr⟩
  case false =>
    by_cases hp : s.phase = .idle
    · obtain ⟨r, rest, i, hq, hd⟩ := (hc.resolve_left (by simp [hr])).resolve_left fun h => h hp
      rw [step_request hr hp hq hd]
      exact (h.withRequests rest).exec_defined i
    · obtain ⟨j, hj⟩ := h.job_some hp
      rw [step_job hr hp hj]
      exact h.runJob_defined hj

/-- With nothing to do the step is refused. -/
theorem step_refused {s : State} (hc : ¬ (s.resetReq = true ∨ s.phase ≠ .idle ∨
      ∃ r rest i, s.requests = r :: rest ∧ decode r = .ok i)) : ∃ e, step s = .refused e := by
  simp only [not_or, Bool.not_eq_true, not_not, not_exists, not_and] at hc
  obtain ⟨hr, hp, hq⟩ := hc
  obtain ⟨hnone, herror⟩ := Claims.noStepWithoutARequest s hr hp
  cases hreq : s.requests with
  | nil => exact ⟨_, hnone hreq⟩
  | cons r rest =>
    cases hd : decode r with
    | error e => exact ⟨_, herror r rest e hreq hd⟩
    | ok i => exact absurd hd (hq r rest i hreq)

end Sys2Proof.Machine
end

section
/-! PROOFS. The frame of a transaction and one turn of the poll loop, as runs (40_primitives.md R123
to R125, R127, R128). -/

open Sys2Proof.Claims

namespace Sys2Proof.Machine

/-- From `SEL_ON` the sequencer sends the bytes of `hdr` behind `SEL(1)`. -/
theorem frames_hdr {s : State} {j : Job} (hp : s.phase = .selOn) (hj : s.job = some j)
    (hr : s.resetReq = false) (hh : s.hdr ≠ []) :
    Frames s j (.sel true :: s.hdr.map fun b => .xfer b s.fc) := by
  obtain ⟨new, l, hrun, hsent, -⟩ := run_open hh hr hj hp rfl
  have hlen : (Sent.sel true :: s.hdr.map fun b => .xfer b s.fc).length = 1 + s.hdr.length := by
    rw [List.length_cons, List.length_map, Nat.add_comm]
  unfold Frames
  rw [hlen]
  exact ⟨new, _, hrun, rfl, hsent, rfl, rfl, rfl, rfl, rfl, rfl, rfl, rfl, rfl, rfl, rfl, rfl⟩

/-- Row PS_OFF: the snapshot closes, `rs` follows its ready bit, and that bit decides whether the
operation ends. -/
theorem step_psOff {s : State} {j : Job} {o : OpOutcome} (hr : s.resetReq = false)
    (hj : s.job = some j) (hp : s.phase = .psOff) (hf : j.finish = .poll o) :
    step s = .next (if readyBit s.cfg s.sr1 then
      (s.select false).observe.conclude (if errorBit s.cfg s.sr2 then .fail else o) []
      else { (s.select false).observe with phase := .psOn }) := by
  rw [step_job hr (by simp [hp]) hj]
  simp only [runJob, hp, stepPsOff, hf]
  split <;> rfl

/-- One turn of the poll loop, rows PS_ON to PS_OFF. -/
theorem run_pollTurn {s : State} {j : Job} {o : OpOutcome} (hr : s.resetReq = false)
    (hj : s.job = some j) (hp : s.phase = .psOn) (hf : j.finish = .poll o) :
    ∃ x a b l t, t = { s with
        sel := false, rs := readinessOf s.cfg a, sr1 := a, sr2 := b, link := l,
        trace := s.trace ++ [.sel true, .xfer s.cfg.opc.status s.cfg.fcCmd x,
          .xfer s.cfg.fill s.cfg.fcCmd a, .xfer s.cfg.fill s.cfg.fcCmd b, .sel false] } ∧
      stepN 5 s = .next (if readyBit s.cfg a then
        t.conclude (if errorBit s.cfg b then .fail else o) [] else t) := by
  obtain ⟨x, a, b, l, hrun⟩ := run_poll hr hj hp
  refine ⟨x, a, b, l.onSel false, _, rfl, ?_⟩
  rw [stepN_add hrun 1, stepN_succ (step_psOff (by exact hr) (by exact hj) rfl hf), stepN_zero]
  simp [State.select, State.observe, State.conclude, hp]

end Sys2Proof.Machine
end

section
/-! PROOFS. The obligations of the primitives (40_primitives.md R120 to R132). -/

open Sys2Proof.Machine

namespace Sys2Proof.Claims

/-- Settles O3: in `IDLE` a step is a fetch, which runs what it decodes. -/
theorem stepRunsTheOfferedRequest : Obligations.StepRunsTheOfferedRequest :=
  fun _ _ _ _ hr hp hq hd => step_request hr hp hq hd

/-- Settles O12: the run of `SEL_ON` and `HDR` sends `hdr`, and the bytes of each frame format are
those slices of the wire address or of the magic sequence. -/
theorem framingSteps : Obligations.FramingSteps := by
  intro s j hp hj hr
  have run {f : List Byte} (hh : s.hdr = f) (hf : f ≠ []) :
      Frames s j (.sel true :: f.map fun b => .xfer b s.fc) :=
    hh ▸ frames_hdr hp hj hr (hh ▸ hf)
  exact ⟨fun opc w hh => run hh (by simp [frameOA]), fun m hh => run hh (by simp [frameM4]),
    fun opc hh => run hh (by simp [frameO])⟩

/-- Settles O13: an accepted request performs no event, a micro-step the one of its row, and either
delivers at most one outcome. -/
theorem oneEventPerMicroStep : Obligations.OneEventPerMicroStep := by
  intro s t ht hr
  rcases step_next ht with ⟨hr', -⟩ | ⟨-, hp, r, rest, i, -, -, hx⟩ | ⟨-, hp, j, -, hm⟩
  · simp [hr] at hr'
  · have hacc := exec_accepts hx
    obtain ⟨htrace, -⟩ := hacc.bus
    exact ⟨fun _ => htrace, fun h => absurd hp h, hacc.delivered⟩
  · have hmicro := runJob_next hm
    obtain ⟨e, htrace, hevent⟩ := hmicro.event
    refine ⟨fun h => absurd h hp, fun _ => ⟨e, htrace, ?_⟩, hmicro.delivered⟩
    cases hevent with
    | sel v _ hsel hlink => exact ⟨nofun, fun v' hv => by cases hv; exact ⟨hsel, hlink⟩⟩
    | xfer o fc _ _ hlink => exact ⟨fun o' fc' i he => by cases he; exact ⟨rfl, hlink⟩, nofun⟩

/-- Settles O14: the phase determines `sel` under the invariant, and which events a row may
perform. -/
theorem busDiscipline : Obligations.BusDiscipline := by
  intro s t hinv ht hr
  rcases step_next ht with ⟨hr', -⟩ | ⟨-, -, r, rest, i, -, -, hx⟩ | ⟨-, -, j, -, hm⟩
  · simp [hr] at hr'
  · obtain ⟨htrace, hsel⟩ := (exec_accepts hx).bus
    exact ⟨fun e he => by simp [htrace] at he, fun _ => hsel⟩
  · obtain ⟨e, htrace, hevent⟩ := (runJob_next hm).event
    refine ⟨fun e' he => ?_, fun h => by simp [h] at htrace⟩
    obtain rfl : e = e' := by simpa [htrace] using he
    have hphase := hinv.sel_eq
    cases hevent with
    | sel v hp _ _ =>
      rw [hp] at hphase
      exact ⟨fun hv => by cases hv; exact hphase, fun hv => by cases hv; exact hphase, nofun⟩
    | xfer o fc hp hsel _ =>
      rw [hp] at hphase
      exact ⟨nofun, nofun, fun _ _ _ _ => ⟨hphase, hsel.trans hphase⟩⟩

/-- Settles O32: four steps take the snapshot, and the fifth, `PS_OFF`, reads its ready bit. -/
theorem pollLoopTurn : Obligations.PollLoopTurn := by
  intro s j o hp hj hf hr
  obtain ⟨x, a, b, l, t, rfl, hturn⟩ := run_pollTurn hr hj hp hf
  refine ⟨[.sel true, .xfer s.cfg.opc.status s.cfg.fcCmd x, .xfer s.cfg.fill s.cfg.fcCmd a,
    .xfer s.cfg.fill s.cfg.fcCmd b, .sel false], _, x, a, b, hturn, ?_⟩
  have hbit : a.getLsbD s.cfg.rdyBit = readyBit s.cfg a := rfl
  rw [hbit]
  cases hready : readyBit s.cfg a
  · simp [hready, hp, hj, readinessOf, SameDevice, SameInputs, snapshotSent, transaction]
  · simp [hready, readinessOf, errorBit, SameDevice, SameInputs, snapshotSent, transaction]

/-- Settles O36: with something to do there is a step under the invariant, and else the step is
refused. -/
theorem stepExistsExactly : Obligations.StepExistsExactly := by
  intro s hinv
  by_cases hc : s.resetReq = true ∨ s.phase ≠ .idle ∨
      ∃ r rest i, s.requests = r :: rest ∧ decode r = .ok i
  · obtain ⟨t, ht⟩ := hinv.step_defined hc
    exact ⟨⟨fun _ => hc, fun _ => ⟨t, ht⟩⟩, fun r => by simp [ht]⟩
  · obtain ⟨e, he⟩ := step_refused hc
    exact ⟨⟨fun ⟨t, ht⟩ => by simp [he] at ht, fun h => absurd h hc⟩, fun r => by simp [he]⟩

end Sys2Proof.Claims
end

section
/-! PROOFS. How an addressed operation starts, and how an operation without a poll loop ends
(40_primitives.md R129 to R131, R133). -/

namespace Sys2Proof.Machine

/-- An addressed operation that may run passes its entry checks and goes on with its wire address. -/
theorem exec_eq_of_mayRun {i : Instr} {s : State} {c : Bool} {w : Option Wire} {x : Wire}
    {k : Wire → Result} (hx : exec i s = gate c s (needInit s (withWire w k)))
    (hm : missingCapability s.cfg i = !c) (hn : needsValid i = true)
    (h : Claims.MayRun s i) (hw : w = some x) : exec i s = k x := by
  obtain ⟨hcap, hvalid, -⟩ := h
  obtain rfl : c = true := by simpa [hm] using hcap
  rw [hx, gate_true, needInit_valid (hvalid hn), hw, withWire]

/-- Row SEL_OFF of an operation without a poll loop: `SEL(0)`, and its outcome is delivered with the
captured bytes. -/
theorem step_selOff_deliver {s : State} {j : Job} {o : OpOutcome} (hr : s.resetReq = false)
    (hj : s.job = some j) (hp : s.phase = .selOff) (hf : j.finish = .deliver o) :
    step s = .next ((s.select false).conclude o s.out) := by
  rw [step_job hr (by simp [hp]) hj]
  simp only [runJob, hp, stepSelOff, hf]

/-- A run to SEL_OFF of an operation without a poll loop goes on to its end: one more event, the
`SEL(0)`. -/
theorem completes_of_deliver {i : Instr} {s t u : State} {j : Job} {o : OpOutcome}
    {new : List Event} (hx : exec i s = .next t) (ht : t.trace = s.trace)
    (hrun : stepN new.length t = .next u) (hj : u.job = some j) (hp : u.phase = .selOff)
    (hf : j.finish = .deliver o) (htrace : u.trace = s.trace ++ new)
    (hdel : u.delivered = s.delivered) (hr : s.resetReq = false)
    (hin : Claims.SameInputs s u) :
    Completes i s (new ++ [.sel false]) o u.out ((u.select false).conclude o u.out) := by
  obtain ⟨hcfg, hreq, hreset⟩ := hin
  refine ⟨t, hx, ht, ?_, by simp [htrace], by simp [hdel], rfl, rfl, rfl, hcfg, hreq, hreset⟩
  rw [List.length_append, stepN_add hrun]
  exact stepN_succ (step_selOff_deliver (hreset.trans hr) hj hp hf) 0

end Sys2Proof.Machine
end

section
/-! PROOFS. The obligation of the reads (41_read.md R150 to R159). -/

open Sys2Proof.Machine

namespace Sys2Proof.Claims

/-- The read `i` of `n` bytes runs to its end in one transaction of class `fc`: this frame, `dummy`
discarded answers, the bytes read; no Device register, not `rs` and no snapshot byte is written
(41_read.md R150). -/
def ReadCompletes (i : Instr) (s : State) (frame : List Byte) (fc : FreqClass) (dummy : Nat)
    (n : Len) : Prop :=
  ∃ new u, Completes i s new (.done n) ((answersOf new).drop (4 + dummy)) u ∧
    sentOf new = transaction fc (frame ++ List.replicate (dummy + n.toNat) s.cfg.fill) ∧
    SameDevice s u ∧ u.rs = s.rs ∧ u.sr1 = s.sr1 ∧ u.sr2 = s.sr2

/-- `READ_COMMON`: the transaction runs to SEL_OFF, and its `SEL(0)` delivers what was captured. -/
theorem readCompletes_of_readCommon {i : Instr} {s : State} {opc : Byte} {w : Wire}
    {fc : FreqClass} {dmy n : Len} (hr : s.resetReq = false)
    (hx : exec i s = readCommon s opc w fc dmy n) :
    ReadCompletes i s (frameOA opc w) fc dmy.toNat n := by
  obtain ⟨new, l, hrun, hsent, -⟩ := run_read (f := frameOA opc w) (s := s.load (frameOA opc w) fc
    { dummy := dmy, data := .read n, marksBusy := false, finish := .deliver (.done n) })
    (by simp [frameOA]) hr rfl rfl rfl rfl rfl (.inl ⟨n, rfl⟩)
  have hend := completes_of_deliver hx rfl hrun rfl rfl rfl rfl rfl hr ⟨rfl, rfl, rfl⟩
  have hans : answersOf new = answersOf (new ++ [.sel false]) := by simp
  rw [hans] at hend
  exact ⟨_, _, hend, by simp [hsent, transaction, DataPhase.count],
    ⟨rfl, rfl, rfl, rfl, rfl, rfl⟩, rfl, rfl, rfl⟩

/-- A read behind its entry checks: with a wire address it is `READ_COMMON`. -/
theorem readCompletes_of_gate {i : Instr} {s : State} {c : Bool} {w : Option Wire} {opc : Byte}
    {fc : FreqClass} {dmy n : Len}
    (hx : exec i s = gate c s (needInit s (withWire w fun x => readCommon s opc x fc dmy n)))
    (hm : missingCapability s.cfg i = !c) (hn : needsValid i = true) (h : MayRun s i)
    (frame : List Byte) (hw : w.map (frameOA opc) = some frame) :
    ReadCompletes i s frame fc dmy.toNat n := by
  obtain ⟨x, hwire, rfl⟩ := Option.map_eq_some_iff.1 hw
  have ⟨_, _, hr⟩ := h
  exact readCompletes_of_readCommon hr (exec_eq_of_mayRun hx hm hn h hwire)

/-- Settles O22: each of the nine reads is `READ_COMMON` with its opcode, class and dummies, three of
them behind a capability gate. -/
theorem readsComplete : Obligations.ReadsComplete := by
  intro s a n
  have ungated {i : Instr} {w : Option Wire} {opc : Byte} {fc : FreqClass} {dmy : Len}
      (hx : exec i s = needInit s (withWire w fun x => readCommon s opc x fc dmy n))
      (hm : missingCapability s.cfg i = false) := readCompletes_of_gate (c := true) hx hm
  simp only [readForms, List.forall_mem_cons, List.not_mem_nil, false_imp_iff, implies_true,
    and_true]
  refine ⟨?fc0, ?fc1, ?fc2, ?fc3, ?pagerd, ?low1, ?low2, ?high1, ?high2⟩
  case fc3 | low2 | high2 => exact readCompletes_of_gate rfl rfl rfl
  case fc0 | fc1 | fc2 | pagerd | low1 | high1 => exact ungated rfl rfl rfl

end Sys2Proof.Claims
end

section
/-! PROOFS. A command transaction that sends a frame and its payload, and what an open link has
answered over a run (40_primitives.md R122, R123; 42_write.md R170). -/

namespace Sys2Proof.Machine

/-- The data phase of `PAYLOAD` (42_write.md R170): no dummy transfers, and these bytes, if any, are
sent. -/
def Job.Sends (j : Job) (data : List Byte) : Prop :=
  j.dummy = 0 ∧ (j.data = .none ∧ data = [] ∨ j.data = .payload data ∧ data.length < 2 ^ 32)

/-- A started operation that sends a payload runs to SEL_OFF: `SEL(1)`, the frame, the payload. -/
theorem run_sends {j : Job} {f data : List Byte} {fc : FreqClass} {s : State} (hf : f ≠ [])
    (hr : s.resetReq = false) (hj : j.Sends data) :
    ∃ new l, stepN new.length (s.load f fc j) = .next { s.load f fc j with
        sel := true, rs := if j.marksBusy then .busy else s.rs, phase := .selOff, hdr := [],
        cnt := 0, trace := s.trace ++ new, link := l } ∧
      sentOf new = .sel true :: (f ++ data).map (fun b => .xfer b fc) ∧
      (answersOf new).length = f.length + data.length := by
  obtain ⟨hdummy, ⟨hd, rfl⟩ | ⟨hd, hlen⟩⟩ := hj
  · have hcnt : (s.load f fc j).cnt = 0 := by simp [Job.firstCount, hdummy, hd, DataPhase.count]
    obtain ⟨new, l, hrun, hsent, hans⟩ := run_none (s := s.load f fc j) hf hr rfl rfl rfl hdummy hd
    exact ⟨new, l, hcnt ▸ hrun, by simpa using hsent, by simpa using hans⟩
  · exact run_payload (s := s.load f fc j) hf hr rfl rfl rfl rfl hdummy hd hlen

/-- Row SEL_OFF of an operation with a poll loop: `SEL(0)`, and the first snapshot is next. -/
theorem step_selOff_poll {s : State} {j : Job} {o : OpOutcome} (hr : s.resetReq = false)
    (hj : s.job = some j) (hp : s.phase = .selOff) (hf : j.finish = .poll o) :
    step s = .next { s.select false with phase := .psOn } := by
  rw [step_job hr (by simp [hp]) hj]
  simp only [runJob, hp, stepSelOff, hf]

/-- Where a write-class operation stands before its first poll, after a command transaction with
these events: `rs` is BUSY since its `SEL(1)` (10_state.md R30). -/
def State.beforePolls (s : State) (fc : FreqClass) (j : Job) (new : List Event) (l : Link) :
    State :=
  { s.load [] fc j with
    sel := false, rs := .busy, phase := .psOn, cnt := 0, trace := s.trace ++ new, link := l }

@[simp] theorem State.beforePolls_cfg (s : State) (fc : FreqClass) (j : Job) (new : List Event)
    (l : Link) : (s.beforePolls fc j new l).cfg = s.cfg := rfl

/-- The command transaction of a write-class operation, up to its first poll. -/
theorem run_toPoll {j : Job} {f data : List Byte} {fc : FreqClass} {o : OpOutcome} {s : State}
    (hf : f ≠ []) (hr : s.resetReq = false) (hj : j.Sends data) (hbusy : j.marksBusy = true)
    (hfin : j.finish = .poll o) :
    ∃ new l, stepN new.length (s.load f fc j) = .next (s.beforePolls fc j new l) ∧
      sentOf new = transaction fc (f ++ data) ∧
      (answersOf new).length = f.length + data.length := by
  obtain ⟨new, l, hrun, hsent, hans⟩ := run_sends (fc := fc) hf hr hj
  simp only [hbusy, if_true] at hrun
  refine ⟨new ++ [.sel false], l.onSel false, ?_, by simp [hsent, transaction], by simpa using hans⟩
  rw [State.beforePolls, List.length_append, stepN_add hrun, ← List.append_assoc]
  exact stepN_succ (step_selOff_poll (by exact hr) rfl rfl hfin) 0

/-- Over a run an open link gives the answers at the head of its list, one to each transfer. -/
theorem answersOf_of_openLink {k : Nat} {s u : State} {new : List Event} {as rest : List Byte}
    (h : stepN k s = .next u) (hr : s.resetReq = false) (htrace : u.trace = s.trace ++ new)
    (hl : s.link = .openLink (as ++ rest)) (hlen : (answersOf new).length = as.length) :
    answersOf new = as ∧ u.link = .openLink rest := by
  obtain ⟨-, -, new', htrace', hlink, hpossible⟩ := stepN_link h hr
  obtain rfl : new = new' := List.append_cancel_left (htrace.symm.trans htrace')
  rw [hl] at hlink hpossible
  obtain ⟨hans, hafter⟩ := Link.open_possible s.cfg new as rest hlen hpossible
  exact ⟨hans, hlink.trans hafter⟩

end Sys2Proof.Machine
end

section
/-! PROOFS. The poll loop against a device whose answers are listed (40_primitives.md R127, R128). -/

open Sys2Proof.Claims

namespace Sys2Proof.Machine

/-- The events of a snapshot with these answers (40_primitives.md R127). -/
def snapshotEvents (c : Config) (p : Poll) : List Event :=
  [.sel true, .xfer c.opc.status c.fcCmd p.1, .xfer c.fill c.fcCmd p.2.1,
    .xfer c.fill c.fcCmd p.2.2, .sel false]

@[simp] theorem sentOf_snapshotEvents (c : Config) (p : Poll) :
    sentOf (snapshotEvents c p) = snapshotSent c := rfl

/-- Where a snapshot of the poll loop with these answers leaves the registers, if the loop goes on. -/
def State.afterPoll (s : State) (p : Poll) (rest : List Byte) : State :=
  { s with
    sel := false, rs := readinessOf s.cfg p.2.1, sr1 := p.2.1, sr2 := p.2.2,
    link := .openLink rest, trace := s.trace ++ snapshotEvents s.cfg p }

@[simp] theorem State.afterPoll_cfg (s : State) (p : Poll) (rest : List Byte) :
    (s.afterPoll p rest).cfg = s.cfg := rfl

/-- One turn of the poll loop takes the next three listed answers. -/
theorem run_listedTurn {s : State} {j : Job} {o : OpOutcome} {p : Poll} {rest : List Byte}
    (hr : s.resetReq = false) (hj : s.job = some j) (hp : s.phase = .psOn)
    (hf : j.finish = .poll o) (hl : s.link = .openLink ([p.1, p.2.1, p.2.2] ++ rest)) :
    stepN 5 s = .next (if readyBit s.cfg p.2.1 then
      (s.afterPoll p rest).conclude (if errorBit s.cfg p.2.2 then .fail else o) []
      else s.afterPoll p rest) := by
  obtain ⟨x, a, b, l, t, rfl, hturn⟩ := run_pollTurn hr hj hp hf
  obtain ⟨hans, hlink⟩ := answersOf_of_openLink (new := snapshotEvents s.cfg (x, a, b)) hturn hr
    (by split <;> rfl) hl rfl
  obtain ⟨rfl, rfl, rfl⟩ : x = p.1 ∧ a = p.2.1 ∧ b = p.2.2 := by
    simpa [snapshotEvents] using hans
  obtain rfl : l = .openLink rest := by
    split at hlink <;> exact hlink
  exact hturn

@[simp] theorem pollAnswers_cons (p : Poll) (ps : List Poll) :
    pollAnswers (p :: ps) = [p.1, p.2.1, p.2.2] ++ pollAnswers ps := rfl

/-- `WAIT_READY` and the end of a write-class operation: any number of busy snapshots, and one that
shows ready. -/
theorem run_pollLoop {j : Job} {o : OpOutcome} (hf : j.finish = .poll o) (busy : List Poll)
    (last : Poll) (rest : List Byte) {s : State} (hr : s.resetReq = false) (hj : s.job = some j)
    (hp : s.phase = .psOn) (hbusy : ∀ p ∈ busy, readyBit s.cfg p.2.1 = false)
    (hready : readyBit s.cfg last.2.1 = true)
    (hl : s.link = .openLink (pollAnswers (busy ++ [last]) ++ rest)) :
    ∃ new, stepN new.length s = .next ({ s with
        sel := false, rs := .ready, sr1 := last.2.1, sr2 := last.2.2, link := .openLink rest,
        trace := s.trace ++ new }.conclude (if errorBit s.cfg last.2.2 then .fail else o) []) ∧
      sentOf new = (List.replicate (busy.length + 1) (snapshotSent s.cfg)).flatten := by
  induction busy generalizing s with
  | nil =>
    have hturn := run_listedTurn hr hj hp hf hl
    rw [if_pos hready, State.afterPoll, readinessOf, if_pos hready] at hturn
    exact ⟨snapshotEvents s.cfg last, hturn, by simp⟩
  | cons p busy ih =>
    obtain ⟨hbusy₁, hbusy⟩ := List.forall_mem_cons.1 hbusy
    have hturn := run_listedTurn hr hj hp hf (by simpa using hl)
    rw [if_neg (by simp [hbusy₁])] at hturn
    obtain ⟨new, hrun, hsent⟩ :=
      ih (s := s.afterPoll p (pollAnswers (busy ++ [last]) ++ rest)) hr hj hp hbusy hready rfl
    refine ⟨snapshotEvents s.cfg p ++ new, ?_, by simp [hsent, List.replicate_succ]⟩
    rw [List.length_append, ← List.append_assoc]
    exact (stepN_add hturn _).trans hrun

end Sys2Proof.Machine
end

section
/-! PROOFS. The obligations of the write family (42_write.md R170 to R179). -/

open Sys2Proof.Machine

namespace Sys2Proof.Claims

/-! ## Starting a command -/

/-- An addressed operation that may run starts with the frame of its wire address. -/
theorem exec_eq_start {i : Instr} {s : State} {c : Bool} {w : Option Wire} {opc : Byte}
    {fc : FreqClass} {j : Job} {frame : List Byte}
    (hx : exec i s = gate c s (needInit s (withWire w fun x => start s (frameOA opc x) fc j)))
    (hm : missingCapability s.cfg i = !c) (hn : needsValid i = true) (h : MayRun s i)
    (hw : w.map (frameOA opc) = some frame) : exec i s = start s frame fc j ∧ frame ≠ [] := by
  obtain ⟨x, hwire, rfl⟩ := Option.map_eq_some_iff.1 hw
  exact ⟨exec_eq_of_mayRun hx hm hn h hwire, nofun⟩

/-! ## Buffer writes -/

/-- A buffer write behind its entry checks: one transaction, and its `SEL(0)` delivers `Done(n)`. -/
theorem bufferWrite_completes {i : Instr} {s : State} {c : Bool} {w : Option Wire} {opc : Byte}
    {data : List Byte}
    (hx : exec i s = gate c s (needInit s (withWire w fun x => bufferWrite s opc x data)))
    (hm : missingCapability s.cfg i = !c) (hn : needsValid i = true)
    (hlen : data.length < 2 ^ 32) (h : MayRun s i) (frame : List Byte)
    (hw : w.map (frameOA opc) = some frame) :
    ∃ new u, Completes i s new (.done (BitVec.ofNat 32 data.length)) [] u ∧
      sentOf new = transaction s.cfg.fcCmd (frame ++ data) ∧ SameDevice s u ∧ u.rs = s.rs ∧
      u.sr1 = s.sr1 ∧ u.sr2 = s.sr2 := by
  obtain ⟨hstart, hne⟩ := exec_eq_start hx hm hn h hw
  have ⟨_, _, hr⟩ := h
  obtain ⟨new, l, hrun, hsent, -⟩ :=
    run_sends (fc := s.cfg.fcCmd) (j := ⟨0, .payload data, false,
      .deliver (.done (BitVec.ofNat 32 data.length))⟩) hne hr ⟨rfl, .inr ⟨rfl, hlen⟩⟩
  have hend := completes_of_deliver hstart rfl hrun rfl rfl rfl rfl rfl hr ⟨rfl, rfl, rfl⟩
  exact ⟨_, _, hend, by simp [hsent, transaction], ⟨rfl, rfl, rfl, rfl, rfl, rfl⟩, rfl, rfl, rfl⟩

/-- Settles O23: both buffer writes are `bufferWrite` with their opcode, the second behind a
capability gate. -/
theorem bufferWritesComplete : Obligations.BufferWritesComplete := by
  intro s a data
  simp only [bufferWriteForms, List.forall_mem_cons, List.not_mem_nil, false_imp_iff, implies_true,
    and_true]
  refine ⟨fun hwf => ?bufwr1, fun hwf => ?bufwr2⟩
  case bufwr1 => exact bufferWrite_completes (c := true) rfl rfl rfl (payload_lt hwf)
  case bufwr2 => exact bufferWrite_completes rfl rfl rfl (payload_lt hwf)

/-! ## Write-class operations -/

/-- The request is accepted and starts `PAYLOAD` with this frame and payload, `rs` to become BUSY,
and `FINISH_WRITE(o)` behind it (42_write.md R170). -/
def StartsWrite (i : Instr) (s : State) (frame data : List Byte) (o : OpOutcome) : Prop :=
  frame ≠ [] ∧ ∃ j : Job, exec i s = start s frame s.cfg.fcCmd j ∧ j.Sends data ∧
    j.marksBusy = true ∧ j.finish = .poll o

/-- A page program behind its entry checks (42_write.md R173 to R175). -/
theorem startsWrite_of_program {i : Instr} {s : State} {c : Bool} {w : Option Wire} {opc : Byte}
    {data : List Byte}
    (hx : exec i s = gate c s (needInit s (withWire w fun x => programThrough s opc x data)))
    (hm : missingCapability s.cfg i = !c) (hn : needsValid i = true) (hd : i.payload = data)
    (hwf : i.wellFormed = true) (h : MayRun s i) (frame : List Byte)
    (hw : w.map (frameOA opc) = some frame) :
    StartsWrite i s frame data (.done (BitVec.ofNat 32 data.length)) := by
  obtain ⟨hstart, hne⟩ := exec_eq_start hx hm hn h hw
  exact ⟨hne, _, hstart, ⟨rfl, .inr ⟨rfl, hd ▸ payload_lt hwf⟩⟩, rfl, rfl⟩

/-- A writeback or an addressed erase behind its entry checks (42_write.md R176 to R179, 44_erase.md
R201 to R203). -/
theorem startsWrite_of_command {i : Instr} {s : State} {c : Bool} {w : Option Wire} {opc : Byte}
    (hx : exec i s = gate c s (needInit s (withWire w fun x => command s opc x)))
    (hm : missingCapability s.cfg i = !c) (hn : needsValid i = true)
    (h : MayRun s i) (frame : List Byte) (hw : w.map (frameOA opc) = some frame) :
    StartsWrite i s frame [] .ok := by
  obtain ⟨hstart, hne⟩ := exec_eq_start hx hm hn h hw
  exact ⟨hne, _, hstart, ⟨rfl, .inl ⟨rfl, rfl⟩⟩, rfl, rfl⟩

/-- ERASE.CHIP sends its magic sequence without a check (44_erase.md R204). -/
theorem startsWrite_eraseChip (s : State) :
    StartsWrite .eraseChip s (frameM4 s.cfg.opc.magicEraseChip) [] .ok :=
  ⟨nofun, _, rfl, ⟨rfl, .inl ⟨rfl, rfl⟩⟩, rfl, rfl⟩

/-- Each of the eleven is a page program, a command alone or ERASE.CHIP, four of them behind a
capability gate. -/
theorem startsWrite_of_mem (s : State) (a : Addr) (data : List Byte) :
    ∀ f ∈ writeClassForms s a data, f.op.wellFormed = true → MayRun s f.op →
      ∀ frame, f.frame = some frame → StartsWrite f.op s frame f.payload f.success := by
  simp only [writeClassForms, List.forall_mem_cons, List.not_mem_nil, false_imp_iff, implies_true,
    and_true]
  refine ⟨?wtbE1, ?wtbE2, ?wtbN, ?wrbackE1, ?wrbackE2, ?wrbackN1, ?wrbackN2, ?page, ?block,
    ?sector, ?chip⟩
  case wtbE2 => exact startsWrite_of_program rfl rfl rfl rfl
  case wtbE1 | wtbN => exact startsWrite_of_program (c := true) rfl rfl rfl rfl
  case wrbackE2 | wrbackN2 => exact fun _ => startsWrite_of_command rfl rfl rfl
  case wrbackE1 | wrbackN1 | page | block | sector =>
    exact fun _ => startsWrite_of_command (c := true) rfl rfl rfl
  case chip =>
    rintro - - frame ⟨⟩
    exact startsWrite_eraseChip s

/-- Settles O25: a started write runs to its first poll whatever the device answers. -/
theorem writeClassCommandTransaction : Obligations.WriteClassCommandTransaction := by
  intro s a data f hmem hwf hmay frame hframe
  obtain ⟨hne, j, hstart, hsends, hbusy, hfin⟩ :=
    startsWrite_of_mem s a data f hmem hwf hmay frame hframe
  have ⟨_, _, hr⟩ := hmay
  obtain ⟨new, l, hrun, hsent, -⟩ := run_toPoll hne hr hsends hbusy hfin
  exact ⟨_, new, _, hstart, hrun, rfl, hsent, rfl, rfl, rfl, rfl, ⟨rfl, rfl, rfl, rfl, rfl, rfl⟩,
    rfl, rfl, rfl⟩

/-- Settles O24: a started write runs to its first poll, having used the answers to its command
transaction, and the poll loop uses those of the snapshots. -/
theorem writeClassCompletes : Obligations.WriteClassCompletes := by
  intro s a data f hmem hwf hmay frame hframe first busy last rest hlen hbusy hready hlink
  obtain ⟨hne, j, hstart, hsends, hmarks, hfin⟩ :=
    startsWrite_of_mem s a data f hmem hwf hmay frame hframe
  have ⟨_, _, hr⟩ := hmay
  obtain ⟨cmd, l, hcmd, hsent, hans⟩ := run_toPoll hne hr hsends hmarks hfin
  rw [List.append_assoc] at hlink
  obtain ⟨-, rfl⟩ := answersOf_of_openLink hcmd hr rfl hlink (hans.trans hlen.symm)
  obtain ⟨polls, hpolls, hsent'⟩ := run_pollLoop hfin busy last rest
    (s := s.beforePolls s.cfg.fcCmd j cmd (.openLink (pollAnswers (busy ++ [last]) ++ rest)))
    hr rfl rfl hbusy hready rfl
  have hrun := (stepN_add hcmd polls.length).trans hpolls
  rw [← List.length_append] at hrun
  exact ⟨cmd ++ polls, _, ⟨_, hstart, rfl, hrun, List.append_assoc .., rfl, rfl, rfl, rfl, rfl, rfl,
    rfl⟩, by simpa [hsent] using hsent', ⟨rfl, rfl, rfl, rfl, rfl, rfl⟩, rfl, rfl, rfl, rfl⟩

end Sys2Proof.Claims
end

section
/-! PROOFS. The obligation of copy and compare (43_copy_compare.md R190 to R194). -/

open Sys2Proof.Machine

namespace Sys2Proof.Claims

/-- `ISSUE` behind its entry checks: `SEL(1)`, the four bytes of the frame, and a `SEL(0)` that
delivers `Ok` without a poll and leaves `rs` BUSY (43_copy_compare.md R190). -/
theorem issue_completes {i : Instr} {s : State} {c : Bool} {w : Option Wire} {opc : Byte}
    (hx : exec i s = gate c s (needInit s (withWire w fun x => issue s opc x)))
    (hm : missingCapability s.cfg i = !c) (hn : needsValid i = true) (h : MayRun s i)
    (frame : List Byte) (hw : w.map (frameOA opc) = some frame) :
    ∃ new u, Completes i s new .ok [] u ∧ new.length = 6 ∧
      sentOf new = transaction s.cfg.fcCmd frame ∧ SameDevice s u ∧ u.rs = .busy ∧
      u.sr1 = s.sr1 ∧ u.sr2 = s.sr2 := by
  obtain ⟨x, hwire, rfl⟩ := Option.map_eq_some_iff.1 hw
  have hstart : exec i s = issue s opc x := exec_eq_of_mayRun hx hm hn h hwire
  have ⟨_, _, hr⟩ := h
  obtain ⟨new, l, hrun, hsent, -⟩ := run_sends (f := frameOA opc x) (fc := s.cfg.fcCmd)
    (j := ⟨0, .none, true, .deliver .ok⟩) nofun hr ⟨rfl, .inl ⟨rfl, rfl⟩⟩
  have hend := completes_of_deliver hstart rfl hrun rfl rfl rfl rfl rfl hr ⟨rfl, rfl, rfl⟩
  have htrans : sentOf (new ++ [Event.sel false]) = transaction s.cfg.fcCmd (frameOA opc x) := by
    simp [hsent, transaction]
  have hlen : (new ++ [Event.sel false]).length = 6 := by
    rw [← length_sentOf, htrans]
    rfl
  exact ⟨_, _, hend, hlen, htrans, ⟨rfl, rfl, rfl, rfl, rfl, rfl⟩, rfl, rfl, rfl⟩

/-- Settles O26: each of the four is `issue` with its opcode, those of buffer 2 behind a capability
gate. -/
theorem copyCompareIssue : Obligations.CopyCompareIssue := by
  intro s a
  simp only [issueForms, List.forall_mem_cons, List.not_mem_nil, false_imp_iff, implies_true,
    and_true]
  refine ⟨?copy1, ?copy2, ?cmp1, ?cmp2⟩
  case copy1 | cmp1 => exact issue_completes (c := true) rfl rfl rfl
  case copy2 | cmp2 => exact issue_completes rfl rfl rfl

end Sys2Proof.Claims
end

section
/-! PROOFS. The density decode as a table lookup (45_ident_init.md R211). -/

namespace Sys2Proof.Machine

/-- The decode reads the table at the low five bits of the byte; 0 and an index beyond the table are
invalid (45_ident_init.md R211). -/
theorem densityDecode_eq_some {c : Config} {d0 d : Byte} :
    densityDecode c d0 = some d ↔ c.densityTable[d0.toNat % 32]? = some d ∧ d ≠ 0 := by
  have hindex : (d0.extractLsb' 0 5).toNat = d0.toNat % 32 := by simp
  rw [densityDecode, hindex]
  cases c.densityTable[d0.toNat % 32]? with
  | none => simp
  | some e =>
    by_cases he : e = 0
    · simpa [he] using fun h : 0 = d => h.symm
    · simp only [he, if_false, Option.some.injEq]
      exact ⟨fun h => ⟨h, h ▸ he⟩, And.left⟩

/-- An entry 0, or none, decodes to no density. -/
theorem densityDecode_eq_none {c : Config} {d0 : Byte} :
    densityDecode c d0 = none ↔ ∀ d, c.densityTable[d0.toNat % 32]? = some d → d = 0 := by
  simp [Option.eq_none_iff_forall_ne_some, densityDecode_eq_some]

/-- The entries of the density table that are the same in every admissible configuration
(00_scope.md R8). -/
theorem admissible_densityTable {c : Config} (hc : c.admissible = true) :
    (∀ i ≤ 2, c.densityTable[i]? = some 0) ∧ c.densityTable[6]? = some 16 := by
  simp only [Config.admissible, Bool.and_eq_true, beq_iff_eq] at hc
  obtain ⟨⟨⟨-, hzeros⟩, hsix⟩, -⟩ := hc
  refine ⟨fun i hi => ?_, hsix⟩
  rw [← List.getElem?_take_of_lt (Nat.lt_succ_of_le hi), hzeros]
  interval_cases i <;> rfl

end Sys2Proof.Machine
end

section
/-! PROOFS. The obligation of the density decode (45_ident_init.md R211). -/

open Sys2Proof.Machine

namespace Sys2Proof.Claims

/-- Settles O21: the decode is a lookup of a nonzero entry, and an admissible configuration fixes
the entries 0 to 2 and 6. -/
theorem densityDecode : Obligations.DensityDecode := by
  intro c d0 hc
  obtain ⟨hzero, hsix⟩ := admissible_densityTable hc
  refine ⟨fun hi => ?zero, fun hi => ?six, fun hi => ?beyond, fun d hd => ?decoded,
    fun d hd h0 => densityDecode_eq_some.2 ⟨hd, h0⟩⟩
  case zero =>
    exact densityDecode_eq_none.2 fun d hd => (Option.some.inj ((hzero _ hi).symm.trans hd)).symm
  case six => exact densityDecode_eq_some.2 ⟨by rw [hi, hsix], by decide⟩
  case beyond => exact densityDecode_eq_none.2 fun d hd => by simp [hi] at hd
  case decoded => exact ⟨(densityDecode_eq_some.1 hd).1, densityDecode_decodable hd⟩

end Sys2Proof.Claims
end

section
/-! PROOFS. The identification transaction and the status transaction, as runs to the `SEL(0)` that
closes them (40_primitives.md R127; 45_ident_init.md R210, R212). -/

open Sys2Proof.Claims

namespace Sys2Proof.Machine

/-! ## How a run to SEL_OFF closes -/

/-- A run to SEL_OFF goes on with the closing of the command transaction. -/
theorem stepN_selOff {s u : State} {j : Job} {k : Nat} (h : stepN k s = .next u)
    (hr : u.resetReq = false) (hj : u.job = some j) (hp : u.phase = .selOff) :
    stepN (k + 1) s = stepSelOff j u := by
  have hstep : step u = stepSelOff j u := by
    rw [step_job hr (by simp [hp]) hj]
    simp only [runJob, hp]
  rw [stepN_add h 1, ← hstep]
  cases hs : step u with
  | next t => exact stepN_succ hs 0
  | fault r | refused r => simp [stepN, hs]

/-! ## The identification transaction -/

/-- The request that the identification transaction runs, ended by `f` (45_ident_init.md R210). -/
def identificationJob (f : Finish) : Job :=
  { dummy := 0, data := .ident, marksBusy := false, finish := f }

/-- What the identification transaction sends (45_ident_init.md R210). -/
def identificationSent (c : Config) : List Sent :=
  transaction c.fcCmd [c.opc.jedec, c.fill, c.fill, c.fill]

/-- The state behind the `SEL(0)` of the identification transaction with these events, the three
bytes captured and nothing stored yet. -/
def State.identified (s : State) (f : Finish) (new : List Event) (m d0 d1 : Byte) (l : Link) :
    State :=
  { s.load [] s.cfg.fcCmd (identificationJob f) with
    phase := .selOff, cnt := 0, sel := false, out := [m, d0, d1], trace := s.trace ++ new,
    link := l }

/-- The identification transaction captures three bytes, which `close` then stores. -/
theorem run_identification {s : State} {f : Finish} {close : State → Result}
    (hr : s.resetReq = false)
    (hclose : ∀ u, stepSelOff (identificationJob f) u = close (u.select false)) :
    ∃ new x m d0 d1 l,
      stepN new.length (s.load (frameO s.cfg.opc.jedec) s.cfg.fcCmd (identificationJob f)) =
        close (s.identified f new m d0 d1 l) ∧
      sentOf new = identificationSent s.cfg ∧ answersOf new = [x, m, d0, d1] := by
  obtain ⟨new, l, hrun, hsent, hlen⟩ := run_read (f := frameO s.cfg.opc.jedec)
    (s := s.load (frameO s.cfg.opc.jedec) s.cfg.fcCmd (identificationJob f)) nofun hr rfl rfl rfl
    rfl rfl (.inr rfl)
  obtain ⟨x, m, d0, d1, hans⟩ := List.length_eq_four.1 hlen
  rw [hans] at hrun
  refine ⟨new ++ [.sel false], x, m, d0, d1, l.onSel false, ?_, ?_, by simp [hans]⟩
  · rw [List.length_append, State.identified, ← List.append_assoc]
    exact (stepN_selOff hrun hr rfl rfl).trans (hclose _)
  · simp [hsent, identificationSent, transaction, identificationJob, DataPhase.count, frameO,
      List.replicate]

/-! ## The status transaction -/

/-- The state behind the `SEL(0)` of a status transaction that captured these bytes, `rs` not yet
set. -/
def State.snapped (s : State) (f : Finish) (p : Poll) (l : Link) : State :=
  { s.load [] s.cfg.fcCmd (snapshotJob f) with
    phase := .selOff, cnt := 0, sel := false, sr1 := p.2.1, sr2 := p.2.2,
    trace := s.trace ++ snapshotEvents s.cfg p, link := l }

/-- A run to the start of a status transaction goes on through it: two bytes are captured, of which
`close` then makes use. -/
theorem run_statusTransaction {s t : State} {k : Nat} {f : Finish} {close : State → Result}
    (h : stepN k s = .next (t.load (frameO t.cfg.opc.status) t.cfg.fcCmd (snapshotJob f)))
    (hr : t.resetReq = false)
    (hclose : ∀ u, stepSelOff (snapshotJob f) u = close (u.select false)) :
    ∃ p l, stepN (k + 5) s = close (t.snapped f p l) := by
  obtain ⟨x, a, b, l, hrun⟩ := run_snapshot (o := t.cfg.opc.status)
    (s := t.load (frameO t.cfg.opc.status) t.cfg.fcCmd (snapshotJob f)) hr rfl rfl rfl rfl rfl rfl
    rfl
  refine ⟨(x, a, b), l.onSel false, ?_⟩
  rw [stepN_add h, stepN_selOff hrun hr rfl rfl, hclose]
  simp [State.snapped, State.select, snapshotEvents, State.load]

/-! ## What closes them -/

/-- IDENTIFY with a valid density stores it with the ID bytes and delivers `Ok`. -/
theorem closeIdentify_valid {s : State} {m d0 d1 d : Byte} (ho : s.out = [m, d0, d1])
    (hd : densityDecode s.cfg d0 = some d) :
    closeIdentify s = .next ({ s.storeId m d0 d1 with dens := d }.conclude .ok []) := by
  simp only [closeIdentify, ho, hd]

/-- IDENTIFY with an invalid density stores the ID bytes, clears `VALID` and raises. -/
theorem closeIdentify_invalid {s : State} {m d0 d1 : Byte} (ho : s.out = [m, d0, d1])
    (hd : densityDecode s.cfg d0 = none) :
    closeIdentify s =
      .next ({ s.storeId m d0 d1 with valid := false }.conclude .invalidDensity []) := by
  simp only [closeIdentify, ho, hd]

/-- INIT with a valid density stores it with the ID bytes and goes on to its status transaction. -/
theorem closeInitIdent_valid {s : State} {m d0 d1 d : Byte} (ho : s.out = [m, d0, d1])
    (hd : densityDecode s.cfg d0 = some d) :
    closeInitIdent s = .next ({ s.storeId m d0 d1 with dens := d }.load
      (frameO s.cfg.opc.status) s.cfg.fcCmd (snapshotJob .initStatus)) := by
  simp only [closeInitIdent, ho, hd]

/-- INIT with an invalid density ends as IDENTIFY does. -/
theorem closeInitIdent_invalid {s : State} {m d0 d1 : Byte} (ho : s.out = [m, d0, d1])
    (hd : densityDecode s.cfg d0 = none) :
    closeInitIdent s =
      .next ({ s.storeId m d0 d1 with valid := false }.conclude .invalidDensity []) := by
  simp only [closeInitIdent, ho, hd]

end Sys2Proof.Machine
end

section
/-! PROOFS. The obligations of identification and initialisation (45_ident_init.md R210, R212). -/

open Sys2Proof.Machine

namespace Sys2Proof.Claims

/-- Settles O30: the identification transaction captures the three bytes, and its `SEL(0)` stores
them and decodes the density. -/
theorem identifyCompletes : Obligations.IdentifyCompletes := by
  intro s hr
  obtain ⟨new, x, m, d0, d1, l, hrun, hsent, hans⟩ :=
    run_identification (s := s) (f := .identify) (close := closeIdentify) hr fun _ => rfl
  cases hd : Machine.densityDecode s.cfg d0 with
  | some d =>
    have hend := hrun.trans (closeIdentify_valid rfl hd)
    refine ⟨new, { (s.identified .identify new m d0 d1 l).storeId m d0 d1 with
      dens := d }.conclude .ok [], x, m, d0, d1, hans, hsent, rfl, rfl, rfl, rfl, rfl, rfl, rfl, ?_⟩
    rw [hd]
    exact ⟨⟨_, rfl, rfl, hend, rfl, rfl, rfl, rfl, rfl, rfl, rfl, rfl⟩, rfl, rfl⟩
  | none =>
    have hend := hrun.trans (closeIdentify_invalid rfl hd)
    refine ⟨new, { (s.identified .identify new m d0 d1 l).storeId m d0 d1 with
      valid := false }.conclude .invalidDensity [], x, m, d0, d1, hans, hsent, rfl, rfl, rfl, rfl,
      rfl, rfl, rfl, ?_⟩
    rw [hd]
    exact ⟨⟨_, rfl, rfl, hend, rfl, rfl, rfl, rfl, rfl, rfl, rfl, rfl⟩, rfl, rfl⟩

/-- Settles O31: with a valid density the status transaction follows that of the identification, and
its `SEL(0)` establishes the Device; with an invalid one the identification is all. -/
theorem initCompletes : Obligations.InitCompletes := by
  intro s hr
  obtain ⟨new, x, m, d0, d1, l, hrun, hsent, hans⟩ := run_identification
    (s := { s with valid := false }) (f := .initIdent) (close := closeInitIdent) hr fun _ => rfl
  cases hd : Machine.densityDecode s.cfg d0 with
  | some d =>
    have hident := hrun.trans (closeInitIdent_valid rfl hd)
    obtain ⟨p, l', hend⟩ :=
      run_statusTransaction (close := closeInitStatus) hident hr fun _ => rfl
    have hlen : (new ++ snapshotEvents s.cfg p).length = new.length + 5 := List.length_append
    rw [← hlen] at hend
    refine ⟨new ++ snapshotEvents s.cfg p, { (State.snapped
      { (s.identified .initIdent new m d0 d1 l).storeId m d0 d1 with dens := d }
      .initStatus p l').observe.refreshPsm with valid := true }.conclude .ok [], x, m, d0, d1,
      [p.1, p.2.1, p.2.2], by simp [hans, snapshotEvents], rfl, rfl, rfl, ?_⟩
    rw [hd]
    exact ⟨_, _, _, rfl, ⟨_, rfl, rfl, hend, List.append_assoc .., rfl, rfl, rfl, rfl, rfl, rfl,
      rfl⟩, (sentOf_append ..).trans (congrArg (· ++ snapshotSent s.cfg) hsent), rfl, rfl, rfl, rfl,
      rfl, rfl⟩
  | none =>
    have hend := hrun.trans (closeInitIdent_invalid rfl hd)
    refine ⟨new, { (s.identified .initIdent new m d0 d1 l).storeId m d0 d1 with
      valid := false }.conclude .invalidDensity [], x, m, d0, d1, [], hans, rfl, rfl, rfl, ?_⟩
    rw [hd]
    exact ⟨rfl, ⟨_, rfl, rfl, hend, rfl, rfl, rfl, rfl, rfl, rfl, rfl, rfl⟩, hsent, rfl, rfl, rfl,
      rfl, rfl, rfl⟩

end Sys2Proof.Claims
end

section
/-! PROOFS. The obligations of the status queries, and of the two operations without a bus event
(46_status.md R220 to R224; 45_ident_init.md R213; 43_copy_compare.md R195). -/

open Sys2Proof.Machine

namespace Sys2Proof.Claims

/-- The query `i` of the bit `q` is one snapshot, which sets `rs` and ends in the bit, and leaves
the Device registers. -/
theorem query_completes {i : Instr} {s : State} {q : StatusBit}
    (hx : exec i s = snapshot s (.query q)) (hr : s.resetReq = false) :
    ∃ p u, Completes i s (snapshotEvents s.cfg p) (.bit (queryBit s.cfg q p.2.1 p.2.2)) [] u ∧
      u.rs = readinessOf s.cfg p.2.1 ∧ u.sr1 = p.2.1 ∧ u.sr2 = p.2.2 ∧ SameDevice s u := by
  obtain ⟨p, l, hend⟩ :=
    run_statusTransaction (f := .query q) (close := closeQuery q) (stepN_zero _) hr fun _ => rfl
  exact ⟨p, _, ⟨_, hx, rfl, hend, rfl, rfl, rfl, rfl, rfl, rfl, rfl, rfl⟩, rfl, rfl, rfl,
    ⟨rfl, rfl, rfl, rfl, rfl, rfl⟩⟩

/-- Settles O27: each of the three is a status query, of its own bit of the snapshot. -/
theorem statusQueriesComplete : Obligations.StatusQueriesComplete := by
  intro s hr q hq
  have hx : exec q.1 s = snapshot s (.query q.2) := by
    obtain rfl | rfl | rfl : q = (.ready, .rdy) ∨ q = (.cmpres, .comp) ∨ q = (.epe, .epe) := by
      simpa using hq
    all_goals rfl
  obtain ⟨p, u, hend, hframe⟩ := query_completes hx hr
  exact ⟨snapshotEvents s.cfg p, u, p.1, p.2.1, p.2.2, rfl, sentOf_snapshotEvents .., hend, hframe⟩

/-- Settles O28: the status transaction captures the two bytes, and its `SEL(0)` stores and delivers
the page-size bit. -/
theorem psmRefreshCompletes : Obligations.PsmRefreshCompletes := by
  intro s hr
  obtain ⟨p, l, hend⟩ :=
    run_statusTransaction (f := .refresh) (close := closeRefresh) (stepN_zero _) hr fun _ => rfl
  exact ⟨snapshotEvents s.cfg p, (s.snapped .refresh p l).observe.refreshPsm.conclude
    (.bit (pageSizeBit p.2.1)) [], p.1, p.2.1, p.2.2, rfl, sentOf_snapshotEvents ..,
    ⟨_, rfl, rfl, hend, rfl, rfl, rfl, rfl, rfl, rfl, rfl, rfl⟩, rfl, rfl, rfl, rfl, rfl, rfl, rfl,
    rfl, rfl⟩

/-- Settles O29: PSM.CACHED passes its guard at `VALID = 1` and reports the cached bit, and DEINIT
has no guard. -/
theorem noBusOperationsComplete : Obligations.NoBusOperationsComplete :=
  fun _ => ⟨fun hvalid => needInit_valid hvalid _, rfl⟩

end Sys2Proof.Claims
end

section
/-! PROOFS. What a step delivers: the entry checks of an operation, how an operation ends, and every
outcome with the step it belongs to (60_exceptions.md R240 to R249). -/

open Sys2Proof.Claims

namespace Sys2Proof.Machine

/-! ## The entry checks -/

/-- An operation whose capability is missing needs `VALID` too. -/
theorem needsValid_of_missingCapability {c : Config} {i : Instr}
    (h : missingCapability c i = true) : needsValid i = true := by
  cases i
  case cmpres | eraseChip | identify | init | deinit | ready | psmRefresh | epe => cases h
  all_goals rfl

/-- An operation that needs `VALID` checks its capability first, then `VALID` (60_exceptions.md
R247). -/
theorem exec_entryChecks {i : Instr} (s : State) (hn : needsValid i = true) :
    ∃ c k, exec i s = gate c s (needInit s k) ∧ missingCapability s.cfg i = !c := by
  cases i
  case readFc3 | bufrdLow2 | bufrdHigh2 | bufwr2 | wtbE2 | wrbackE2 | wrbackN2 | copy2 | cmp2 =>
    exact ⟨_, _, rfl, rfl⟩
  case cmpres | eraseChip | identify | init | deinit | ready | psmRefresh | epe => cases hn
  all_goals exact ⟨true, _, rfl, rfl⟩

theorem exec_unsupported {i : Instr} {s : State} (hm : missingCapability s.cfg i = true) :
    exec i s = .next (s.report .unsupported) := by
  obtain ⟨c, k, hx, hc⟩ := exec_entryChecks s (needsValid_of_missingCapability hm)
  obtain rfl : c = false := by simpa [hm] using hc
  rw [hx, gate_false]

theorem exec_notInitialised {i : Instr} {s : State} (hm : missingCapability s.cfg i = false)
    (hn : needsValid i = true) (hv : s.valid = false) :
    exec i s = .next (s.report .notInitialised) := by
  obtain ⟨c, k, hx, hc⟩ := exec_entryChecks s hn
  obtain rfl : c = true := by simpa [hm] using hc
  rw [hx, gate_true, needInit_invalid hv]

/-! ## A delivery ends the operation -/

/-- The operation goes on in `t` with nothing delivered, or has delivered one outcome and ended. -/
def GoesOnOrEnds (s t : State) : Prop :=
  (t.delivered = s.delivered ∧ t.phase ≠ .idle) ∨
    ((∃ d, t.delivered = s.delivered ++ [d]) ∧ t.phase = .idle ∧ t.sel = false ∧ t.job = none)

theorem Closes.goesOnOrEnds {j : Job} {s t : State} (h : Closes j s t) : GoesOnOrEnds s t := by
  cases h
  case poll | initIdent => exact .inl ⟨rfl, by simp⟩
  case deliver | query | refresh | invalid | identify | initStatus =>
    exact .inr ⟨⟨_, rfl⟩, rfl, rfl, rfl⟩

/-- Of the rows of the micro-phase table those that deliver, and no other, go back to `IDLE`
(40_primitives.md R133). -/
theorem Micro.goesOnOrEnds {j : Job} {s t : State} (h : Micro j s t) : GoesOnOrEnds s t := by
  cases h
  case selOff h => exact h.goesOnOrEnds
  case psReady => exact .inr ⟨⟨_, rfl⟩, rfl, rfl, rfl⟩
  case hdr =>
    refine .inl ⟨rfl, ?_⟩
    dsimp only
    split
    · exact j.afterHeader_ne_idle
    · simp
  case dmyLast => exact .inl ⟨rfl, j.data.firstPhase_ne_idle⟩
  case din => exact .inl ⟨by simp, by dsimp only; split <;> simp⟩
  case dout => exact .inl ⟨rfl, by dsimp only; split <;> simp⟩
  case selOn | dmy | psOn | psOpc | psB1 | psB2 | psBusy => exact .inl ⟨rfl, by simp⟩

/-- Accepting a request in `IDLE` starts the operation, or delivers an outcome and stays there. -/
theorem Accepts.goesOnOrEnds {i : Instr} {s t : State} (h : Accepts i s t) (hp : s.phase = .idle)
    (hsel : s.sel = false) (hjob : s.job = none) : GoesOnOrEnds s t := by
  cases h
  case load | init => exact .inl ⟨rfl, by simp⟩
  case unsupported | notInitialised | cached | deinit => exact .inr ⟨⟨_, rfl⟩, hp, hsel, hjob⟩

/-! ## Runs that deliver nothing -/

/-- A step delivers nothing or one outcome more. -/
theorem step_delivered_prefix {s t : State} (h : step s = .next t) :
    s.delivered <+: t.delivered := by
  rcases step_next h with ⟨-, rfl⟩ | ⟨-, -, r, rest, i, -, -, hx⟩ | ⟨-, -, j, -, hm⟩
  · exact List.prefix_rfl
  · rcases (exec_accepts hx).delivered with h | ⟨d, h⟩
    · exact h ▸ List.prefix_rfl
    · exact h ▸ List.prefix_append _ _
  · rcases (runJob_next hm).delivered with h | ⟨d, h⟩
    · exact h ▸ List.prefix_rfl
    · exact h ▸ List.prefix_append _ _

theorem stepN_delivered_prefix {k : Nat} {s u : State} (h : stepN k s = .next u) :
    s.delivered <+: u.delivered := by
  induction k generalizing s with
  | zero => cases h; exact List.prefix_rfl
  | succ k ih =>
    cases hs : step s with
    | next t => exact (step_delivered_prefix hs).trans (ih (stepN_succ hs k ▸ h))
    | fault r | refused r => simp [stepN, hs] at h

/-- Throughout a run of an operation in progress that has delivered nothing at its end, the
operation has neither ended nor delivered. -/
theorem not_idle_throughout {k : Nat} {s u : State} (h : stepN k s = .next u)
    (hr : s.resetReq = false) (hp : s.phase ≠ .idle) (hu : u.delivered = s.delivered) :
    ∀ m ≤ k, ∃ t, stepN m s = .next t ∧ t.phase ≠ .idle ∧ t.delivered = s.delivered := by
  induction k generalizing s with
  | zero =>
    intro m hm
    obtain rfl := Nat.le_zero.1 hm
    exact ⟨s, rfl, hp, rfl⟩
  | succ k ih =>
    intro m hm
    obtain _ | m := m
    · exact ⟨s, rfl, hp, rfl⟩
    cases hs : step s with
    | fault r | refused r => simp [stepN, hs] at h
    | next t =>
      rw [stepN_succ hs] at h ⊢
      have hle := (stepN_delivered_prefix h).length_le
      have ht : t.delivered = s.delivered :=
        ((step_delivered_prefix hs).eq_of_length_le (hu ▸ hle)).symm
      rcases step_next hs with ⟨hx, -⟩ | ⟨-, hx, -⟩ | ⟨-, -, j, -, hmicro⟩
      · simp [hr] at hx
      · exact absurd hx hp
      · have hmicro := runJob_next hmicro
        obtain ⟨-, -, hreset⟩ := hmicro.frame
        have htp : t.phase ≠ .idle := by
          rcases hmicro.goesOnOrEnds with ⟨-, htp⟩ | ⟨⟨d, hd⟩, -⟩
          · exact htp
          · simp [ht] at hd
        rw [← ht]
        exact ih h (hreset.trans hr) htp (hu.trans ht.symm) m (Nat.le_of_succ_le_succ hm)

/-- Any number of busy snapshots: the poll loop stands where it stood, with nothing delivered. -/
theorem run_busyPolls {j : Job} {o : OpOutcome} (hf : j.finish = .poll o) (busy : List Poll)
    (rest : List Byte) {s : State} (hr : s.resetReq = false) (hj : s.job = some j)
    (hp : s.phase = .psOn) (hbusy : ∀ p ∈ busy, readyBit s.cfg p.2.1 = false)
    (hl : s.link = .openLink (pollAnswers busy ++ rest)) :
    ∃ u, stepN (5 * busy.length) s = .next u ∧ u.phase = .psOn ∧ u.job = some j ∧
      u.delivered = s.delivered := by
  induction busy generalizing s with
  | nil => exact ⟨s, rfl, hp, hj, rfl⟩
  | cons p busy ih =>
    obtain ⟨hbusy₁, hbusy⟩ := List.forall_mem_cons.1 hbusy
    have hturn := run_listedTurn hr hj hp hf (by simpa using hl)
    rw [if_neg (by simp [hbusy₁])] at hturn
    obtain ⟨u, hrun, hu⟩ := ih (s := s.afterPoll p (pollAnswers busy ++ rest)) hr hj hp hbusy rfl
    refine ⟨u, ?_, hu⟩
    rw [List.length_cons, Nat.mul_succ, Nat.add_comm]
    exact (stepN_add hturn _).trans hrun

/-! ## Every outcome and its step -/

/-- The step from `s` to `t` may deliver this outcome: each error with the step it belongs to, and
the outcomes that are no error. -/
inductive Delivers (s t : State) : OpOutcome → Prop
  | unsupported (r : List Byte) (rest : List (List Byte)) (i : Instr)
      (hq : s.requests = r :: rest) (hd : decode r = .ok i)
      (hm : missingCapability s.cfg i = true) : Delivers s t .unsupported
  | notInitialised (r : List Byte) (rest : List (List Byte)) (i : Instr)
      (hq : s.requests = r :: rest) (hd : decode r = .ok i)
      (hm : missingCapability s.cfg i = false) (hn : needsValid i = true)
      (hv : s.valid = false) : Delivers s t .notInitialised
  | invalidDensity (j : Job) (hj : s.job = some j)
      (hf : j.finish = .identify ∨ j.finish = .initIdent)
      (hd : densityDecode s.cfg t.did0 = none) : Delivers s t .invalidDensity
  | fail (hp : s.phase = .psOff) (hr : s.resetReq = false)
      (hready : readyBit s.cfg s.sr1 = true) (herror : errorBit s.cfg s.sr2 = true)
      (hrs : t.rs = .ready) (hidle : t.phase = .idle) (hdev : SameDevice s t) : Delivers s t .fail
  | ok : Delivers s t .ok
  | done (n : Len) : Delivers s t (.done n)
  | bit (b : Bool) : Delivers s t (.bit b)

/-- The success outcome of an operation that delivers or polls is no error. -/
theorem Delivers.of_job_ok {j : Job} {o : OpOutcome} (s t : State) (hok : j.ok = true)
    (hf : j.finish = .deliver o ∨ j.finish = .poll o) : Delivers s t o := by
  rcases Job.ok_outcome hok hf with rfl | ⟨n, rfl⟩
  · exact .ok
  · exact .done n

/-- The outcome of the one delivery. -/
theorem delivery_outcome {s t : State} {d : Delivery} {o : OpOutcome} {bytes : List Byte}
    (h : t.delivered = s.delivered ++ [d]) (ht : t.delivered = s.delivered ++ [⟨o, bytes⟩]) :
    d.outcome = o := by
  obtain rfl : d = ⟨o, bytes⟩ := by simpa [h] using ht
  rfl

theorem Delivers.of_delivery {s t : State} {d : Delivery} {o : OpOutcome} {bytes : List Byte}
    (h : t.delivered = s.delivered ++ [d]) (ht : t.delivered = s.delivered ++ [⟨o, bytes⟩])
    (ho : Delivers s t o) : Delivers s t d.outcome := by
  rwa [delivery_outcome h ht]

/-- Nothing was delivered, against what is assumed. -/
theorem delivery_absurd {s t : State} {d : Delivery} {P : Prop}
    (h : t.delivered = s.delivered ++ [d]) (ht : t.delivered = s.delivered) : P := by
  simp [ht] at h

theorem Accepts.delivers {s t : State} {r : List Byte} {rest : List (List Byte)} {i : Instr}
    {d : Delivery} (hq : s.requests = r :: rest) (hdec : decode r = .ok i)
    (h : Accepts i { s with requests := rest } t) (hd : t.delivered = s.delivered ++ [d]) :
    Delivers s t d.outcome := by
  cases h
  case unsupported hm => exact .of_delivery hd rfl (.unsupported r rest i hq hdec hm)
  case notInitialised hm hn hv =>
    exact .of_delivery hd rfl (.notInitialised r rest i hq hdec hm hn hv)
  case cached => exact .of_delivery hd rfl (.bit _)
  case deinit => exact .of_delivery hd rfl .ok
  case load | init => exact delivery_absurd hd rfl

theorem Closes.delivers {j : Job} {s t : State} {d : Delivery} (h : Closes j s t)
    (hj : s.job = some j) (hok : j.ok = true) (hd : t.delivered = s.delivered ++ [d]) :
    Delivers s t d.outcome := by
  cases h
  case deliver o hf => exact .of_delivery hd rfl (.of_job_ok _ _ hok (.inl hf))
  case query | refresh => exact .of_delivery hd rfl (.bit _)
  case invalid hf m d0 d1 ho hnone =>
    exact .of_delivery hd rfl (.invalidDensity j hj hf hnone)
  case identify | initStatus => exact .of_delivery hd rfl .ok
  case poll | initIdent => exact delivery_absurd hd rfl

theorem Micro.delivers {j : Job} {s t : State} {d : Delivery} (h : Micro j s t)
    (hr : s.resetReq = false) (hj : s.job = some j) (hok : j.ok = true)
    (hd : t.delivered = s.delivered ++ [d]) : Delivers s t d.outcome := by
  cases h
  case selOff h => exact h.delivers hj hok hd
  case psReady hp o hf hready =>
    have ho := delivery_outcome hd rfl
    cases herror : errorBit s.cfg s.sr2
    · rw [ho, herror]
      exact .of_job_ok _ _ hok (.inr hf)
    · rw [ho, herror]
      exact .fail hp hr hready herror (by simp [readinessOf, hready]) rfl
        ⟨rfl, rfl, rfl, rfl, rfl, rfl⟩
  case din => exact delivery_absurd hd (by simp)
  case selOn | hdr | dmyLast | dmy | dout | psOn | psOpc | psB1 | psB2 | psBusy =>
    exact delivery_absurd hd rfl

/-- Every outcome a step delivers belongs to that step. -/
theorem MachineInv.delivers {s t : State} {d : Delivery} (h : MachineInv s)
    (ht : step s = .next t) (hd : t.delivered = s.delivered ++ [d]) : Delivers s t d.outcome := by
  rcases step_next ht with ⟨-, rfl⟩ | ⟨-, -, r, rest, i, hq, hdec, hx⟩ | ⟨hr, -, j, hj, hm⟩
  · exact delivery_absurd hd rfl
  · exact (exec_accepts hx).delivers hq hdec hd
  · exact (runJob_next hm).delivers hr hj (h.job_ok hj) hd

/-! ## The identification transaction, whatever follows it -/

/-- IDENTIFY and INIT run the identification transaction and store its three bytes; with an invalid
density that is their end. -/
theorem identification_stores {i : Instr} {s : State} {v : Bool} {f : Finish}
    {close : State → Result} (hr : s.resetReq = false)
    (hx : exec i s = .next ({ s with valid := v }.load (frameO s.cfg.opc.jedec) s.cfg.fcCmd
      (identificationJob f)))
    (hclose : ∀ u, stepSelOff (identificationJob f) u = close (u.select false))
    (hvalid : ∀ {u : State} {m d0 d1 d : Byte}, u.out = [m, d0, d1] →
      densityDecode u.cfg d0 = some d → ∃ w, close u = .next w ∧ w.trace = u.trace ∧ w.mfr = m ∧
        w.did0 = d0 ∧ w.did1 = d1)
    (hinvalid : ∀ {u : State} {m d0 d1 : Byte}, u.out = [m, d0, d1] →
      densityDecode u.cfg d0 = none → close u =
        .next ({ u.storeId m d0 d1 with valid := false }.conclude .invalidDensity [])) :
    ∃ t new u x m d0 d1, exec i s = .next t ∧ stepN 6 t = .next u ∧ u.trace = s.trace ++ new ∧
      answersOf new = [x, m, d0, d1] ∧ sentOf new = identificationSent s.cfg ∧
      u.mfr = m ∧ u.did0 = d0 ∧ u.did1 = d1 ∧
      (densityDecode s.cfg d0 = none →
        Completes i s new .invalidDensity [] u ∧ u.dens = s.dens ∧ u.valid = false ∧
          u.psm = s.psm ∧ u.rs = s.rs ∧ u.sr1 = s.sr1 ∧ u.sr2 = s.sr2) := by
  obtain ⟨new, x, m, d0, d1, l, hrun, hsent, hans⟩ :=
    run_identification (s := { s with valid := v }) hr hclose
  have hlen : new.length = 6 := by
    rw [← length_sentOf, hsent]
    rfl
  cases hd : densityDecode s.cfg d0 with
  | some d =>
    obtain ⟨u, hu, htrace, hids⟩ := hvalid (u := State.identified { s with valid := v } f new m d0
      d1 l) rfl hd
    obtain ⟨hm, h0, h1⟩ := hids
    exact ⟨_, new, u, x, m, d0, d1, hx, hlen ▸ hrun.trans hu, htrace, hans, hsent, hm, h0, h1,
      fun hnone => by simp [hd] at hnone⟩
  | none =>
    have hend := hrun.trans (hinvalid rfl hd)
    exact ⟨_, new, _, x, m, d0, d1, hx, hlen ▸ hend, rfl, hans, hsent, rfl, rfl, rfl,
      fun _ => ⟨⟨_, hx, rfl, hend, rfl, rfl, rfl, rfl, rfl, rfl, rfl, rfl⟩, rfl, rfl, rfl, rfl, rfl,
        rfl⟩⟩

end Sys2Proof.Machine
end

section
/-! PROOFS. The obligations of the outcomes (60_exceptions.md R241 to R249). -/

open Sys2Proof.Machine

namespace Sys2Proof.Claims

/-- Settles O16: a missing capability stops the operation at its gate, no other step delivers
`Unsupported`, and the configuration decides which operations are gated. -/
theorem unsupportedExactly : Obligations.UnsupportedExactly := by
  refine ⟨fun i s hm => exec_unsupported hm, fun s t d hinv ht hd ho => ?_, fun s t i ht => ?_⟩
  · have h := hinv.delivers ht hd
    rw [ho] at h
    cases h with
    | unsupported r rest i hq hdec hm => exact ⟨r, rest, i, hq, hdec, hm⟩
  · obtain ⟨hcfg, -⟩ := configurationIsConstant s t ht
    rw [hcfg]

/-- Settles O17: behind its gate the operation stops at `NEED_INIT`, and no other step delivers
`NotInitialised`. -/
theorem notInitialisedExactly : Obligations.NotInitialisedExactly := by
  refine ⟨fun i s hm hn hv => exec_notInitialised hm hn hv, fun s t d hinv ht hd ho => ?_⟩
  have h := hinv.delivers ht hd
  rw [ho] at h
  cases h with
  | notInitialised r rest i hq hdec hm hn hv => exact ⟨r, rest, i, hq, hdec, hm, hn, hv⟩

/-- Settles O18: both operations store what the identification transaction answers and end there
when its density is invalid, and no other step delivers `InvalidDensity`. -/
theorem invalidDensityExactly : Obligations.InvalidDensityExactly := by
  refine ⟨fun s i hi hr => ?_, fun s t d hinv ht hd ho => ?_⟩
  · rcases hi with rfl | rfl
    · exact identification_stores (f := .identify) (v := s.valid) (close := closeIdentify) hr rfl
        (fun _ => rfl) (fun ho hd => ⟨_, closeIdentify_valid ho hd, rfl, rfl, rfl, rfl⟩)
        closeIdentify_invalid
    · exact identification_stores (f := .initIdent) (v := false) (close := closeInitIdent) hr rfl
        (fun _ => rfl) (fun ho hd => ⟨_, closeInitIdent_valid ho hd, rfl, rfl, rfl, rfl⟩)
        closeInitIdent_invalid
  · have h := hinv.delivers ht hd
    rw [ho] at h
    cases h with
    | invalidDensity j hj hf hnone => exact ⟨hnone, j, hj, hf⟩

/-- Settles O19: `Fail` belongs to the row PS_OFF that reads a ready snapshot with the error bit,
and that row delivers nothing else then. -/
theorem failExactly : Obligations.FailExactly := by
  intro s t d hinv ht hd
  have hfail (ho : d.outcome = .fail) : (s.phase = .psOff ∧ s.resetReq = false ∧
      readyBit s.cfg s.sr1 = true ∧ errorBit s.cfg s.sr2 = true) ∧
      t.rs = .ready ∧ t.phase = .idle ∧ SameDevice s t := by
    have h := hinv.delivers ht hd
    rw [ho] at h
    cases h with
    | fail hp hr hready herror hrs hidle hdev =>
      exact ⟨⟨hp, hr, hready, herror⟩, hrs, hidle, hdev⟩
  refine ⟨⟨fun ho => (hfail ho).1, fun ⟨hp, hr, hready, herror⟩ => ?_⟩, fun ho => (hfail ho).2⟩
  obtain ⟨j, hj⟩ := hinv.job_some (by simp [hp])
  obtain ⟨o, hf⟩ := hinv.psOff_finish hj hp
  rw [step_psOff hr hj hp hf, if_pos hready, if_pos herror] at ht
  cases ht
  exact delivery_outcome hd rfl

/-- Settles O33: the run through the busy snapshots ends before the next one with nothing delivered,
so no state on the way had ended. -/
theorem busyDeviceKeepsTheLoop : Obligations.BusyDeviceKeepsTheLoop := by
  intro s j o busy rest hp hj hf hr hbusy hl k hk
  obtain ⟨u, hrun, hup, huj, hud⟩ := run_busyPolls hf busy rest hr hj hp hbusy hl
  obtain ⟨t, ht, hidle, hdel⟩ := not_idle_throughout hrun hr (by simp [hp]) hud k hk
  refine ⟨t, ht, hidle, hdel, fun hlast => ?_⟩
  obtain rfl : u = t := by simpa [← hlast, ht] using hrun.symm
  exact ⟨hup, huj⟩

/-- Settles O40: an accepted request and each row of the micro-phase table go on with nothing
delivered, or deliver one outcome and end. -/
theorem outcomeEndsTheOperation : Obligations.OutcomeEndsTheOperation := by
  intro s t hinv ht hr
  have h : GoesOnOrEnds s t := by
    rcases step_next ht with ⟨hx, -⟩ | ⟨-, hp, r, rest, i, -, -, hx⟩ | ⟨-, -, j, -, hm⟩
    · simp [hr] at hx
    · obtain ⟨hjob, hsel⟩ := hinv.idle hp
      exact (exec_accepts hx).goesOnOrEnds hp hsel hjob
    · exact (runJob_next hm).goesOnOrEnds
  rcases h with ⟨hdel, hidle⟩ | ⟨hdel, hend⟩
  · exact ⟨fun hne => absurd hdel hne, fun hp => absurd hp hidle⟩
  · exact ⟨fun _ => hend, fun _ => hdel⟩

end Sys2Proof.Claims
end

section
/-! PROOFS. Device E clocked byte by byte: what it answers and where it stands after any number of
bytes, for the transactions that are no command (60_exceptions.md R257 to R259). -/

open Sys2Proof.Claims

namespace Sys2Proof.Machine

/-- The one-byte opcodes of an admissible configuration are distinct (00_scope.md R8). -/
theorem admissible_opcodes {c : Config} (hc : c.admissible = true) : c.opc.all.Nodup := by
  simp only [Config.admissible, Bool.and_eq_true, decide_eq_true_eq] at hc
  exact hc.2

theorem jedec_ne_status {c : Config} (hc : c.admissible = true) : c.opc.jedec ≠ c.opc.status := by
  have hn := devCommands_nodup (admissible_opcodes hc)
  simp only [List.nodup_cons, List.mem_cons, not_or] at hn
  exact Ne.symm hn.1.1

/-- A byte that is no key is not found. -/
theorem lookup_eq_none {β : Type} {l : List (Byte × β)} {o : Byte} (h : o ∉ l.map Prod.fst) :
    l.lookup o = none := by
  rw [List.lookup_eq_none_iff]
  intro p hp
  have hne : o ≠ p.1 := fun he => h (he ▸ List.mem_map_of_mem hp)
  simpa using hne

/-! ## E in a transaction -/

/-- E with another transaction in progress. -/
def Device.inXact (e : Device) (x : Xact) : Device := { e with xact := x }

@[simp] theorem Device.inXact_xact (e : Device) (x : Xact) : (e.inXact x).xact = x := rfl

@[simp] theorem Device.inXact_busy (e : Device) (x : Xact) : (e.inXact x).busy = e.busy := rfl

theorem Device.eq_inXact {e : Device} {x : Xact} (h : e.xact = x) : e = e.inXact x := by
  subst h
  rfl

/-! ## Any number of bytes -/

section
variable (c : Config) (free : Byte) (e : Device)

@[simp] theorem feed_nil : feed c free e [] = e := rfl

@[simp] theorem feed_cons (b : Byte) (bs : List Byte) :
    feed c free e (b :: bs) = feed c free (e.onXfer c b free).2 bs := rfl

@[simp] theorem feed_append (as bs : List Byte) :
    feed c free e (as ++ bs) = feed c free (feed c free e as) bs := List.foldl_append

@[simp] theorem replies_nil : replies c free e [] = [] := rfl

@[simp] theorem replies_cons (b : Byte) (bs : List Byte) :
    replies c free e (b :: bs) =
      (e.onXfer c b free).1 :: replies c free (e.onXfer c b free).2 bs := rfl

@[simp] theorem length_replies (bytes : List Byte) :
    (replies c free e bytes).length = bytes.length := by
  induction bytes generalizing e with
  | nil => rfl
  | cons b bytes ih => simp [ih]

/-- A byte's answer is that of E behind the bytes before it. -/
theorem replies_getElem? {bytes : List Byte} {k : Nat} {b : Byte} (h : bytes[k]? = some b) :
    (replies c free e bytes)[k]? =
      some ((feed c free e (bytes.take k)).onXfer c b free).1 := by
  induction bytes generalizing e k with
  | nil => simp at h
  | cons a bytes ih =>
    cases k with
    | zero =>
      obtain rfl : a = b := by simpa using h
      rfl
    | succ k => exact ih _ (by simpa using h)

theorem replies_eq_map {bytes : List Byte} {answer : Nat → Byte}
    (h : ∀ k < bytes.length, ∀ b, ((feed c free e (bytes.take k)).onXfer c b free).1 = answer k) :
    replies c free e bytes = (List.range bytes.length).map answer := by
  refine List.ext_getElem (by simp) fun k hk _ => Option.some.inj ?_
  have hlt : k < bytes.length := by simpa using hk
  rw [← List.getElem?_eq_getElem hk, replies_getElem? c free e (List.getElem?_eq_getElem hlt),
    h k hlt]
  simp

/-! ## The opcode byte -/

/-- The opcode byte is answered with `FF`. -/
theorem replies_opcode (o : Byte) (rest : List Byte) :
    replies c free (e.onSel true) (o :: rest) = 0xFF :: replies c free (e.onOpcode c o) rest := rfl

theorem feed_opcode (o : Byte) (rest : List Byte) :
    feed c free (e.onSel true) (o :: rest) = feed c free (e.onOpcode c o) rest := rfl

theorem exchange_opcode (o : Byte) (rest : List Byte) :
    exchange c free e (o :: rest) = (feed c free (e.onOpcode c o) rest).onSel false := rfl

theorem Device.onOpcode_status : e.onOpcode c c.opc.status = e.inXact (.status false) := if_pos rfl

theorem Device.onOpcode_jedec (hne : c.opc.jedec ≠ c.opc.status) (hb : e.busy = 0) :
    e.onOpcode c c.opc.jedec = e.inXact (.jedec 0) := by
  simp [Device.onOpcode, hne, hb, Device.inXact]

/-- A byte that is no opcode E knows and opens no magic sequence. -/
theorem Device.onOpcode_unknown {o : Byte} (hs : o ≠ c.opc.status) (hj : o ≠ c.opc.jedec)
    (hc : o ∉ (devCommands c).map Prod.fst) (hm : o ≠ magicByte c.opc.magicEraseChip 3) :
    e.onOpcode c o = e.inXact .unknown := by
  simp [Device.onOpcode, hs, hj, lookup_eq_none hc, hm, Device.inXact]

/-- While E is busy it ignores what an opcode starts, but for the status read. -/
theorem Device.onOpcode_busy (hb : 0 < e.busy) {o : Byte} (hs : o ≠ c.opc.status) :
    e.onOpcode c o = e.inXact .unknown ∨ ∃ k, e.onOpcode c o = e.inXact (.ignored k) := by
  simp only [Device.onOpcode, hs, if_false, Device.begin_busy hb]
  split
  · exact .inr ⟨0, rfl⟩
  split
  · exact .inr ⟨3, rfl⟩
  split
  · exact .inr ⟨3, rfl⟩
  · exact .inl rfl

/-! ## The status read and the identification -/

theorem Device.onXfer_status (second : Bool) (v : Byte) :
    (e.inXact (.status second)).onXfer c v free =
      (if second then e.status2 else e.status1, e.inXact (.status !second)) := by
  cases second <;> rfl

/-- The status bytes come in turn. -/
theorem feed_status (bytes : List Byte) : feed c free (e.inXact (.status false)) bytes =
    e.inXact (.status (decide (bytes.length % 2 = 1))) := by
  induction bytes using List.reverseRecOn with
  | nil => rfl
  | append_singleton bytes b ih =>
    have hnext : (!decide (bytes.length % 2 = 1)) = decide ((bytes.length + 1) % 2 = 1) := by
      rw [← decide_not]
      exact decide_eq_decide.2 (by omega)
    simp [ih, Device.onXfer_status, hnext]

theorem Device.onXfer_jedec {k : Nat} (hk : k ≤ 3) (v : Byte) :
    (e.inXact (.jedec k)).onXfer c v free =
      (if k = 0 then e.mfr else if k = 1 then e.id0 else if k = 2 then e.id1 else 0x00,
        e.inXact (.jedec (min (k + 1) 3))) := by
  interval_cases k <;> rfl

/-- Three bytes of identification, then E stays behind them. -/
theorem feed_jedec (bytes : List Byte) : feed c free (e.inXact (.jedec 0)) bytes =
    e.inXact (.jedec (min bytes.length 3)) := by
  induction bytes using List.reverseRecOn with
  | nil => rfl
  | append_singleton bytes b ih =>
    have hnext : min (min bytes.length 3 + 1) 3 = min (bytes.length + 1) 3 := by omega
    simp [ih, Device.onXfer_jedec c free e (Nat.min_le_right _ 3), hnext]

/-! ## Bytes that are ignored -/

theorem Device.onXfer_unknown (v : Byte) :
    (e.inXact .unknown).onXfer c v free = (0xFF, e.inXact .unknown) := rfl

theorem feed_unknown (bytes : List Byte) :
    feed c free (e.inXact .unknown) bytes = e.inXact .unknown := by
  induction bytes with
  | nil => rfl
  | cons b bytes ih => rw [feed_cons, Device.onXfer_unknown, ih]

theorem replies_unknown (bytes : List Byte) :
    replies c free (e.inXact .unknown) bytes = List.replicate bytes.length 0xFF := by
  induction bytes with
  | nil => rfl
  | cons b bytes ih =>
    rw [replies_cons, Device.onXfer_unknown, ih, List.length_cons, List.replicate_succ]

theorem feed_ignored (k : Nat) (bytes : List Byte) :
    ∃ m, feed c free (e.inXact (.ignored k)) bytes = e.inXact (.ignored m) := by
  induction bytes generalizing k with
  | nil => exact ⟨k, rfl⟩
  | cons b bytes ih =>
    cases k with
    | zero => exact ih 0
    | succ k => exact ih k

/-- The three bytes behind an opcode that is neither the status read nor the identification are
answered with `FF`, whatever the opcode started. -/
theorem replies_three {x : Xact} {o : Byte}
    (hx : (∃ cmd, x = .addr cmd []) ∨ x = .magic [o] ∨ x = .ignored 3 ∨ x = .unknown)
    (b2 b1 b0 : Byte) : replies c free (e.inXact x) [b2, b1, b0] = [0xFF, 0xFF, 0xFF] := by
  rcases hx with ⟨cmd, rfl⟩ | rfl | rfl | rfl <;> rfl

end

end Sys2Proof.Machine
end

section
/-! PROOFS. The obligations of E's status bytes and of its transactions that are no command
(60_exceptions.md R257 to R259). -/

open Sys2Proof.Machine

namespace Sys2Proof.Claims

/-- Settles O49: each bit of the two concatenations is a bit of one of their parts. -/
theorem deviceStatusBytes : Obligations.DeviceStatusBytes := by
  intro e
  refine ⟨?_, ?_, ?code, ?_, ?_, ?_, ?_, ?constant⟩
  case code =>
    refine BitVec.eq_of_getLsbD_eq fun i hi => ?_
    have hnot : ¬ 2 + i < 1 := by omega
    simp only [Device.status1, BitVec.getLsbD_append, BitVec.getLsbD_extractLsb',
      BitVec.getLsbD_ofBool]
    simp [hi, hnot]
  case constant =>
    unfold Device.status2
    generalize (e.busy == 0) = ready
    generalize e.epe = error
    revert ready error
    decide
  all_goals
    simp only [Device.status1, Device.status2, BitVec.getLsbD_append, BitVec.getLsbD_ofBool]
    simp

/-- Settles O58: each byte flips which of the two status bytes is next, and the `SEL(0)` lowers the
busy count. -/
theorem deviceStatusRead : Obligations.DeviceStatusRead := by
  intro c e free rest
  rw [replies_opcode, exchange_opcode, Device.onOpcode_status, feed_status]
  refine ⟨congrArg _ (replies_eq_map _ _ _ fun k hk b => ?_), ?_⟩
  · rw [feed_status, Device.onXfer_status, List.length_take_of_le hk.le]
    rcases Nat.mod_two_eq_zero_or_one k with h | h <;> simp [h]
  · have hbusy : e.busy - 1 = if 0 < e.busy then e.busy - 1 else 0 := by split <;> omega
    rw [← hbusy]
    rfl

/-- Settles O59: the bytes clocked count up to the third, and nothing else of E changes. -/
theorem deviceIdentification : Obligations.DeviceIdentification := by
  intro c e free rest hc hb
  rw [replies_opcode, exchange_opcode, Device.onOpcode_jedec c e (jedec_ne_status hc) hb,
    feed_jedec]
  refine ⟨congrArg _ (replies_eq_map _ _ _ fun k hk b => ?_), rfl⟩
  rw [feed_jedec, Device.onXfer_jedec _ _ _ (Nat.min_le_right _ 3), List.length_take_of_le hk.le]
  obtain h | h | h | h : k = 0 ∨ k = 1 ∨ k = 2 ∨ 3 ≤ k := by omega
  · simp [h]
  · simp [h]
  · simp [h]
  · have : ¬ k = 0 ∧ ¬ k = 1 ∧ ¬ k = 2 := by omega
    simp [h, this]

/-- Settles O54: what the opcode byte starts decides, and of an opcode E does not know or ignores it
is known that no further byte changes anything. -/
theorem deviceTransactionDecode : Obligations.DeviceTransactionDecode := by
  intro c e free o
  refine ⟨rfl, fun hs hj b2 b1 b0 => ?_, fun hs hj hc hm rest => ?_, fun hb hs rest => ?_⟩
  · obtain ⟨x, hx, hcases⟩ := Device.onOpcode_other e c hs hj
    have hx : e.onOpcode c o = e.inXact x := hx
    rw [replies_opcode, hx, replies_three _ _ _ hcases]
    rfl
  · rw [replies_opcode, exchange_opcode, Device.onOpcode_unknown c e hs hj hc hm, replies_unknown,
      feed_unknown]
    exact ⟨rfl, rfl⟩
  · rw [exchange_opcode]
    rcases Device.onOpcode_busy c e hb hs with h | ⟨k, h⟩
    · rw [h, feed_unknown]
      rfl
    · obtain ⟨m, hm⟩ := feed_ignored c free e k rest
      rw [h, hm]
      rfl

end Sys2Proof.Claims
end

section
/-! PROOFS. The work of a command on E's memory, buffers and flags, and one byte behind its frame
(60_exceptions.md R260 to R266). -/

open Sys2Proof.Claims

namespace Sys2Proof.Machine

/-! ## Positions in main memory -/

/-- A position of page `q` lies in the `k` pages from `p` on exactly when `q` is one of them. -/
theorem page_mem_iff {n i : Nat} (hi : i < n) (p k q : Nat) :
    p * n ≤ q * n + i ∧ q * n + i < p * n + k * n ↔ p ≤ q ∧ q < p + k := by
  have hpos : 0 < n := by omega
  have hpage : (q * n + i) / n = q := by
    rw [Nat.mul_comm, Nat.mul_add_div hpos, Nat.div_eq_of_lt hi, Nat.add_zero]
  rw [← Nat.le_div_iff_mul_le hpos, ← Nat.add_mul, ← Nat.div_lt_iff_lt_mul hpos, hpage]

/-- The pages of a group of `g`, from the group's first page on. -/
theorem group_mem_iff {g : Nat} (hg : 0 < g) (p q : Nat) :
    p / g * g ≤ q ∧ q < p / g * g + g ↔ q / g = p / g := by
  rw [Nat.div_eq_iff hg]
  omega

/-! ## Main memory after the work of a command -/

section
variable {e : Device} (p : Nat)

/-- A block store into page `p`. -/
theorem Device.read_writePage (h : e.ok) (f : Nat → Byte) {is : List Nat}
    (his : ∀ k ∈ is, k < e.pageBytes) (q : Nat) {i : Nat} (hi : i < e.pageBytes) :
    Memory.read (Memory.writeEach e.main (p * e.pageBytes) f is) (q * e.pageBytes + i) =
      if q = p ∧ i ∈ is then f i else e.mainByte q i := by
  rw [Memory.read_writeEach h.1]
  by_cases hq : q = p
  · simp [hq, Device.mainByte]
  · have hnot : ¬ (p * e.pageBytes ≤ q * e.pageBytes + i ∧
        q * e.pageBytes + i - p * e.pageBytes ∈ is) := by
      rintro ⟨hle, hmem⟩
      have hlt := his _ hmem
      have := (page_mem_iff hi p 1 q).1 ⟨hle, by omega⟩
      omega
    rw [if_neg hnot, if_neg fun h => hq h.1, Device.mainByte]

theorem Device.mainByte_program (h : e.ok) (b : Buf) (q : Nat) {i : Nat} (hi : i < e.pageBytes) :
    (e.program p b).mainByte q i = if q = p then e.bufByte b i else e.mainByte q i := by
  refine (Device.read_writePage p h _ (fun k hk => List.mem_range.1 hk) q hi).trans ?_
  simp [hi]

theorem Device.mainByte_programAnd (h : e.ok) (b : Buf) {is : List Nat}
    (his : ∀ k ∈ is, k < e.pageBytes) (q : Nat) {i : Nat} (hi : i < e.pageBytes) :
    (e.programAnd p b is).mainByte q i =
      if q = p ∧ i ∈ is then e.mainByte q i &&& e.bufByte b i else e.mainByte q i := by
  refine (Device.read_writePage p h _ his q hi).trans ?_
  split
  · next hq => rw [hq.1]
  · rfl

theorem Device.mainByte_erasePages (k q : Nat) {i : Nat} (hi : i < e.pageBytes) :
    (e.erasePages p k).mainByte q i = if p ≤ q ∧ q < p + k then 0xFF else e.mainByte q i :=
  (Memory.read_erase _ _ _ _).trans (if_congr (page_mem_iff hi p k q) rfl rfl)

end

/-- The byte at every position of every page after the work of a command. -/
theorem Device.mainByte_work {e : Device} (h : e.ok) (cmd : DevCmd) (p : Nat) {written : List Nat}
    (hw : ∀ k ∈ written, k < e.pageBytes) (q : Nat) {i : Nat} (hi : i < e.pageBytes) :
    (e.work cmd p written).mainByte q i = mainAfter e cmd p written q i := by
  cases cmd
  case arrayRead | pageRead | bufRead | bufWrite | cmp => rfl
  case copy b => simp [Device.work, Device.mainByte, Device.copyPage, mainAfter, Device.pageBytes]
  case wtbE b | wrbackE b => exact Device.mainByte_program p h b q hi
  case wtbN => exact Device.mainByte_programAnd p h .one hw q hi
  case wrbackN b =>
    refine (Device.mainByte_programAnd p h b (fun k hk => List.mem_range.1 hk) q hi).trans ?_
    simp [mainAfter, hi]
  case erasePage =>
    refine (Device.mainByte_erasePages p 1 q hi).trans (if_congr ?_ rfl rfl)
    omega
  case eraseBlock =>
    refine (Device.mainByte_erasePages _ 8 q hi).trans (if_congr ?_ rfl rfl)
    omega
  case eraseSector =>
    refine (Device.mainByte_erasePages _ _ q hi).trans (if_congr ?_ rfl rfl)
    rw [Nat.shiftLeft_eq, Nat.shiftRight_eq_div_pow]
    exact group_mem_iff (Nat.two_pow_pos _) p q
  case eraseChip =>
    refine (Device.mainByte_erasePages 0 _ q hi).trans (if_congr ?_ rfl rfl)
    omega

/-- Only a program or an erase writes main memory. -/
theorem Device.work_main {e : Device} {cmd : DevCmd} (h : storesMain cmd = false) (p : Nat)
    (written : List Nat) : (e.work cmd p written).main = e.main := by
  cases cmd
  case copy b => exact Device.setBuf_main _ _ _
  case arrayRead | pageRead | bufRead | bufWrite | cmp => rfl
  case wtbE | wtbN | wrbackE | wrbackN | erasePage | eraseBlock | eraseSector | eraseChip => cases h

/-! ## Buffers and flags after the work of a command -/

/-- Only a copy writes a buffer. -/
theorem Device.work_buf (e : Device) (cmd : DevCmd) (p : Nat) (written : List Nat) (b : Buf) :
    (e.work cmd p written).buf b =
      if cmd = .copy b then Memory.writeEach (e.buf b) 0 (e.mainByte p) e.positions
      else e.buf b := by
  cases cmd
  case copy x =>
    refine (Device.buf_setBuf e x b _).trans ?_
    by_cases hb : b = x
    · simp [hb]
    · simp [hb, Ne.symm hb]
  all_goals cases b <;> rfl

theorem Device.bufByte_work {e : Device} (h : e.ok) (cmd : DevCmd) (p : Nat) (written : List Nat)
    (b : Buf) (i : Nat) : (e.work cmd p written).bufByte b i =
      if cmd = .copy b ∧ i < e.pageBytes then e.mainByte p i else e.bufByte b i := by
  rw [Device.bufByte, Device.work_buf]
  by_cases hc : cmd = .copy b
  · rw [if_pos hc, Memory.read_writeEach (Device.buf_ok h b)]
    simp [hc, Device.positions, Device.bufByte]
  · simp [hc, Device.bufByte]

/-- The compare of page `p` with a buffer finds a byte that differs. -/
theorem Device.differs_iff (e : Device) (p : Nat) (b : Buf) :
    e.differs p b = true ↔ ∃ k < e.pageBytes, e.mainByte p k ≠ e.bufByte b k := by
  simp [Device.differs, Device.positions]

theorem Device.work_comp {e : Device} {cmd : DevCmd} (h : ∀ x, cmd ≠ .cmp x) (p : Nat)
    (written : List Nat) : (e.work cmd p written).comp = e.comp := by
  cases cmd
  case cmp x => exact absurd rfl (h x)
  case copy => exact Device.setBuf_comp _ _ _
  all_goals rfl

theorem Device.work_epe (e : Device) (cmd : DevCmd) (p : Nat) (written : List Nat) :
    (e.work cmd p written).epe = if startsCycle cmd then false else e.epe := by
  cases cmd
  case copy => exact Device.setBuf_epe _ _ _
  all_goals rfl

/-! ## One byte behind the frame -/

@[simp] theorem Device.inXact_buf (e : Device) (x : Xact) (b : Buf) :
    (e.inXact x).buf b = e.buf b := by cases b <;> rfl

@[simp] theorem Device.inXact_bufByte (e : Device) (x : Xact) (b : Buf) (i : Nat) :
    (e.inXact x).bufByte b i = e.bufByte b i := by rw [bufByte, inXact_buf, bufByte]

@[simp] theorem Device.inXact_mainByte (e : Device) (x : Xact) (q i : Nat) :
    (e.inXact x).mainByte q i = e.mainByte q i := rfl

@[simp] theorem Device.inXact_pageBytes (e : Device) (x : Xact) :
    (e.inXact x).pageBytes = e.pageBytes := rfl

@[simp] theorem Device.setBuf_mainByte (e : Device) (b : Buf) (m : Memory) (q i : Nat) :
    (e.setBuf b m).mainByte q i = e.mainByte q i := by cases b <;> rfl

@[simp] theorem Device.setBuf_pageBytes (e : Device) (b : Buf) (m : Memory) :
    (e.setBuf b m).pageBytes = e.pageBytes := by cases b <;> rfl

/-- A byte stored into buffer `x` is read there, and every other byte of both buffers as before. -/
theorem Device.bufByte_setBuf_write {e : Device} (h : e.ok) (x b : Buf) (o i : Nat) (v : Byte) :
    (e.setBuf x (Memory.write (e.buf x) o v)).bufByte b i =
      if x = b ∧ i = o then v else e.bufByte b i := by
  rw [Device.bufByte, Device.buf_setBuf]
  by_cases hb : b = x
  · simp [hb, Memory.read_write (Device.buf_ok h x), Device.bufByte]
  · simp [hb, Ne.symm hb, Device.bufByte]

/-- The byte a read command answers at a position: of the buffer, or of the page. -/
def Device.readByte (e : Device) (cmd : DevCmd) (p o : Nat) : Byte :=
  match cmd with
  | .bufRead _ b => e.bufByte b o
  | _ => e.mainByte p o

/-- The page and position behind a byte that was read. -/
def Device.nextRead (e : Device) (cmd : DevCmd) (p o : Nat) : Nat × Nat :=
  match cmd with
  | .arrayRead _ => e.nextArray p o
  | _ => (p, e.nextWrap o)

section
variable {e : Device} {cmd : DevCmd} {p o skip : Nat} {w : List Nat}

theorem Device.onXfer_body (h : e.xact = .body cmd p o skip w) (c : Config) (v free : Byte) :
    e.onXfer c v free = e.onBody cmd p o skip w v free := by
  rw [Device.onXfer, h]

theorem Device.onBody_dummy (h : isRead cmd = true) (hs : 0 < skip) (v free : Byte) :
    e.onBody cmd p o skip w v free = (0xFF, e.inXact (.body cmd p o (skip - 1) w)) := by
  cases cmd
  case arrayRead | pageRead | bufRead => exact if_pos hs
  all_goals cases h

theorem Device.onBody_read (h : isRead cmd = true) (v free : Byte) :
    e.onBody cmd p o 0 w v free = (e.readByte cmd p o,
      e.inXact (.body cmd (e.nextRead cmd p o).1 (e.nextRead cmd p o).2 0 w)) := by
  cases cmd
  case arrayRead | pageRead | bufRead => rfl
  all_goals cases h

theorem Device.onBody_payload {b : Buf} (h : payloadBuf cmd = some b) (v free : Byte) :
    e.onBody cmd p o skip w v free = (free, (e.setBuf b (Memory.write (e.buf b) o v)).inXact
      (.body cmd p (e.nextWrap o) 0 (w ++ [o]))) := by
  cases cmd
  case bufWrite | wtbE | wtbN =>
    cases h
    rfl
  all_goals cases h

theorem Device.onBody_undefined (hr : isRead cmd = false) (hp : payloadBuf cmd = none)
    (v free : Byte) : e.onBody cmd p o skip w v free = (free, e) := by
  cases cmd
  case arrayRead | pageRead | bufRead => cases hr
  case bufWrite | wtbE | wtbN => cases hp
  all_goals rfl

/-- A byte behind the frame of a command without a payload changes E's transaction only. -/
theorem Device.onBody_no_payload (hp : payloadBuf cmd = none) (v free : Byte) :
    ∃ x, (e.onBody cmd p o skip w v free).2 = e.inXact x := by
  cases hr : isRead cmd
  · exact ⟨e.xact, congrArg Prod.snd (Device.onBody_undefined hr hp v free)⟩
  · obtain rfl | hs := Nat.eq_zero_or_pos skip
    · exact ⟨_, congrArg Prod.snd (Device.onBody_read hr v free)⟩
    · exact ⟨_, congrArg Prod.snd (Device.onBody_dummy hr hs v free)⟩

/-- A byte behind the frame is stored, if at all, at one position of the payload's buffer. -/
theorem Device.onBody_bytes (h : e.ok) (v free : Byte) :
    (∀ q i, (e.onBody cmd p o skip w v free).2.mainByte q i = e.mainByte q i) ∧
    ∀ b i, (e.onBody cmd p o skip w v free).2.bufByte b i =
      if payloadBuf cmd = some b ∧ i = o then v else e.bufByte b i := by
  cases hp : payloadBuf cmd with
  | none =>
    obtain ⟨x, hx⟩ := Device.onBody_no_payload (e := e) (p := p) (o := o) (skip := skip) (w := w)
      hp v free
    simp [hx]
  | some x =>
    rw [Device.onBody_payload hp]
    exact ⟨fun q i => by simp, fun b i => by simpa using Device.bufByte_setBuf_write h x b o i v⟩

end

/-- The next position inside a page or buffer. -/
theorem Device.nextWrap_eq {e : Device} {o : Nat} (ho : o < e.pageBytes) :
    e.nextWrap o = if o + 1 = e.pageBytes then 0 else o + 1 := by
  unfold Device.nextWrap
  split
  · next h => rw [h, Nat.mod_self]
  · exact Nat.mod_eq_of_lt (by omega)

section
variable {e : Device} {cmd : DevCmd} {p o : Nat}

/-- Before the last byte of the page or buffer every read goes on to the next byte. -/
theorem Device.nextRead_inside (ho : o + 1 < e.pageBytes) : e.nextRead cmd p o = (p, o + 1) := by
  have hwrap : e.nextWrap o = o + 1 := Nat.mod_eq_of_lt ho
  cases cmd
  case arrayRead => exact if_pos ho
  all_goals exact congrArg (Prod.mk p) hwrap

/-- Behind the last byte of a page the continuous read goes on in the next page. -/
theorem Device.nextRead_array_last {k : FreqClass} (ho : o + 1 = e.pageBytes) :
    e.nextRead (.arrayRead k) p o = ((p + 1) % 2 ^ e.pageBits, 0) := if_neg (by omega)

/-- Behind the last byte of its page or buffer every other read goes round. -/
theorem Device.nextRead_wrap_last (hcmd : ∀ k, cmd ≠ .arrayRead k) (ho : o + 1 = e.pageBytes) :
    e.nextRead cmd p o = (p, 0) := by
  have hwrap : e.nextWrap o = 0 := by rw [Device.nextWrap, ho, Nat.mod_self]
  cases cmd
  case arrayRead k => exact absurd rfl (hcmd k)
  all_goals exact congrArg (Prod.mk p) hwrap

end

/-! ## When E's arrays change -/

theorem Device.onSel_main {e : Device} {v : Bool} (h : (e.onSel v).main ≠ e.main) :
    v = false ∧ (e.xact = .magicDone ∨
      ∃ cmd p o k w, e.xact = .body cmd p o k w ∧ storesMain cmd = true) := by
  cases v
  case true => exact absurd rfl h
  case false =>
    refine ⟨rfl, ?_⟩
    cases hx : e.xact <;> simp only [Device.onSel, hx, Bool.false_eq_true, if_false] at h
    case magicDone => exact .inl rfl
    case body cmd p o k w =>
      refine .inr ⟨cmd, p, o, k, w, rfl, ?_⟩
      by_contra hs
      exact h (Device.work_main (by simpa using hs) p w)
    all_goals exact absurd rfl h

theorem Device.onSel_buf {e : Device} {v : Bool} {b : Buf} (h : (e.onSel v).buf b ≠ e.buf b) :
    v = false ∧ ∃ p o k w, e.xact = .body (.copy b) p o k w := by
  cases v
  case true => exact absurd (by cases b <;> rfl) h
  case false =>
    refine ⟨rfl, ?_⟩
    have keep {f : Device} {x : Xact} : ({ f with xact := x } : Device).buf b = f.buf b := by
      cases b <;> rfl
    have hwork {cmd : DevCmd} {p : Nat} {w : List Nat}
        (hne : (e.work cmd p w).buf b ≠ e.buf b) : cmd = .copy b := by
      by_contra hc
      exact hne ((Device.work_buf e cmd p w b).trans (if_neg hc))
    cases hx : e.xact <;> simp only [Device.onSel, hx, Bool.false_eq_true, if_false, keep] at h
    case body cmd p o k w =>
      obtain rfl := hwork h
      exact ⟨p, o, k, w, rfl⟩
    case magicDone => cases hwork h
    all_goals exact absurd (by cases b <;> rfl) h

theorem Device.onXfer_main (e : Device) (c : Config) (v free : Byte) :
    (e.onXfer c v free).2.main = e.main := by
  rcases Device.onXfer_cases e c v free with ⟨x, h⟩ | ⟨cmd, p, o, skip, w, b, -, h, -⟩
  · rw [h]
  · rw [h]
    exact Device.setBuf_main _ _ _

theorem Device.onXfer_buf {e : Device} {c : Config} {v free : Byte} {b : Buf}
    (h : (e.onXfer c v free).2.buf b ≠ e.buf b) :
    ∃ cmd p o k w, e.xact = .body cmd p o k w ∧ payloadBuf cmd = some b := by
  rcases Device.onXfer_cases e c v free with ⟨x, hx⟩ | ⟨cmd, p, o, skip, w, x, hx, he, hcmd⟩
  · rw [hx] at h
    exact absurd (by cases b <;> rfl) h
  · have hbuf : payloadBuf cmd = some x := by rcases hcmd with rfl | rfl | ⟨rfl, rfl⟩ <;> rfl
    have hne : b = x := by
      by_contra hne
      have hkeep : (e.onPayload cmd x p o w v).buf b =
          (e.setBuf x (Memory.write (e.buf x) o v)).buf b := by cases b <;> rfl
      rw [he, hkeep, Device.buf_setBuf, if_neg hne] at h
      exact h rfl
    exact ⟨cmd, p, o, skip, w, hx, hne ▸ hbuf⟩

/-- What a step does to an attached E: nothing, or one bus event. -/
theorem step_device {s t : State} {e e' : Device} (h : step s = .next t)
    (hs : s.link = .device e) (ht : t.link = .device e') :
    e' = e ∨ (∃ v, t.trace = s.trace ++ [.sel v] ∧ e' = e.onSel v) ∨
      ∃ x fc y free, t.trace = s.trace ++ [.xfer x fc y] ∧ e' = (e.onXfer s.cfg x free).2 := by
  rcases step_next h with ⟨-, rfl⟩ | ⟨-, -, r, rest, i, -, -, hx⟩ | ⟨-, -, j, -, hm⟩
  · right; left
    refine ⟨false, rfl, ?_⟩
    by_cases hp : s.phase = .idle
    · have hlink : s.applyReset.link = s.link.onSel false := if_pos hp
      exact Link.device.inj (ht.symm.trans (hlink.trans (by rw [hs]; rfl)))
    · have hlink : s.applyReset.link = Link.unconstrained := if_neg hp
      cases ht.symm.trans hlink
  · left
    have hlink : t.link = s.link := by cases exec_accepts hx <;> rfl
    exact Link.device.inj (ht.symm.trans (hlink.trans hs))
  · right
    obtain ⟨ev, htrace, hevent⟩ := (runJob_next hm).event
    cases hevent with
    | sel v _ _ hlink =>
      exact .inl ⟨v, htrace, Link.device.inj (ht.symm.trans (hlink.trans (by rw [hs]; rfl)))⟩
    | xfer o fc _ _ hlink =>
      exact .inr ⟨o, fc, _, _, htrace,
        Link.device.inj (ht.symm.trans (hlink.trans (by rw [hs]; rfl)))⟩

end Sys2Proof.Machine
end

section
/-! PROOFS. The obligations of the work of E's commands, of one data byte, and of when E's arrays
change (60_exceptions.md R257, R260 to R266). -/

open Sys2Proof.Machine

namespace Sys2Proof.Claims

/-- Settles O45: a program stores into one page, an erase clears a group of pages, and every other
command leaves main memory. -/
theorem deviceWorkOnMainMemory : Obligations.DeviceWorkOnMainMemory :=
  fun _ cmd p _ q _ hok hi hw => Device.mainByte_work hok cmd p hw q hi

/-- Settles O46: each field that is no main memory, after the work of each command. -/
theorem deviceWorkOnBuffersAndFlags : Obligations.DeviceWorkOnBuffersAndFlags := by
  intro e cmd p written b i hok
  refine ⟨Device.bufByte_work hok cmd p written b i, fun h => Device.work_comp h p written,
    fun x hx => ?_, Device.work_epe e cmd p written, ?_⟩
  · subst hx
    exact Device.differs_iff e p x
  · cases cmd <;> rfl

/-- Settles O47: a byte behind the frame is read, is a payload byte, or is not defined. -/
theorem deviceDataByte : Obligations.DeviceDataByte := by
  intro c e cmd p o skip written v free hok hx
  rw [Device.onXfer_body hx]
  obtain ⟨hmain, hbuf⟩ := Device.onBody_bytes (cmd := cmd) (p := p) (o := o) (skip := skip)
    (w := written) hok v free
  refine ⟨hmain, hbuf, fun hs hr => ?dummy, fun hs => ?answer,
    fun hs ho hr => ?next, fun hp ho => ?payload, fun hr hp => ?undefined⟩
  case dummy => rw [Device.onBody_dummy hr hs]; exact ⟨rfl, rfl⟩
  case answer =>
    subst hs
    refine ⟨fun h => ?_, fun h b hb => ?_⟩
    · have hread : isRead cmd = true := by rcases h with ⟨k, rfl⟩ | rfl <;> rfl
      rw [Device.onBody_read hread]
      rcases h with ⟨k, rfl⟩ | rfl <;> rfl
    · subst hb
      rw [Device.onBody_read rfl]
      rfl
  case next =>
    subst hs
    rw [Device.onBody_read hr]
    refine ⟨_, _, rfl, fun hlt => ?_, fun hlast => ?_⟩
    · rw [Device.nextRead_inside hlt]
      exact ⟨rfl, rfl⟩
    · by_cases harray : ∃ k, cmd = .arrayRead k
      · obtain ⟨k, rfl⟩ := harray
        rw [Device.nextRead_array_last hlast]
        exact ⟨rfl, fun _ => ⟨fun hp => Nat.mod_eq_of_lt hp, fun hp => by rw [hp, Nat.mod_self]⟩,
          fun h => absurd rfl (h k)⟩
      · have hcmd : ∀ k, cmd ≠ .arrayRead k := fun k hk => harray ⟨k, hk⟩
        rw [Device.nextRead_wrap_last hcmd hlast]
        exact ⟨rfl, fun h => absurd h harray, fun _ => rfl⟩
  case payload =>
    obtain ⟨b, hb⟩ := Option.isSome_iff_exists.1 hp
    rw [Device.onBody_payload hb, Device.inXact_xact, Device.nextWrap_eq ho]
  case undefined => rw [Device.onBody_undefined hr hp]

/-- Settles O48: over a step E sees one bus event at most, and main memory is changed by the work of
a command alone, a buffer by that or by a payload byte. -/
theorem deviceArraysFrame : Obligations.DeviceArraysFrame := by
  intro s t e e' ht hs ht'
  rcases step_device ht hs ht' with rfl | ⟨v, htrace, rfl⟩ | ⟨x, fc, y, free, htrace, rfl⟩
  · exact ⟨fun h => absurd rfl h, fun b h => absurd rfl h⟩
  · refine ⟨fun h => ?_, fun b h => ?_⟩
    · obtain ⟨rfl, hx⟩ := Device.onSel_main h
      exact ⟨htrace, hx⟩
    · obtain ⟨rfl, p, o, k, w, hx⟩ := Device.onSel_buf h
      exact ⟨_, p, o, k, w, hx, .inl ⟨htrace, rfl⟩⟩
  · refine ⟨fun h => absurd (Device.onXfer_main e s.cfg x free) h, fun b h => ?_⟩
    obtain ⟨cmd, p, o, k, w, hx, hb⟩ := Device.onXfer_buf h
    exact ⟨cmd, p, o, k, w, hx, .inr ⟨⟨x, fc, y, htrace⟩, hb⟩⟩

end Sys2Proof.Claims
end

section
/-! PROOFS. The frames of E's commands, and reads and payloads of any length behind them
(60_exceptions.md R257, R260 to R262, R265, R266). -/

open Sys2Proof.Claims

namespace Sys2Proof.Machine

/-! ## The frame of a command -/

/-- The address bytes of a frame are the wire address (30_encoding.md R81). -/
theorem wire_bytes (w : Wire) : wireByte w 2 ++ wireByte w 1 ++ wireByte w 0 = w := by
  refine BitVec.eq_of_getLsbD_eq fun i hi => ?_
  simp only [wireByte, BitVec.getLsbD_append, BitVec.getLsbD_extractLsb']
  obtain h | h | h : i < 8 ∨ 8 ≤ i ∧ i < 16 ∨ 16 ≤ i := by omega
  · simp [h]
  · simp [show ¬ i < 8 by omega, show i - 8 < 8 by omega, show 8 + (i - 8) = i by omega]
  · simp [show ¬ i < 8 by omega, show ¬ i - 8 < 8 by omega, show i - 8 - 8 < 8 by omega,
      show 16 + (i - 8 - 8) = i by omega]

theorem replies_append (c : Config) (free : Byte) (e : Device) (as bs : List Byte) :
    replies c free e (as ++ bs) = replies c free e as ++ replies c free (feed c free e as) bs := by
  induction as generalizing e with
  | nil => rfl
  | cons a as ih => simp [ih]

section
variable {c : Config} {e : Device} {opc : Byte} {cmd : DevCmd}

/-- Behind the frame of a command E stands at its wire address. -/
theorem feed_frameOA (hc : c.opc.all.Nodup) (hb : e.busy = 0) (hm : (opc, cmd) ∈ devCommands c)
    (free : Byte) (w : Wire) :
    feed c free (e.onSel true) (frameOA opc w) = e.onAddress c cmd w := by
  have haddr : e.onOpcode c opc = e.inXact (.addr cmd []) := Device.onOpcode_command hc hb hm
  have hthree : feed c free (e.inXact (.addr cmd [])) [wireByte w 2, wireByte w 1, wireByte w 0] =
      e.onAddress c cmd (wireByte w 2 ++ wireByte w 1 ++ wireByte w 0) := rfl
  rw [frameOA, feed_opcode, haddr, hthree, wire_bytes]

theorem replies_frameOA (hc : c.opc.all.Nodup) (hb : e.busy = 0)
    (hm : (opc, cmd) ∈ devCommands c) (free : Byte) (w : Wire) :
    replies c free (e.onSel true) (frameOA opc w) = List.replicate 4 0xFF := by
  have haddr : e.onOpcode c opc = e.inXact (.addr cmd []) := Device.onOpcode_command hc hb hm
  rw [frameOA, replies_opcode, haddr]
  rfl

/-- The page and the position of a wire address no wider than E's (60_exceptions.md R257). -/
theorem Device.onAddress_eq {w : Wire} {p o : Nat}
    (hw : w.toNat = p * 2 ^ offsetBits e.psize + o) (hp : p < 2 ^ e.addrBits)
    (ho : o < 2 ^ offsetBits e.psize) : e.onAddress c cmd w =
      e.inXact (.body cmd p (o % e.pageBytes) (devDummy c cmd) []) := by
  have hpage : (w.toNat >>> offsetBits e.psize) &&& mask e.addrBits = p := by
    rw [mask, Nat.and_two_pow_sub_one_eq_mod, Nat.shiftRight_eq_div_pow, hw, Nat.mul_comm,
      Nat.mul_add_div (Nat.two_pow_pos _), Nat.div_eq_of_lt ho, Nat.add_zero, Nat.mod_eq_of_lt hp]
  have hoff : w.toNat &&& mask (offsetBits e.psize) = o := by
    rw [mask, Nat.and_two_pow_sub_one_eq_mod, hw, Nat.mul_add_mod_self_right, Nat.mod_eq_of_lt ho]
  simp only [Device.onAddress, hpage, hoff, Device.inXact]

section
variable (hc : c.opc.all.Nodup) (hb : e.busy = 0) (hm : (opc, cmd) ∈ devCommands c) (free : Byte)
include hc hb hm

/-- Behind the frame of a command E takes it at the page and position of the wire address. -/
theorem feed_command {w : Wire} {p o : Nat} (hw : w.toNat = p * 2 ^ offsetBits e.psize + o)
    (hp : p < 2 ^ e.addrBits) (ho : o < 2 ^ offsetBits e.psize) :
    feed c free (e.onSel true) (frameOA opc w) =
      e.inXact (.body cmd p (o % e.pageBytes) (devDummy c cmd) []) :=
  (feed_frameOA hc hb hm free w).trans (Device.onAddress_eq hw hp ho)

theorem feed_command_page {w : Wire} {p : Nat} (hw : w.toNat = p * 2 ^ offsetBits e.psize)
    (hp : p < 2 ^ e.addrBits) : feed c free (e.onSel true) (frameOA opc w) =
      e.inXact (.body cmd p 0 (devDummy c cmd) []) := by
  simpa using feed_command hc hb hm free (o := 0) hw hp (Nat.two_pow_pos _)

variable (a : Addr)

/-- A wire address rounded down to a group of `2 ^ k` pages names the group's first page. -/
theorem feed_wireGroup {w : Wire} {k : Nat}
    (hw : w.toNat = pageIndex (offsetBits e.psize) e.addrBits a / 2 ^ k *
      2 ^ (offsetBits e.psize + k)) :
    feed c free (e.onSel true) (frameOA opc w) =
      e.inXact (.body cmd (pageIndex (offsetBits e.psize) e.addrBits a / 2 ^ k * 2 ^ k) 0
        (devDummy c cmd) []) :=
  feed_command_page hc hb hm free (hw.trans (by rw [Nat.add_comm, Nat.pow_add, Nat.mul_assoc]))
    ((Nat.div_mul_le_self _ _).trans_lt (pageIndex_lt _ _ a))

variable (hfit : e.addrBits + offsetBits e.psize ≤ 24)
include hfit

theorem feed_wireFull :
    feed c free (e.onSel true) (frameOA opc (wireFull (offsetBits e.psize) e.addrBits a)) =
      e.inXact (.body cmd (pageIndex (offsetBits e.psize) e.addrBits a)
        (offsetOf (offsetBits e.psize) a % e.pageBytes) (devDummy c cmd) []) :=
  feed_command hc hb hm free (wireFull_toNat hfit a) (pageIndex_lt _ _ a) (offsetOf_lt _ a)

theorem feed_wireBuf :
    feed c free (e.onSel true) (frameOA opc (wireBuf (offsetBits e.psize) a)) =
      e.inXact (.body cmd 0 (offsetOf (offsetBits e.psize) a % e.pageBytes) (devDummy c cmd) []) :=
  feed_command hc hb hm free
    (by rw [wireBuf_toNat (by omega), Nat.zero_mul, Nat.zero_add]) (Nat.two_pow_pos _)
    (offsetOf_lt _ a)

theorem feed_wirePage :
    feed c free (e.onSel true) (frameOA opc (wirePage (offsetBits e.psize) e.addrBits a)) =
      e.inXact (.body cmd (pageIndex (offsetBits e.psize) e.addrBits a) 0 (devDummy c cmd) []) :=
  feed_command_page hc hb hm free (wirePage_toNat hfit a) (pageIndex_lt _ _ a)

end

end

/-- What E's parameters are in the tables of the configuration it matches. -/
theorem Device.matches_tables {c : Config} {e : Device} (h : e.matches c = true) :
    c.wDf.lookup e.density = some e.pageBits ∧
      Machine.pageBits c e.density e.psize = some e.addrBits ∧
      c.sLog2.lookup e.density = some e.sectorLog := by
  simp only [Device.matches, Bool.and_eq_true, beq_iff_eq] at h
  obtain ⟨⟨⟨⟨hmain, haddr⟩, hsector⟩, -⟩, -⟩ := h
  exact ⟨hmain, haddr, hsector⟩

/-- Every opcode of E's commands is an opcode parameter. -/
theorem devCommands_opcodes {c : Config} {o : Byte} (h : o ∈ (devCommands c).map Prod.fst) :
    o ∈ c.opc.all := by
  obtain ⟨p, hp, rfl⟩ := List.mem_map.1 h
  suffices hall : ∀ p ∈ devCommands c, p.1 ∈ c.opc.all from hall p hp
  cases hf : c.cap.hasHighFrequencyRead <;> cases hs : c.cap.hasSecondBuffer
  all_goals
    simp only [devCommands, hf, hs, List.forall_mem_append, List.forall_mem_cons]
    simp [Opcodes.all]

/-- A magic sequence whose first byte is no other opcode is the chip erase (60_exceptions.md
R265). -/
theorem feed_frameM4 {c : Config} {e : Device} (hb : e.busy = 0)
    (hm : magicByte c.opc.magicEraseChip 3 ∉ c.opc.all) (free : Byte) :
    feed c free (e.onSel true) (frameM4 c.opc.magicEraseChip) = e.inXact .magicDone := by
  have hs : magicByte c.opc.magicEraseChip 3 ≠ c.opc.status :=
    fun h => hm (h ▸ by simp [Opcodes.all])
  have hj : magicByte c.opc.magicEraseChip 3 ≠ c.opc.jedec :=
    fun h => hm (h ▸ by simp [Opcodes.all])
  have hlookup : (devCommands c).lookup (magicByte c.opc.magicEraseChip 3) = none :=
    lookup_eq_none fun h => hm (devCommands_opcodes h)
  have hopen : e.onOpcode c (magicByte c.opc.magicEraseChip 3) =
      e.inXact (.magic [magicByte c.opc.magicEraseChip 3]) := by
    simp [Device.onOpcode, hs, hj, hlookup, hb, Device.inXact]
  rw [frameM4, feed_opcode, hopen]
  simp [Device.onXfer, Device.onMagic, Device.inXact, frameM4]

/-! ## Reads of any length -/

/-- One position on: inside the group of `n`, or at the start of the next one. -/
theorem succ_div_mod {n : Nat} (hn : 0 < n) (x : Nat) :
    (x % n + 1 < n → (x + 1) / n = x / n ∧ (x + 1) % n = x % n + 1) ∧
    (x % n + 1 = n → (x + 1) / n = x / n + 1 ∧ (x + 1) % n = 0) := by
  have hx := Nat.mod_add_div x n
  refine ⟨fun h => (Nat.div_mod_unique hn).2 ⟨by omega, h⟩,
    fun h => (Nat.div_mod_unique hn).2 ⟨?_, hn⟩⟩
  rw [Nat.mul_succ]
  omega

/-- Where a read stands behind `k` bytes: the continuous read goes through the pages, every other
read round its page or buffer. -/
def Device.readPosition (e : Device) (cmd : DevCmd) (p o k : Nat) : Nat × Nat :=
  match cmd with
  | .arrayRead _ => ((p + (o + k) / e.pageBytes) % 2 ^ e.pageBits, (o + k) % e.pageBytes)
  | _ => (p, (o + k) % e.pageBytes)

section
variable (c : Config) (free : Byte) {e : Device} {cmd : DevCmd} {p o : Nat} (w : List Nat)

theorem Device.readPosition_zero (ho : o < e.pageBytes)
    (hp : ∀ f, cmd = .arrayRead f → p < 2 ^ e.pageBits) : e.readPosition cmd p o 0 = (p, o) := by
  cases cmd
  case arrayRead f =>
    simp [Device.readPosition, Nat.div_eq_of_lt ho, Nat.mod_eq_of_lt ho,
      Nat.mod_eq_of_lt (hp f rfl)]
  all_goals exact congrArg (Prod.mk p) (Nat.mod_eq_of_lt ho)

/-- Every byte takes a read one position on. -/
theorem Device.nextRead_readPosition (k : Nat) :
    e.nextRead cmd (e.readPosition cmd p o k).1 (e.readPosition cmd p o k).2 =
      e.readPosition cmd p o (k + 1) := by
  obtain ⟨hin, hlast⟩ := succ_div_mod e.pageBytes_pos (o + k)
  cases cmd
  case arrayRead f =>
    simp only [Device.readPosition]
    rcases Nat.lt_or_eq_of_le (Nat.mod_lt (o + k) e.pageBytes_pos) with h | h
    · obtain ⟨hd, hm⟩ := hin h
      rw [Device.nextRead_inside h, ← Nat.add_assoc, hd, hm]
    · obtain ⟨hd, hm⟩ := hlast h
      rw [Device.nextRead_array_last h, ← Nat.add_assoc, hd, hm, Nat.mod_add_mod, Nat.add_assoc]
  all_goals exact congrArg (Prod.mk p) (Nat.mod_add_mod ..)

theorem Device.onXfer_read (hr : isRead cmd = true) (v : Byte) :
    (e.inXact (.body cmd p o 0 w)).onXfer c v free = (e.readByte cmd p o,
      e.inXact (.body cmd (e.nextRead cmd p o).1 (e.nextRead cmd p o).2 0 w)) := by
  rw [Device.onXfer_body rfl, Device.onBody_read hr]
  cases cmd
  case bufRead high b => cases b <;> rfl
  all_goals rfl

/-- The dummy bytes are counted down. -/
theorem feed_dummies (hr : isRead cmd = true) {bytes : List Byte} {skip : Nat}
    (hs : bytes.length ≤ skip) : feed c free (e.inXact (.body cmd p o skip w)) bytes =
      e.inXact (.body cmd p o (skip - bytes.length) w) := by
  induction bytes generalizing skip with
  | nil => rfl
  | cons b bytes ih =>
    have hpos : 0 < skip := Nat.zero_lt_of_lt hs
    rw [feed_cons, Device.onXfer_body rfl, Device.onBody_dummy hr hpos]
    refine (ih (Nat.le_sub_one_of_lt hs)).trans ?_
    rw [Nat.sub_sub, Nat.add_comm 1, List.length_cons]

theorem feed_reads (hr : isRead cmd = true) (ho : o < e.pageBytes)
    (hp : ∀ f, cmd = .arrayRead f → p < 2 ^ e.pageBits) (bytes : List Byte) :
    feed c free (e.inXact (.body cmd p o 0 w)) bytes =
      e.inXact (.body cmd (e.readPosition cmd p o bytes.length).1
        (e.readPosition cmd p o bytes.length).2 0 w) := by
  induction bytes using List.reverseRecOn with
  | nil => rw [List.length_nil, Device.readPosition_zero ho hp, feed_nil]
  | append_singleton bytes b ih =>
    rw [feed_append, ih, feed_cons, feed_nil, Device.onXfer_read c free w hr,
      Device.nextRead_readPosition, List.length_append, List.length_singleton]

/-- What a read answers to its dummy bytes. -/
theorem replies_dummy (hr : isRead cmd = true) {bytes : List Byte} {skip k : Nat} (hk : k < skip)
    (hlen : k < bytes.length) :
    (replies c free (e.inXact (.body cmd p o skip w)) bytes)[k]? = some 0xFF := by
  have htake : (bytes.take k).length = k := List.length_take_of_le hlen.le
  have hleft : 0 < skip - (bytes.take k).length := by omega
  rw [replies_getElem? c free _ (List.getElem?_eq_getElem hlen),
    feed_dummies c free w hr (by omega), Device.onXfer_body rfl, Device.onBody_dummy hr hleft]

/-- What a read answers behind its dummy bytes. -/
theorem replies_read (hr : isRead cmd = true) (ho : o < e.pageBytes)
    (hp : ∀ f, cmd = .arrayRead f → p < 2 ^ e.pageBits) {bytes : List Byte} {skip k : Nat}
    (hlen : skip + k < bytes.length) :
    (replies c free (e.inXact (.body cmd p o skip w)) bytes)[skip + k]? =
      some (e.readByte cmd (e.readPosition cmd p o k).1 (e.readPosition cmd p o k).2) := by
  have hskip : (bytes.take skip).length = skip := List.length_take_of_le (by omega)
  have hread : ((bytes.drop skip).take k).length = k := List.length_take_of_le (by simp; omega)
  rw [replies_getElem? c free _ (List.getElem?_eq_getElem hlen), List.take_add, feed_append,
    feed_dummies c free w hr hskip.le, hskip, Nat.sub_self, feed_reads c free w hr ho hp, hread,
    Device.onXfer_read c free w hr]

end

/-! ## Payloads of any length -/

/-- Stores bytes at the positions from `o` on, round a buffer of `n` bytes. -/
def Memory.writeRound (n : Nat) : Memory → Nat → List Byte → Memory
  | m, _, [] => m
  | m, o, v :: vs => Memory.writeRound n (Memory.write m o v) ((o + 1) % n) vs

theorem round_succ (n o k : Nat) : ((o + 1) % n + k) % n = (o + (k + 1)) % n := by
  rw [Nat.mod_add_mod, Nat.add_right_comm, Nat.add_assoc]

theorem Memory.wf_writeRound (n : Nat) {m : Memory} (h : Memory.wf m) (o : Nat) (vs : List Byte) :
    Memory.wf (Memory.writeRound n m o vs) := by
  induction vs generalizing m o with
  | nil => exact h
  | cons v vs ih => exact ih (Memory.wf_write h o v) _

/-- A position on which no byte falls keeps what it held. -/
theorem Memory.read_writeRound_other {n : Nat} {m : Memory} (h : Memory.wf m) {o : Nat}
    (ho : o < n) {vs : List Byte} {i : Nat} (hi : ∀ k < vs.length, (o + k) % n ≠ i) :
    Memory.read (Memory.writeRound n m o vs) i = Memory.read m i := by
  induction vs generalizing m o with
  | nil => rfl
  | cons v vs ih =>
    have hne : i ≠ o := by
      have := hi 0 (Nat.succ_pos _)
      rw [Nat.add_zero, Nat.mod_eq_of_lt ho] at this
      exact this.symm
    refine (ih (Memory.wf_write h o v) (Nat.mod_lt _ (by omega)) fun k hk => ?_).trans ?_
    · rw [round_succ]
      exact hi _ (Nat.succ_lt_succ hk)
    · rw [Memory.read_write h, if_neg hne]

/-- A position holds the last byte that fell on it. -/
theorem Memory.read_writeRound_last {n : Nat} {m : Memory} (h : Memory.wf m) {o : Nat}
    (ho : o < n) {vs : List Byte} {k : Nat} {v : Byte} (hv : vs[k]? = some v)
    (hlast : ∀ j < vs.length, k < j → (o + j) % n ≠ (o + k) % n) :
    Memory.read (Memory.writeRound n m o vs) ((o + k) % n) = v := by
  induction vs generalizing m o k with
  | nil => simp at hv
  | cons x vs ih =>
    have hw := Memory.wf_write h o x
    have hmod : (o + 1) % n < n := Nat.mod_lt _ (by omega)
    cases k with
    | zero =>
      obtain rfl : x = v := by simpa using hv
      rw [Nat.add_zero, Nat.mod_eq_of_lt ho] at hlast ⊢
      refine (Memory.read_writeRound_other hw hmod fun j hj => ?_).trans
        (Memory.read_write_same h o x)
      rw [round_succ]
      exact hlast _ (Nat.succ_lt_succ hj) (Nat.succ_pos j)
    | succ k =>
      rw [← round_succ] at hlast ⊢
      refine ih hw hmod (by simpa using hv) fun j hj hkj => ?_
      have := hlast (j + 1) (Nat.succ_lt_succ hj) (Nat.succ_lt_succ hkj)
      rwa [← round_succ] at this

theorem Device.nextWrap_lt (e : Device) (o : Nat) : e.nextWrap o < e.pageBytes :=
  Nat.mod_lt _ e.pageBytes_pos

@[simp] theorem Device.setBuf_setBuf (e : Device) (b : Buf) (m m' : Memory) :
    (e.setBuf b m).setBuf b m' = e.setBuf b m' := by cases b <;> rfl

theorem Device.onXfer_payload (c : Config) (free : Byte) {e : Device} {cmd : DevCmd} {b : Buf}
    (hb : payloadBuf cmd = some b) (p o skip : Nat) (w : List Nat) (v : Byte) :
    ((e.inXact (.body cmd p o skip w)).onXfer c v free).2 =
      (e.setBuf b (Memory.write (e.buf b) o v)).inXact
        (.body cmd p (e.nextWrap o) 0 (w ++ [o])) := by
  rw [Device.onXfer_body rfl, Device.onBody_payload hb]
  cases b <;> rfl

/-- The positions of a payload, the first one apart. -/
theorem map_range_round {n o : Nat} (ho : o < n) (k : Nat) :
    (List.range (k + 1)).map (fun i => (o + i) % n) =
      o :: (List.range k).map fun i => ((o + 1) % n + i) % n := by
  simp only [List.range_succ_eq_map, List.map_cons, List.map_map, Nat.add_zero,
    Nat.mod_eq_of_lt ho]
  exact congrArg (List.cons o) (List.map_congr_left fun i _ => (round_succ n o i).symm)

/-- A payload of any length: its bytes are stored round the buffer, their positions noted. -/
theorem feed_payload (c : Config) (free : Byte) {e : Device} {cmd : DevCmd} {b : Buf}
    (hb : payloadBuf cmd = some b) (p : Nat) {o : Nat} (ho : o < e.pageBytes) (skip : Nat)
    (w : List Nat) (data : List Byte) :
    ∃ left, feed c free (e.inXact (.body cmd p o skip w)) data =
      (e.setBuf b (Memory.writeRound e.pageBytes (e.buf b) o data)).inXact
        (.body cmd p ((o + data.length) % e.pageBytes) left
          (w ++ (List.range data.length).map fun k => (o + k) % e.pageBytes)) := by
  induction data generalizing e o skip w with
  | nil =>
    refine ⟨skip, ?_⟩
    have hset : e.setBuf b (e.buf b) = e := by cases b <;> rfl
    simp [Memory.writeRound, hset, Nat.mod_eq_of_lt ho]
  | cons v data ih =>
    obtain ⟨left, h⟩ := ih (e := e.setBuf b (Memory.write (e.buf b) o v)) (o := e.nextWrap o)
      (by simpa using e.nextWrap_lt o) 0 (w ++ [o])
    refine ⟨left, ?_⟩
    rw [feed_cons, Device.onXfer_payload c free hb, h, List.length_cons, map_range_round ho]
    simp [Memory.writeRound, Device.nextWrap, Nat.add_assoc, Nat.add_comm 1]

end Sys2Proof.Machine
end

section
/-! PROOFS. The obligations of E's frames, and of its reads and payloads of any length
(60_exceptions.md R257, R260 to R266, R268). -/

open Sys2Proof.Machine

namespace Sys2Proof.Claims

/-- Settles O44: the opcode of each frame is that of one of E's commands, and the page and position
are the fields of its wire address. -/
theorem deviceTakesEveryFrame : Obligations.DeviceTakesEveryFrame := by
  intro s e free W S a hc hd hatt hW hS
  obtain ⟨-, hmatch, hdens, hpsm, -, hbusy, -⟩ := hatt
  have hn := admissible_opcodes hc
  obtain ⟨-, haddr, hsector⟩ := Device.matches_tables hmatch
  rw [hdens] at haddr hsector
  rw [hpsm] at haddr
  obtain rfl : W = e.addrBits := Option.some.inj (hW.symm.trans haddr)
  obtain rfl : S = e.sectorLog := Option.some.inj (hS.symm.trans hsector)
  have hB : offsetBits e.psize = s.offsetBits := congrArg offsetBits hpsm
  have hfit : e.addrBits + offsetBits e.psize ≤ 24 := hpsm ▸ (pageBits_le hc hd hW).1
  have full {opc : Byte} {cmd : DevCmd} (hm : (opc, cmd) ∈ devCommands s.cfg) :=
    feed_wireFull hn hbusy hm free a hfit
  have buf {opc : Byte} {cmd : DevCmd} (hm : (opc, cmd) ∈ devCommands s.cfg) :=
    feed_wireBuf hn hbusy hm free a hfit
  have page {opc : Byte} {cmd : DevCmd} (hm : (opc, cmd) ∈ devCommands s.cfg) :=
    feed_wirePage hn hbusy hm free a hfit
  have second (h : (!s.cfg.cap.hasSecondBuffer) = false) : s.cfg.cap.hasSecondBuffer = true := by
    simpa using h
  rw [← hB]
  simp only [frameCommands, List.forall_mem_cons, List.not_mem_nil, false_imp_iff, implies_true,
    and_true]
  refine ⟨⟨fun _ => full ?fc0, fun _ => full ?fc1, fun _ => full ?fc2, fun h => full ?fc3,
    fun _ => full ?pagerd, fun _ => buf ?low1, fun h => buf ?low2, fun _ => buf ?high1,
    fun h => buf ?high2, fun _ => buf ?bufwr1, fun h => buf ?bufwr2, fun _ => full ?wtbE1,
    fun h => full ?wtbE2, fun _ => full ?wtbN, fun _ => page ?wrbackE1, fun h => page ?wrbackE2,
    fun _ => page ?wrbackN1, fun h => page ?wrbackN2, fun _ => page ?copy1, fun h => page ?copy2,
    fun _ => page ?cmp1, fun h => page ?cmp2, fun _ => page ?erasePage,
    fun _ => feed_wireGroup hn hbusy ?eraseBlock free a (wireBlock_toNat hfit a),
    fun _ => feed_wireGroup hn hbusy ?eraseSector free a (wireSector_toNat hfit a)⟩,
    fun hm => feed_frameM4 hbusy hm free, ?jedec, fun busy => ?status⟩
  case fc3 =>
    have hcap : s.cfg.cap.hasHighFrequencyRead = true := by simpa [missingCapability] using h
    simp [devCommands, hcap]
  case low2 | high2 | bufwr2 | wtbE2 | wrbackE2 | wrbackN2 | copy2 | cmp2 =>
    simp [devCommands, second h]
  case jedec =>
    rw [frameO, feed_opcode, Device.onOpcode_jedec _ e (jedec_ne_status hc) hbusy]
    rfl
  case status =>
    rw [frameO, feed_opcode, Device.onOpcode_status]
    rfl
  all_goals simp [devCommands]

/-- Settles O55: the dummy bytes are counted down, and every byte behind them takes the read one
position on. -/
theorem deviceReadsRunOn : Obligations.DeviceReadsRunOn := by
  intro c e free cmd p o skip written bytes hx ho hp hr
  have hbody : replies c free e bytes =
      replies c free (e.inXact (.body cmd p o skip written)) bytes :=
    congrArg (fun e => replies c free e bytes) (Device.eq_inXact hx)
  rw [hbody]
  refine ⟨fun k hk hlen => replies_dummy c free written hr hk hlen, fun k hlen => ?_⟩
  rw [replies_read c free written hr ho (fun _ _ => hp) hlen]
  refine ⟨?_, ?_, ?_⟩
  · rintro ⟨f, rfl⟩
    rfl
  · rintro rfl
    rfl
  · rintro h b rfl
    rfl

/-- Settles O56: the payload is stored round its buffer. -/
theorem devicePayloadWraps : Obligations.DevicePayloadWraps := by
  rintro c e free cmd b p o skip written data hok hx hb ho _ rfl
  obtain ⟨left, h⟩ := feed_payload c free hb p ho skip written data
  have hfeed : feed c free e data = feed c free (e.inXact (.body cmd p o skip written)) data :=
    congrArg (fun e => feed c free e data) (Device.eq_inXact hx)
  have hbuf := Device.buf_ok hok b
  rw [hfeed, h]
  refine ⟨fun k v hv hlast => ?_, fun i hi => ?_, fun x i hne => ?_, fun q i => ?_, left, rfl⟩
  · simpa [Device.bufByte] using Memory.read_writeRound_last hbuf ho hv hlast
  · simpa [Device.bufByte] using Memory.read_writeRound_other hbuf ho hi
  · simp [Device.bufByte, Device.buf_setBuf, hne]
  · simp

end Sys2Proof.Claims
end

section
/-! PROOFS. Device E behind the link over a run: where the link goes over a transaction, and the
poll loop against E (60_exceptions.md R255, R258, R267). -/

open Sys2Proof.Claims

namespace Sys2Proof.Machine

/-! ## The link over a transaction -/

/-- The events of a transaction: `SEL(1)`, its transfers, `SEL(0)`. -/
theorem events_of_transaction {es : List Event} {fc : FreqClass} {bytes : List Byte}
    (h : sentOf es = transaction fc bytes) : ∃ xs, es = .sel true :: (xs ++ [.sel false]) ∧
      sentOf xs = bytes.map fun b => .xfer b fc := by
  have hsel {e : Event} {v : Bool} (he : sentOf [e] = [.sel v]) : e = .sel v := by
    cases e with
    | sel u => simpa using he
    | xfer => simp at he
  obtain ⟨as, zs, rfl, has, hzs⟩ := List.map_eq_append_iff.1 h
  obtain ⟨a, xs, rfl, ha, hxs⟩ := List.map_eq_cons_iff.1 has
  obtain ⟨z, ws, rfl, hz, hws⟩ := List.map_eq_cons_iff.1 hzs
  obtain rfl := List.map_eq_nil_iff.1 hws
  obtain rfl := hsel (congrArg (fun x => [x]) ha)
  obtain rfl := hsel (congrArg (fun x => [x]) hz)
  exact ⟨xs, rfl, hxs⟩

/-- Over transfers E is fed the bytes sent; each answer is one E can give. -/
theorem Link.after_feed {c : Config} {fc : FreqClass} {bytes : List Byte} {e : Device}
    {es : List Event} (h : sentOf es = bytes.map fun b => .xfer b fc)
    (hp : Link.Possible c (.device e) es) :
    (∀ free, Link.after c (.device e) es = .device (feed c free e bytes)) ∧
      ∀ k : Nat, ∃ free, (answersOf es)[k]? = (replies c free e bytes)[k]? := by
  induction bytes generalizing e es with
  | nil =>
    obtain rfl := List.map_eq_nil_iff.1 h
    exact ⟨fun _ => rfl, fun _ => ⟨0, rfl⟩⟩
  | cons b bytes ih =>
    obtain ⟨ev, es, rfl, hev, hes⟩ := List.map_eq_cons_iff.1 h
    cases ev with
    | sel v => cases hev
    | xfer o fc' i =>
      cases hev
      obtain ⟨⟨free, hi⟩, hp⟩ := hp
      obtain ⟨hafter, hans⟩ := ih hes hp
      have hfree (f : Byte) : (e.onXfer c b i).2 = (e.onXfer c b f).2 :=
        Device.onXfer_free e c b i f
      refine ⟨fun f => (hafter f).trans (by rw [feed_cons, hfree f]), fun k => ?_⟩
      cases k with
      | zero => exact ⟨free, congrArg some hi⟩
      | succ k =>
        obtain ⟨f, hf⟩ := hans k
        refine ⟨f, hf.trans ?_⟩
        rw [replies_cons, hfree f]
        rfl

/-- Over a run that performs one transaction E takes part in it, and gives its answers. -/
theorem run_exchange {k : Nat} {s u : State} {new : List Event} {fc : FreqClass}
    {bytes : List Byte} {e : Device} (h : stepN k s = .next u) (hr : s.resetReq = false)
    (htrace : u.trace = s.trace ++ new) (hsent : sentOf new = transaction fc bytes)
    (hl : s.link = .device e) :
    (∀ free, u.link = .device (exchange s.cfg free e bytes)) ∧
      ∀ k : Nat, ∃ free, (answersOf new)[k]? = (replies s.cfg free (e.onSel true) bytes)[k]? := by
  obtain ⟨-, -, new', htrace', hlink, hpossible⟩ := stepN_link h hr
  obtain rfl : new = new' := List.append_cancel_left (htrace.symm.trans htrace')
  obtain ⟨xs, rfl, hxs⟩ := events_of_transaction hsent
  rw [hl] at hlink hpossible
  obtain ⟨hp, -⟩ : Link.Possible s.cfg (.device (e.onSel true)) xs ∧ _ :=
    (Link.possible_append _ _ xs [.sel false]).1 hpossible
  obtain ⟨hafter, hans⟩ := Link.after_feed hxs hp
  refine ⟨fun free => hlink.trans ?_, fun k => ?_⟩
  · refine (Link.after_append s.cfg (.device (e.onSel true)) xs [.sel false]).trans ?_
    rw [hafter free]
    rfl
  · obtain ⟨free, hk⟩ := hans k
    exact ⟨free, by simpa using hk⟩

/-! ## The poll loop -/

/-- A snapshot of E, busy or not: its `SEL(0)` lowers the busy count. -/
theorem exchange_snapshot (c : Config) (free : Byte) (e : Device) :
    exchange c free e [c.opc.status, c.fill, c.fill] =
      { e with busy := e.busy - 1, xact := .deselected } := by
  rw [exchange_opcode, Device.onOpcode_status]
  rfl

theorem replies_snapshot (c : Config) (free : Byte) (e : Device) :
    replies c free (e.onSel true) [c.opc.status, c.fill, c.fill] =
      [0xFF, e.status1, e.status2] := by
  rw [replies_opcode, Device.onOpcode_status]
  rfl

/-- The ready bit and the error bit are where E has them (60_exceptions.md R258). -/
theorem readyBit_status1 {c : Config} (h : c.rdyBit = 7) (e : Device) :
    readyBit c e.status1 = true ↔ e.busy = 0 := by
  obtain ⟨hready, -⟩ := deviceStatusBytes e
  rw [readyBit, h, ← beq_iff_eq (a := e.busy), ← hready]
  rfl

theorem errorBit_status2 {c : Config} (h : c.epeBit = 5) (e : Device) :
    errorBit c e.status2 = e.epe := by
  obtain ⟨-, -, -, -, -, -, herror, -⟩ := deviceStatusBytes e
  rw [errorBit, h]
  exact herror

/-- Where a snapshot of the poll loop leaves DFCF and E. -/
def State.afterDevicePoll (s : State) (e : Device) : State :=
  { s.afterPoll (0xFF, e.status1, e.status2) [] with
    link := .device { e with busy := e.busy - 1, xact := .deselected } }

/-- One turn of the poll loop against E. -/
theorem run_deviceTurn {s : State} {j : Job} {o : OpOutcome} {e : Device}
    (hr : s.resetReq = false) (hj : s.job = some j) (hp : s.phase = .psOn)
    (hf : j.finish = .poll o) (hl : s.link = .device e) (hrdy : s.cfg.rdyBit = 7)
    (hepe : s.cfg.epeBit = 5) :
    stepN 5 s = .next (if e.busy = 0 then
      (s.afterDevicePoll e).conclude (if e.epe then .fail else o) [] else s.afterDevicePoll e) := by
  obtain ⟨x, a, b, l, t, rfl, hturn⟩ := run_pollTurn hr hj hp hf
  obtain ⟨hlink, hans⟩ := run_exchange (new := snapshotEvents s.cfg (x, a, b)) hturn hr
    (by split <;> rfl) (sentOf_snapshotEvents ..) hl
  have answer (k : Nat) : (answersOf (snapshotEvents s.cfg (x, a, b)))[k]? =
      [0xFF, e.status1, e.status2][k]? := by
    obtain ⟨free, hk⟩ := hans k
    rw [hk, replies_snapshot]
  obtain rfl : x = 0xFF := Option.some.inj (answer 0)
  obtain rfl : a = e.status1 := Option.some.inj (answer 1)
  obtain rfl : b = e.status2 := Option.some.inj (answer 2)
  have hlink := hlink 0
  rw [exchange_snapshot] at hlink
  obtain rfl : l = .device { e with busy := e.busy - 1, xact := .deselected } := by
    split at hlink <;> exact hlink
  rw [← errorBit_status2 hepe, ← if_congr (readyBit_status1 hrdy e) rfl rfl]
  exact hturn

/-- `WAIT_READY` and the end of a write-class operation against E: as many busy snapshots as E has
busy polls left, and one that shows ready. -/
theorem run_devicePoll {j : Job} {o : OpOutcome} (hf : j.finish = .poll o) {s : State} {e : Device}
    (hr : s.resetReq = false) (hj : s.job = some j) (hp : s.phase = .psOn)
    (hl : s.link = .device e) (hx : e.xact = .deselected) (hrdy : s.cfg.rdyBit = 7)
    (hepe : s.cfg.epeBit = 5) :
    ∃ u, stepN (5 * (e.busy + 1)) s = .next u ∧ u.phase = .idle ∧
      u.delivered = s.delivered ++ [⟨if e.epe then .fail else o, []⟩] ∧
      u.link = .device { e with busy := 0 } ∧ SameDevice s u ∧ SameInputs s u := by
  obtain ⟨n, hn⟩ : ∃ n, e.busy = n := ⟨_, rfl⟩
  induction n generalizing s e with
  | zero =>
    have hturn := run_deviceTurn hr hj hp hf hl hrdy hepe
    rw [if_pos hn] at hturn
    rw [hn]
    refine ⟨_, hturn, rfl, rfl, ?_, ⟨rfl, rfl, rfl, rfl, rfl, rfl⟩, rfl, rfl, rfl⟩
    rw [State.conclude_link, State.afterDevicePoll, ← hx, hn]
  | succ n ih =>
    have hturn := run_deviceTurn hr hj hp hf hl hrdy hepe
    rw [if_neg (by simp [hn])] at hturn
    obtain ⟨u, hrun, hidle, hdel, hlink, hframe⟩ := ih (s := s.afterDevicePoll e)
      (e := { e with busy := e.busy - 1, xact := .deselected }) hr hj hp rfl rfl hrdy hepe
      (by simp [hn])
    refine ⟨u, ?_, hidle, hdel, ?_, hframe⟩
    · rw [Nat.mul_succ, Nat.add_comm, stepN_add hturn, ← hrun]
      simp [hn]
    · rw [hlink, ← hx]

end Sys2Proof.Machine
end

section
/-! PROOFS. The obligation of the poll loop against E (60_exceptions.md R267). -/

open Sys2Proof.Machine

namespace Sys2Proof.Claims

/-- Settles O50: every snapshot lowers the busy count, and the one at 0 shows ready. -/
theorem deviceEndsThePoll : Obligations.DeviceEndsThePoll := by
  intro s e j o hp hj hf hr hl hx hrdy hepe
  obtain ⟨u, hrun, hidle, hdel, hlink, -⟩ := run_devicePoll hf hr hj hp hl hx hrdy hepe
  exact ⟨u, hrun, hidle, hdel, hlink⟩

end Sys2Proof.Claims
end

section
/-! PROOFS. A page written through buffer 1 of E and read back, at E alone (60_exceptions.md R260 to
R263, R268). -/

open Sys2Proof.Claims

namespace Sys2Proof.Machine

/-- E behind a buffer write from offset 0: the bytes stand in buffer 1. -/
def Device.buffered (e : Device) (data : List Byte) : Device :=
  (e.setBuf .one (Memory.writeRound e.pageBytes e.buf1 0 data)).inXact .deselected

/-- E behind that buffer write, the writeback with erase to page `p`, and the busy polls. -/
def Device.written (e : Device) (p : Nat) (data : List Byte) : Device :=
  { ((e.buffered data).program p .one).startCycle (.wrbackE .one) with busy := 0 }

section
variable (e : Device) (p : Nat) (data : List Byte)

@[simp] theorem Device.inXact_psize (x : Xact) : (e.inXact x).psize = e.psize := rfl

@[simp] theorem Device.inXact_addrBits (x : Xact) : (e.inXact x).addrBits = e.addrBits := rfl

@[simp] theorem Device.setBuf_addrBits (b : Buf) (m : Memory) :
    (e.setBuf b m).addrBits = e.addrBits := by cases b <;> rfl

@[simp] theorem Device.buffered_psize : (e.buffered data).psize = e.psize := by
  simp [Device.buffered]

@[simp] theorem Device.buffered_addrBits : (e.buffered data).addrBits = e.addrBits := by
  simp [Device.buffered]

@[simp] theorem Device.buffered_busy : (e.buffered data).busy = e.busy := by
  simp [Device.buffered]

@[simp] theorem Device.buffered_pageBytes : (e.buffered data).pageBytes = e.pageBytes := by
  simp [Device.buffered]

@[simp] theorem Device.written_psize : (e.written p data).psize = e.psize := by
  simp [Device.written, Device.startCycle, Device.program]

@[simp] theorem Device.written_addrBits : (e.written p data).addrBits = e.addrBits := by
  simp [Device.written, Device.startCycle, Device.program]

@[simp] theorem Device.written_pageBytes : (e.written p data).pageBytes = e.pageBytes := by
  simp [Device.pageBytes]

end

section
variable {c : Config} {e : Device} (hc : c.opc.all.Nodup) (hb : e.busy = 0)
include hc hb

theorem exchange_bufferWrite (free : Byte) {w : Wire} (hw : w.toNat = 0) (data : List Byte) :
    exchange c free e (frameOA c.opc.bufwr1 w ++ data) = e.buffered data := by
  have hm : (c.opc.bufwr1, DevCmd.bufWrite .one) ∈ devCommands c := by simp [devCommands]
  have hframe := feed_command_page hc hb hm free (p := 0) (by simpa using hw) (Nat.two_pow_pos _)
  obtain ⟨left, h⟩ := feed_payload c free (b := .one) (cmd := .bufWrite .one) rfl 0
    (e := e) e.pageBytes_pos (devDummy c (.bufWrite .one)) [] data
  rw [exchange, feed_append, hframe, h]
  rfl

variable {w : Wire} {p : Nat} (hw : w.toNat = p * 2 ^ offsetBits e.psize)
  (hp : p < 2 ^ e.addrBits)
include hw hp

theorem exchange_writeback (free : Byte) : exchange c free e (frameOA c.opc.wrbackE1 w) =
    ((e.program p .one).startCycle (.wrbackE .one)).inXact .deselected := by
  have hm : (c.opc.wrbackE1, DevCmd.wrbackE .one) ∈ devCommands c := by simp [devCommands]
  rw [exchange, feed_command_page hc hb hm free hw hp]
  rfl

/-- A page read from offset 0 answers, behind its frame and dummy bytes, the bytes of the page. -/
theorem replies_pageRead (free fill : Byte) {data : List Byte}
    (hlen : data.length ≤ e.pageBytes) (hdata : ∀ k v, data[k]? = some v → e.mainByte p k = v) :
    (replies c free (e.onSel true) (frameOA c.opc.pagerd w ++
      List.replicate (c.dummy.pagerd.toNat + data.length) fill)).drop
        (4 + c.dummy.pagerd.toNat) = data := by
  have hm : (c.opc.pagerd, DevCmd.pageRead) ∈ devCommands c := by simp [devCommands]
  have hframe := feed_command_page hc hb hm free hw hp
  have hdummy : devDummy c .pageRead = c.dummy.pagerd.toNat := rfl
  rw [replies_append, replies_frameOA hc hb hm, hframe, hdummy, ← List.drop_drop,
    List.drop_left' (by simp)]
  refine List.ext_getElem (by simp) fun k hk hk' => Option.some.inj ?_
  rw [← List.getElem?_eq_getElem hk, List.getElem?_drop,
    replies_read c free (cmd := .pageRead) [] rfl e.pageBytes_pos nofun (by simpa using hk'),
    ← hdata k _ (List.getElem?_eq_getElem hk')]
  have hmod : (0 + k) % e.pageBytes = k := by
    rw [Nat.zero_add]
    exact Nat.mod_eq_of_lt (hk'.trans_le hlen)
  exact congrArg (fun o => some (e.mainByte p o)) hmod

end

/-- Snapshots take the busy count down. -/
theorem polled_eq (c : Config) (free : Byte) {e : Device} (hx : e.xact = .deselected) (k : Nat) :
    polled c free e k = { e with busy := e.busy - k } := by
  induction k generalizing e with
  | zero => rfl
  | succ k ih =>
    rw [polled, exchange_snapshot, ih rfl, ← hx, Nat.sub_sub, Nat.add_comm 1]

/-- The page holds what was written. -/
theorem Device.mainByte_written {e : Device} (hok : e.ok) (p : Nat) {data : List Byte}
    (hlen : data.length ≤ e.pageBytes) {k : Nat} {v : Byte} (hv : data[k]? = some v) :
    (e.written p data).mainByte p k = v := by
  obtain ⟨hk, -⟩ := List.getElem?_eq_some_iff.1 hv
  have hkb : k < e.pageBytes := hk.trans_le hlen
  have hmod {i : Nat} (hi : i < data.length) : (0 + i) % e.pageBytes = i := by
    rw [Nat.zero_add]
    exact Nat.mod_eq_of_lt (hi.trans_le hlen)
  have hbuf : (e.buffered data).bufByte .one k = v := by
    have hlast := Memory.read_writeRound_last hok.2.1 e.pageBytes_pos hv fun j hj hkj => by
      rw [hmod hj, hmod hk]
      omega
    rw [hmod hk] at hlast
    exact hlast
  have hok' : (e.buffered data).ok :=
    Device.setBuf_ok hok (Memory.wf_writeRound _ hok.2.1 _ _) .one
  refine (Device.mainByte_program p hok' .one p hkb).trans ?_
  rw [if_pos rfl, hbuf]

end Sys2Proof.Machine
end

section
/-! PROOFS. The obligation of the round trip at E (60_exceptions.md R268). -/

open Sys2Proof.Machine

namespace Sys2Proof.Claims

/-- Settles O51: the four transactions leave E as `Device.written`, whose page holds the bytes. -/
theorem deviceRoundTrip : Obligations.DeviceRoundTrip := by
  intro c e free p data B hc hmatch hd hok hx hb hB hp hlen w hw
  subst hB
  have hn := admissible_opcodes hc
  obtain ⟨-, haddr, -⟩ := Device.matches_tables hmatch
  obtain ⟨hfit, -⟩ := pageBits_le hc hd haddr
  have hwire : w.toNat = p * 2 ^ offsetBits e.psize := by
    rw [hw, Nat.shiftLeft_eq]
    refine toNat_wire ?_ hfit
    rw [Nat.pow_add]
    exact Nat.mul_lt_mul_of_pos_right hp (Nat.two_pow_pos _)
  intro e1 e2 e3
  have h1 : e1 = e.buffered data := exchange_bufferWrite hn hb free rfl data
  have h2 : e2 = ((e.buffered data).program p .one |>.startCycle (.wrbackE .one)).inXact
      .deselected :=
    (congrArg (fun f => exchange c free f (frameOA c.opc.wrbackE1 w)) h1).trans
      (exchange_writeback (e := e.buffered data) hn (by simpa using hb) (by simpa using hwire)
        (by simpa using hp) free)
  have h3 : e3 = e.written p data := by
    refine (polled_eq c free (congrArg Device.xact h2) e2.busy).trans ?_
    rw [Nat.sub_self, h2]
    rfl
  rw [h3]
  exact replies_pageRead hn rfl (by simpa using hwire) (by simpa using hp) free c.fill
    (by simpa using hlen) fun k v hv => Device.mainByte_written hok p hlen hv

end Sys2Proof.Claims
end

section
/-! PROOFS. A page written and read back by DFCF with E: the runs of the three operations
(41_read.md R155; 42_write.md R171, R176; 60_exceptions.md R268). -/

open Sys2Proof.Claims

namespace Sys2Proof.Machine

/-- DFCF in `IDLE` with the Device established, and a ready E behind its link. -/
structure ReadyWith (s : State) (e : Device) : Prop where
  opcodes : s.cfg.opc.all.Nodup
  idle : s.phase = .idle
  noReset : s.resetReq = false
  valid : s.valid = true
  link : s.link = .device e
  ready : e.busy = 0

/-- `u` is back in `IDLE` with these outcomes delivered since `s`, these requests left on the port,
and `e` behind the link; the configuration and the Device registers are those of `s`. -/
structure Follows (s u : State) (e : Device) (rest : List (List Byte)) (out : List Delivery) :
    Prop where
  idle : u.phase = .idle
  inputs : u.cfg = s.cfg ∧ u.requests = rest ∧ u.resetReq = s.resetReq
  device : SameDevice s u
  link : u.link = .device e
  delivered : u.delivered = s.delivered ++ out

theorem Follows.readyWith {s u : State} {e f : Device} {rest : List (List Byte)}
    {out : List Delivery} (h : Follows s u f rest out) (hs : ReadyWith s e) (hf : f.busy = 0) :
    ReadyWith u f := by
  obtain ⟨hcfg, -, hreset⟩ := h.inputs
  obtain ⟨-, -, -, -, -, hvalid⟩ := h.device
  exact ⟨hcfg ▸ hs.opcodes, h.idle, hreset.trans hs.noReset, hvalid.trans hs.valid, h.link, hf⟩

/-- The wire addresses depend on the configuration and the Device registers alone. -/
theorem Follows.wires {s u : State} {e : Device} {rest : List (List Byte)} {out : List Delivery}
    (h : Follows s u e rest out) (a : Addr) :
    u.pageWire a = s.pageWire a ∧ u.fullWire a = s.fullWire a := by
  obtain ⟨hcfg, -⟩ := h.inputs
  obtain ⟨-, -, -, hdens, hpsm, -⟩ := h.device
  simp [State.pageWire, State.fullWire, State.pageBits, State.offsetBits, hcfg, hdens, hpsm]

section
variable {s : State} {e : Device} (h : ReadyWith s e) {rest : List (List Byte)}
include h

/-- An offered operation that completes in one transaction: E takes part in it, and gives its
answers. -/
theorem run_completes {i : Instr} {new : List Event} {o : OpOutcome} {out bytes : List Byte}
    {u : State} {fc : FreqClass} (hq : s.requests = encode i :: rest) (hwf : i.wellFormed = true)
    (hi : Completes i { s with requests := rest } new o out u) (hdev : SameDevice s u)
    (hsent : sentOf new = transaction fc bytes) :
    (∃ k, stepN k s = .next u) ∧
      (∀ free, Follows s u (exchange s.cfg free e bytes) rest [⟨o, out⟩]) ∧
      ∀ k : Nat, ∃ free,
        (answersOf new)[k]? = (replies s.cfg free (e.onSel true) bytes)[k]? := by
  obtain ⟨t, hx, -, hrun, htrace, hdel, hidle, -, -, hcfg, hreq, hreset⟩ := hi
  have hstep : step s = .next t :=
    (step_request h.noReset h.idle hq (decodeOfEncode i hwf)).trans hx
  have hrun := (stepN_succ hstep new.length).trans hrun
  obtain ⟨hlink, hans⟩ := run_exchange hrun h.noReset htrace hsent h.link
  exact ⟨⟨_, hrun⟩, fun free => ⟨hidle, ⟨hcfg, hreq, hreset⟩, hdev, hlink free, hdel⟩, hans⟩

theorem ReadyWith.mayRun {i : Instr} (hm : missingCapability s.cfg i = false) :
    MayRun { s with requests := rest } i := ⟨hm, fun _ => h.valid, h.noReset⟩

/-- BUFWR.1 from offset 0. -/
theorem run_bufwr1 {data : List Byte} (hq : s.requests = encode (.bufwr1 0 data) :: rest)
    (hlen : data.length < 2 ^ 32) : ∃ k u, stepN k s = .next u ∧
      Follows s u (e.buffered data) rest [⟨.done (BitVec.ofNat 32 data.length), []⟩] := by
  have hwf : (Instr.bufwr1 0 data).wellFormed = true := decide_eq_true hlen
  obtain ⟨new, u, hi, hsent, hdev, -⟩ := bufferWrite_completes (i := .bufwr1 0 data)
    (s := { s with requests := rest }) (c := true) rfl rfl rfl hlen (h.mayRun rfl) _ rfl
  obtain ⟨⟨k, hrun⟩, hfollows, -⟩ := run_completes h hq hwf hi hdev hsent
  have hwire : (wireBuf s.offsetBits 0).toNat = 0 := by
    simp [wireBuf, offsetOf]
  have hex := exchange_bufferWrite h.opcodes h.ready 0 hwire data
  exact ⟨k, u, hrun, hex ▸ hfollows 0⟩

/-- WRBACK.E.1 to page `p`, and its poll loop. -/
theorem run_wrbackE1 {a : Addr} {w : Wire} {p : Nat}
    (hq : s.requests = encode (.wrbackE1 a) :: rest) (ha : s.pageWire a = some w)
    (hw : w.toNat = p * 2 ^ offsetBits e.psize) (hp : p < 2 ^ e.addrBits)
    (hrdy : s.cfg.rdyBit = 7) (hepe : s.cfg.epeBit = 5) : ∃ k u, stepN k s = .next u ∧
      Follows s u { ((e.program p .one).startCycle (.wrbackE .one)).inXact .deselected with
        busy := 0 } rest [⟨.ok, []⟩] := by
  obtain ⟨hne, j, hx, hsends, hmarks, hfin⟩ := startsWrite_of_command (i := .wrbackE1 a)
    (s := { s with requests := rest }) (c := true) rfl rfl rfl (h.mayRun rfl)
    (frameOA s.cfg.opc.wrbackE1 w) (congrArg (Option.map _) ha)
  obtain ⟨new, l, hrun, hsent, -⟩ := run_toPoll (fc := s.cfg.fcCmd)
    (s := { s with requests := rest }) hne h.noReset hsends hmarks hfin
  have hstep := (step_request h.noReset h.idle hq (decodeOfEncode _ rfl)).trans hx
  have hrun := (stepN_succ hstep new.length).trans hrun
  obtain ⟨hlink, -⟩ := run_exchange hrun h.noReset rfl hsent h.link
  have hlink := hlink 0
  rw [List.append_nil, exchange_writeback h.opcodes h.ready hw hp 0] at hlink
  obtain ⟨u, hpoll, hidle, hdel, hul, hdev, hin⟩ := run_devicePoll hfin
    (s := State.beforePolls { s with requests := rest } s.cfg.fcCmd j new l) h.noReset rfl rfl
    hlink rfl hrdy hepe
  exact ⟨_, u, (stepN_add hrun _).trans hpoll, hidle, hin, hdev, hul, hdel⟩

/-- PAGERD of page `p` from offset 0. -/
theorem run_pagerd {a : Addr} {n : Len} {w : Wire} {p : Nat} {data : List Byte}
    (hq : s.requests = encode (.pagerd a n) :: rest) (ha : s.fullWire a = some w)
    (hw : w.toNat = p * 2 ^ offsetBits e.psize) (hp : p < 2 ^ e.addrBits)
    (hn : n.toNat = data.length) (hlen : data.length ≤ e.pageBytes)
    (hdata : ∀ k v, data[k]? = some v → e.mainByte p k = v) : ∃ k u f, stepN k s = .next u ∧
      Follows s u f rest [⟨.done n, data⟩] := by
  obtain ⟨new, u, hi, hsent, hdev, -⟩ := readCompletes_of_gate (i := .pagerd a n)
    (s := { s with requests := rest }) (c := true) rfl rfl rfl (h.mayRun rfl)
    (frameOA s.cfg.opc.pagerd w) (congrArg (Option.map _) ha)
  rw [hn] at hsent
  obtain ⟨⟨k, hrun⟩, hfollows, hans⟩ := run_completes h hq rfl hi hdev hsent
  have hbytes : (answersOf new).drop (4 + s.cfg.dummy.pagerd.toNat) = data := by
    refine List.ext_getElem? fun k => ?_
    obtain ⟨free, hk⟩ := hans (4 + s.cfg.dummy.pagerd.toNat + k)
    rw [List.getElem?_drop, hk, ← List.getElem?_drop]
    exact congrArg (fun bs : List Byte => bs[k]?)
      (replies_pageRead h.opcodes h.ready hw hp free s.cfg.fill hlen hdata)
  exact ⟨k, u, _, hrun, hbytes ▸ hfollows 0⟩

end

end Sys2Proof.Machine
end

section
/-! PROOFS. The obligation of a page written and read back by DFCF with E (60_exceptions.md
R268). -/

open Sys2Proof.Machine

namespace Sys2Proof.Claims

/-- Settles O52: the three operations run one after the other, and the first two leave E as
`Device.written`. -/
theorem writeThenReadReturnsTheBytes : Obligations.WriteThenReadReturnsTheBytes := by
  intro s e a data rest hinv hidle hr hv hatt hrdy hepe hlen ha n hn hq
  obtain ⟨hlink, hmatch, hdens, hpsm, -, hbusy, hok⟩ := hatt
  rw [hlink] at hok
  have hd := hinv.density hv
  obtain ⟨-, haddr, -⟩ := Device.matches_tables hmatch
  rw [hdens, hpsm] at haddr
  have hW : s.pageBits = some e.addrBits := haddr
  have hB : offsetBits e.psize = s.offsetBits := congrArg offsetBits hpsm
  have hfit : e.addrBits + s.offsetBits ≤ 24 := (pageBits_le hinv.admissible hd haddr).1
  have hsmall : data.length < 2 ^ 32 := by
    have : e.pageBytes ≤ 528 := by unfold Device.pageBytes; split <;> omega
    omega
  have hready : ReadyWith s e := ⟨admissible_opcodes hinv.admissible, hidle, hr, hv, hlink, hbusy⟩
  -- the page of `a`, and the wire addresses of the two operations on it
  have hp := pageIndex_lt s.offsetBits e.addrBits a
  have hpage : s.pageWire a = some (wirePage s.offsetBits e.addrBits a) :=
    congrArg (Option.map _) hW
  have hfull : s.fullWire a = some (wireFull s.offsetBits e.addrBits a) :=
    congrArg (Option.map _) hW
  have hpageNat := wirePage_toNat hfit a
  have hfullNat := wireFull_toNat hfit a
  rw [offsetOf_eq, ha, Nat.add_zero] at hfullNat
  -- the three operations
  obtain ⟨k₁, u₁, hrun₁, h₁⟩ := run_bufwr1 hready hq hsmall
  have hready₁ := h₁.readyWith hready (by simpa using hbusy)
  obtain ⟨hcfg₁, hq₁, -⟩ := h₁.inputs
  obtain ⟨hpage₁, hfull₁⟩ := h₁.wires a
  obtain ⟨k₂, u₂, hrun₂, h₂⟩ := run_wrbackE1 hready₁ hq₁ (hpage₁.trans hpage)
    (by simpa [hB] using hpageNat) (by simpa using hp) (hcfg₁ ▸ hrdy) (hcfg₁ ▸ hepe)
  have h₂ : Follows u₁ u₂ (e.written (pageIndex s.offsetBits e.addrBits a) data) _ _ := h₂
  obtain ⟨-, hq₂, -⟩ := h₂.inputs
  obtain ⟨-, hfull₂⟩ := h₂.wires a
  obtain ⟨k₃, u₃, f, hrun₃, h₃⟩ := run_pagerd (h₂.readyWith hready₁ rfl) hq₂
    (hfull₂.trans (hfull₁.trans hfull)) (by simpa [hB] using hfullNat) (by simpa using hp)
    (by rw [hn]; exact Nat.mod_eq_of_lt hsmall) (by simpa using hlen)
    fun k v hv => Device.mainByte_written hok _ hlen hv
  refine ⟨k₁ + (k₂ + k₃), u₃, ?_, h₃.idle, h₃.inputs.2.1, ?_⟩
  · rw [stepN_add hrun₁, stepN_add hrun₂, hrun₃]
  · rw [h₃.delivered, h₂.delivered, h₁.delivered, hn]
    simp

end Sys2Proof.Claims
end
